-- ==== Sys2Proof/Word.lean ====
section
/-! DEFINITION. The widths of the values IDEA-CORE computes with (spec 00 R8, R11; 10 R20). -/

namespace Sys2Proof

/-- One byte of a key, a block or a file. -/
abbrev Byte := BitVec 8

/-- One word of the register space, a subkey, a quarter of a block (10 R20, 43 R175). -/
abbrev Word := BitVec 16

/-- A length or position register (00 R9 LEN_WIDTH, D21). -/
abbrev Len := BitVec 64

/-- A command word of the command port (30 R90). -/
abbrev CmdWord := BitVec 32

/-- A word address of the register space (20 R61). -/
abbrev RegAddr := BitVec 8

/-- The 64-bit block: bytes B[0] to B[7] (00 R8, R11). -/
abbrev Block := Vector Byte 8

/-- The 128-bit key: bytes KEY[0] to KEY[15] (10 R22). -/
abbrev Key := Vector Byte 16

/-- A subkey schedule: 52 words (10 R33). -/
abbrev Schedule := Vector Word 52

/-- `zeros(8)` as a block (00 R11). -/
def Block.zero : Block := #v[0, 0, 0, 0, 0, 0, 0, 0]

/-- `zeros(16)` as a key (00 R11, 41 R121). -/
def Key.zero : Key := #v[0, 0, 0, 0, 0, 0, 0, 0, 0, 0, 0, 0, 0, 0, 0, 0]

end Sys2Proof
end

