-- ==== Sys2Proof/Syntax.lean ====
section
/-! DEFINITION. The commands of the opcode map (30 R97), one constructor per row of spec/opcode_table.json. -/

namespace Sys2Proof

/-- Field D (30 R93): the direction. -/
inductive Dir where
  | enc
  | dec
deriving DecidableEq, Repr

/-- Field M (30 R94): the mode of operation. -/
inductive Mode where
  | ecb
  | cbc
  | cfb
  | ofb
deriving DecidableEq, Repr

/-- A command (30 R97). The operands are the fields its format uses (30 R91): a byte of IMM[7:0] (B), the word IMM (I),
the 3-bit field IDX and IMM (X, X4), or D and M (C). -/
inductive Instr where
  /-- NOP (46 R280). -/
  | nop
  /-- RESET (46 R281). -/
  | reset
  /-- ERRCLR (46 R282). -/
  | errclr
  /-- CANCEL (46 R283). -/
  | cancel
  /-- KDCLR (41 R121). -/
  | kdclr
  /-- KDBYTE b (41 R122). -/
  | kdbyte (b : Byte)
  /-- KEYLDW i, v (41 R125). -/
  | keyldw (i : BitVec 3) (v : Word)
  /-- SCHEDGEN (43 R180). -/
  | schedgen
  /-- SCHEDINV (43 R181). -/
  | schedinv
  /-- CRYPT (43 R182). -/
  | crypt
  /-- BLKLDW i, v (43 R183); `i` is the whole field IDX, whose top bit must be 0 (30 R91, R99). -/
  | blkldw (i : BitVec 3) (v : Word)
  /-- MODEINIT d, m (44 R201). -/
  | modeinit (d : Dir) (m : Mode)
  /-- XFORM (44 R210). -/
  | xform
  /-- ACCLD v (42 R146). -/
  | accld (v : Word)
  /-- MULI v (42 R147). -/
  | muli (v : Word)
  /-- ADDI v (42 R148). -/
  | addi (v : Word)
  /-- MULINV (42 R149). -/
  | mulinv
  /-- ADDINV (42 R150). -/
  | addinv
  /-- CSTART d, m (45 R231). -/
  | cstart (d : Dir) (m : Mode)
deriving DecidableEq, Repr

end Sys2Proof
end

