-- ==== Sys2Proof/WellFormed.lean ====
section
/-! DEFINITION. Which command terms stand for a legal command word. Every operand but one fills its field, so the one check
is format X4's must-be-zero bit IDX[2] (30 R91, R99). -/

namespace Sys2Proof

/-- BLKLDW names one of the block words 0..3 (30 R91, R95, R99); every other term is legal as it is typed. -/
def Instr.wellFormed : Instr → Bool
  | .blkldw i _ => i.toNat < 4
  | .nop => true
  | .reset => true
  | .errclr => true
  | .cancel => true
  | .kdclr => true
  | .kdbyte _ => true
  | .keyldw _ _ => true
  | .schedgen => true
  | .schedinv => true
  | .crypt => true
  | .modeinit _ _ => true
  | .xform => true
  | .accld _ => true
  | .muli _ => true
  | .addi _ => true
  | .mulinv => true
  | .addinv => true
  | .cstart _ _ => true

end Sys2Proof
end

