-- ==== Sys2Proof/Decode.lean ====
section
/-! DEFINITION. The decoder (30 R90 to R101) and, after it, the encoder. The opcode map is one list of rows; a word is
decoded in the order of 30 R98. The command port takes whole 32-bit words, so no byte order enters (20 R74). -/

namespace Sys2Proof

/-- The rows of the opcode map (30 R97). -/
inductive Mnemonic where
  | nop | reset | errclr | cancel
  | kdclr | kdbyte | keyldw
  | schedgen | schedinv | crypt | blkldw
  | modeinit | xform
  | accld | muli | addi | mulinv | addinv
  | cstart
deriving DecidableEq, Repr

/-- The command formats (30 R91). -/
inductive Format where
  | z
  | b
  | i
  | x
  | x4
  | c
deriving DecidableEq, Repr

/-- Why a word is illegal (30 R98, R99); both make the command fail with IllegalCommand. -/
inductive DecodeError where
  /-- The OPC is in no row of the opcode map. -/
  | unassignedOpcode
  /-- A bit that the row's format requires to be 0 is 1 (30 R92). -/
  | mustBeZeroBitSet
deriving DecidableEq, Repr

/-- Field OPC, bits [31:24] (30 R90). -/
def opcField (w : CmdWord) : BitVec 8 := w.extractLsb' 24 8

/-- Field D, bit [23] (30 R90). -/
def dField (w : CmdWord) : BitVec 1 := w.extractLsb' 23 1

/-- Field M, bits [22:21] (30 R90). -/
def mField (w : CmdWord) : BitVec 2 := w.extractLsb' 21 2

/-- Field IDX, bits [18:16] (30 R90). -/
def idxField (w : CmdWord) : BitVec 3 := w.extractLsb' 16 3

/-- Field IMM, bits [15:0] (30 R90). -/
def immField (w : CmdWord) : BitVec 16 := w.extractLsb' 0 16

/-- D: 0 encrypt, 1 decrypt (30 R93). -/
def dirOfBits (d : BitVec 1) : Dir := if d = 0 then .enc else .dec

/-- M: 00 ECB, 01 CBC, 10 CFB, 11 OFB (30 R94). -/
def modeOfBits (m : BitVec 2) : Mode :=
  if m = 0 then .ecb else if m = 1 then .cbc else if m = 2 then .cfb else .ofb

/-- The bit of field D that stands for a direction (30 R93). -/
def dirBits : Dir → BitVec 1
  | .enc => 0
  | .dec => 1

/-- The bits of field M that stand for a mode (30 R94); CFG.MODE and CFLAGS.CMODE use the same (10 R25, R30). -/
def modeBits : Mode → BitVec 2
  | .ecb => 0
  | .cbc => 1
  | .cfb => 2
  | .ofb => 3

/-- The OPC of each row (30 R97). -/
def Mnemonic.opc : Mnemonic → BitVec 8
  | .nop => 0x00
  | .reset => 0x01
  | .errclr => 0x02
  | .cancel => 0x03
  | .kdclr => 0x10
  | .kdbyte => 0x11
  | .keyldw => 0x12
  | .schedgen => 0x20
  | .schedinv => 0x21
  | .crypt => 0x22
  | .blkldw => 0x23
  | .modeinit => 0x30
  | .xform => 0x31
  | .accld => 0x40
  | .muli => 0x41
  | .addi => 0x42
  | .mulinv => 0x43
  | .addinv => 0x44
  | .cstart => 0x50

/-- The format of each row (30 R97). -/
def Mnemonic.format : Mnemonic → Format
  | .nop => .z
  | .reset => .z
  | .errclr => .z
  | .cancel => .z
  | .kdclr => .z
  | .kdbyte => .b
  | .keyldw => .x
  | .schedgen => .z
  | .schedinv => .z
  | .crypt => .z
  | .blkldw => .x4
  | .modeinit => .c
  | .xform => .z
  | .accld => .i
  | .muli => .i
  | .addi => .i
  | .mulinv => .z
  | .addinv => .z
  | .cstart => .c

/-- The bits a format requires to be 0 (30 R91). -/
def Format.mustBeZero : Format → CmdWord
  | .z => 0x00FFFFFF
  | .b => 0x00FFFF00
  | .i => 0x00FF0000
  | .x => 0x00F80000
  | .x4 => 0x00FC0000
  | .c => 0x001FFFFF

/-- The rows in the table's order (30 R97). -/
def Mnemonic.all : List Mnemonic :=
  [.nop, .reset, .errclr, .cancel, .kdclr, .kdbyte, .keyldw, .schedgen, .schedinv, .crypt, .blkldw, .modeinit, .xform,
   .accld, .muli, .addi, .mulinv, .addinv, .cstart]

/-- A row's `match` column (30 R97). -/
def Mnemonic.matchWord (r : Mnemonic) : CmdWord := r.opc ++ 0#24

/-- A row's `mask` column (30 R97): the OPC and the must-be-zero bits. -/
def Mnemonic.mask (r : Mnemonic) : CmdWord := 0xFF000000 ||| r.format.mustBeZero

/-- The row whose OPC a word carries, if any (30 R98 step 1). -/
def rowOf (opc : BitVec 8) : Option Mnemonic := Mnemonic.all.find? fun r => r.opc == opc

/-- A row's command with the operands its format takes from the word (30 R91). -/
def Mnemonic.assemble (r : Mnemonic) (w : CmdWord) : Instr :=
  match r with
  | .nop => .nop
  | .reset => .reset
  | .errclr => .errclr
  | .cancel => .cancel
  | .kdclr => .kdclr
  | .kdbyte => .kdbyte ((immField w).extractLsb' 0 8)
  | .keyldw => .keyldw (idxField w) (immField w)
  | .schedgen => .schedgen
  | .schedinv => .schedinv
  | .crypt => .crypt
  | .blkldw => .blkldw (idxField w) (immField w)
  | .modeinit => .modeinit (dirOfBits (dField w)) (modeOfBits (mField w))
  | .xform => .xform
  | .accld => .accld (immField w)
  | .muli => .muli (immField w)
  | .addi => .addi (immField w)
  | .mulinv => .mulinv
  | .addinv => .addinv
  | .cstart => .cstart (dirOfBits (dField w)) (modeOfBits (mField w))

/-- The decoder, total on 32-bit words (30 R98): the OPC's row, then the must-be-zero bits, then the operands. -/
def decode (w : CmdWord) : Except DecodeError Instr :=
  match rowOf (opcField w) with
  | none => .error .unassignedOpcode
  | some r => if w &&& r.format.mustBeZero = 0 then .ok (r.assemble w) else .error .mustBeZeroBitSet

/-- The fields of a command word laid out as 30 R90 orders them, RSV at 0. -/
def layFields (opc : BitVec 8) (d : BitVec 1) (m : BitVec 2) (idx : BitVec 3) (imm : BitVec 16) : CmdWord :=
  opc ++ (d ++ (m ++ (0#2 ++ (idx ++ imm))))

/-- The row a command stands in (30 R97). -/
def Instr.mnemonic : Instr → Mnemonic
  | .nop => .nop
  | .reset => .reset
  | .errclr => .errclr
  | .cancel => .cancel
  | .kdclr => .kdclr
  | .kdbyte _ => .kdbyte
  | .keyldw _ _ => .keyldw
  | .schedgen => .schedgen
  | .schedinv => .schedinv
  | .crypt => .crypt
  | .blkldw _ _ => .blkldw
  | .modeinit _ _ => .modeinit
  | .xform => .xform
  | .accld _ => .accld
  | .muli _ => .muli
  | .addi _ => .addi
  | .mulinv => .mulinv
  | .addinv => .addinv
  | .cstart _ _ => .cstart

/-- The encoder: a command's word (30 R90, R91, R97). -/
def encode (i : Instr) : CmdWord :=
  match i with
  | .nop => layFields i.mnemonic.opc 0 0 0 0
  | .reset => layFields i.mnemonic.opc 0 0 0 0
  | .errclr => layFields i.mnemonic.opc 0 0 0 0
  | .cancel => layFields i.mnemonic.opc 0 0 0 0
  | .kdclr => layFields i.mnemonic.opc 0 0 0 0
  | .kdbyte b => layFields i.mnemonic.opc 0 0 0 (b.setWidth 16)
  | .keyldw n v => layFields i.mnemonic.opc 0 0 n v
  | .schedgen => layFields i.mnemonic.opc 0 0 0 0
  | .schedinv => layFields i.mnemonic.opc 0 0 0 0
  | .crypt => layFields i.mnemonic.opc 0 0 0 0
  | .blkldw n v => layFields i.mnemonic.opc 0 0 n v
  | .modeinit d m => layFields i.mnemonic.opc (dirBits d) (modeBits m) 0 0
  | .xform => layFields i.mnemonic.opc 0 0 0 0
  | .accld v => layFields i.mnemonic.opc 0 0 0 v
  | .muli v => layFields i.mnemonic.opc 0 0 0 v
  | .addi v => layFields i.mnemonic.opc 0 0 0 v
  | .mulinv => layFields i.mnemonic.opc 0 0 0 0
  | .addinv => layFields i.mnemonic.opc 0 0 0 0
  | .cstart d m => layFields i.mnemonic.opc (dirBits d) (modeBits m) 0 0

/-- The command word of an opcode-table row whose bits are `w`: the bits above `nbits` are 0, and there is one length, 32
bits (30 R101; log 20). -/
def tableWord (nbits w : Nat) : CmdWord := BitVec.ofNat 32 (w % 2 ^ nbits)

/-- What the decoder reads from a table row's bits; nothing is longer than 32 bits (30 R101; log 20). -/
def decodeTableWord (nbits w : Nat) : Option Instr :=
  if nbits ≤ 32 then
    match decode (tableWord nbits w) with
    | .ok i => some i
    | .error _ => none
  else none

end Sys2Proof
end

