-- ==== Sys2Proof/Config.lean ====
section
/-! DEFINITION. What the source fixes (00 R8), and the values the spec leaves free (00 R9, 93 part 1): opaque constants
without a body, applied to the plain counter `State.draws`, so that nothing can be proved of any one of them. -/

namespace Sys2Proof

/-- BLOCK_BYTES (00 R8). -/
def Config.blockBytes : Nat := 8

/-- MAX_PLAIN_LEN = 2^45 − 1 bytes (00 R8). -/
def Config.maxPlainLen : Nat := 2 ^ 45 - 1

/-- MUL_MODULUS (00 R8). -/
def Config.mulModulus : Nat := 65537

/-- ADD_MODULUS (00 R8). -/
def Config.addModulus : Nat := 65536

/-- Files are shorter than this many bytes (00 R9 LEN_WIDTH, D21, U13). -/
def Config.fileLimit : Nat := 2 ^ 63

/-- The reference value of CHUNK_BYTES, 2 MiB = 2,097,152 bytes (00 R9), counted in blocks of 8 bytes, less one
(`State.chunkBlocks`, log 6). -/
def Config.referenceChunkBlocks : Nat := 262143

/-- The IO oracle's answer to a file primitive that `State.ioScript` does not script (00 R9, D19; log 3). FREE VALUE. -/
opaque Config.ioOracle : Nat → Bool

/-- The TIME oracle: the elapsed time drawn at a run's success (10 R40, 45 R252, D18; log 4). FREE VALUE. -/
opaque Config.timeOracle : Nat → Len

/-- What OUTF holds after a failed primitive (20 R87, D20, U1; log 5). FREE VALUE. -/
opaque Config.fileAfterIoFailure : Nat → List Byte

/-- A byte of the chunk buffer that no step has written since the `n`-th reset, power-on being the 0th, by the byte's offset (70
R341 "any value", U12; log 7). FREE VALUE. -/
opaque Config.bufferContent : Nat → Nat → Byte

end Sys2Proof
end

