-- ==== Sys2Proof/Machine/State.lean ====
section
/-! DEFINITION. The machine's state (10_state.md, 20_memory.md), the reasons a step can stop, and the state after reset
(70 R341). Plain data throughout. -/

namespace Sys2Proof.Machine

/-- Why the machine stops with a fault. The spec has no trap (60 R310): every error of a command or a run is a NEXT state.
These two are calls the spec says no rule makes (log 11). -/
inductive Fault where
  /-- Raised by `inRead` (a chunk step, the decrypt suffix step) when the bytes asked for are not all in INF: "No rule calls
  `InRead` with pos + n > IN_LEN" (20 R66). SAFE: it stops where no run of the rules arrives. -/
  | inReadOutsideFile
  /-- Raised by `outTruncate` (the decrypt suffix step) for a length above OUTF's: `OutTruncate(L)` is for L ≤ |OUTF|
  (20 R68). SAFE: it stops where no run of the rules arrives. -/
  | truncateBeyondFile
deriving DecidableEq, Repr

/-- Why a step has no meaning in the model. -/
inductive Refusal where
  /-- An instruction without a meaning yet, rejected by its mnemonic in `exec`'s arm. SAFE. -/
  | notModelled (mnemonic : String)
  /-- Raised by the host operations that bind files, while CPH = RUNNING: the host breaks its duty, "a run that breaks a
  duty is outside the model" (20 R84, D23, U4: refuse; log 8). SAFE. -/
  | hostDutyBroken
  /-- Raised by `openFiles` (CSTART) for an INF of 2^63 bytes or more, outside the length registers (D21, U13: refuse;
  log 9). SAFE. -/
  | fileOverLengthRegisters
deriving DecidableEq, Repr

/-- The cause codes of CMDERR and CRES (60 R301); `ErrorCode.code` gives the numbers. No other code is ever written, so no
other can be held (U17; log 19). -/
inductive ErrorCode where
  | none
  | invalidKeySize
  | fileTooLarge
  | emptyInput
  | unalignedInput
  | malformedCryptogram
  | ioFailure
  | cancelled
  | illegalCommand
  | busy
  | unconfigured
deriving DecidableEq, Repr

/-- The codec phase CPH (10 R28); values 5 to 7 never occur (log 19). -/
inductive Phase where
  | idle
  | running
  | succeeded
  | failed
  | cancelled
deriving DecidableEq, Repr

/-- The status events of EVT (10 R41). -/
inductive Event where
  | none
  | started
  | progress
  | succeeded
  | failed
  | cancelled
deriving DecidableEq, Repr

/-- The configuration register CFG (10 R25). -/
structure Cfg where
  /-- MODE: the configured mode. -/
  mode : Mode
  /-- DIR: the mode's direction. -/
  dir : Dir
  /-- MODEV: MODE and DIR have been set since reset. -/
  modev : Bool
  /-- SKDIR: which schedule SK holds, the encryption schedule (`enc`) or its inversion (`dec`). -/
  skdir : Dir
  /-- SKV: SK has been loaded since reset. -/
  skv : Bool
deriving DecidableEq, Repr

/-- The run's request and configuration bits CFLAGS (10 R30). -/
structure Cflags where
  /-- CANCEL_REQ: the host has asked to cancel the current run. -/
  cancelReq : Bool
  /-- CDIR: the run's direction. -/
  cdir : Dir
  /-- CMODE: the run's mode. -/
  cmode : Mode
deriving DecidableEq, Repr

/-- A file's bytes as (offset, byte) pairs. Every byte of a file is listed, in rising offsets from 0; an offset that is not
listed lies beyond the file's end and holds no byte (20 R63, R64, R73; log 14). -/
abbrev Memory := List Host.Cell

/-- The canonical form: the offsets are exactly 0, 1, …, length − 1, in this order. -/
abbrev Memory.wf (m : Memory) : Prop := m.map Prod.fst = List.range m.length

/-- The content of the chunk buffer (20 R85), byte by byte: what steps have written to its first bytes, and for every other
byte the free value of the last reset (70 R341; log 7). -/
structure ChunkBuffer where
  /-- The bytes from offset 0 on that steps have written since the last reset. -/
  filled : List Byte
  /-- MODEL: how many resets there have been, which tells one reset's free values from the next's. -/
  resets : Nat
deriving DecidableEq, Repr

/-- One atomic operation of the interleaving (20 R79), as the world outside the core presents it. -/
inductive Action where
  /-- The host writes a command word to the command port (20 R62). -/
  | command (w : CmdWord)
  /-- The host reads the register space at a word address (46 R284). -/
  | read (a : RegAddr)
  /-- The scheduler gives the codec sequencer a turn (20 R79, 45 R242). -/
  | sequencer
  /-- The host binds INF and OUTF to two openable files that now hold these bytes (20 R65, 30 R102 BIND). -/
  | bind (input output : List Byte)
  /-- The host's binding names no openable file (20 R65, D41). -/
  | unbind
  /-- The platform asserts the reset input (70 R340). -/
  | resetInput
deriving DecidableEq, Repr

/-- The state of the core, its files, and the environment's inputs still to come. -/
structure State where
  /-- KEY (10 R22). -/
  key : Key
  /-- KEYV[7:0] (10 R23). -/
  keyv : BitVec 8
  /-- KDIDX[3:0] (10 R24). -/
  kdidx : Fin 16
  /-- CFG (10 R25). -/
  cfg : Cfg
  /-- ACC (10 R26). -/
  acc : Word
  /-- CMDERR (10 R27). -/
  cmderr : ErrorCode
  /-- CPH (10 R28). -/
  cph : Phase
  /-- CRES (10 R29). -/
  cres : ErrorCode
  /-- CFLAGS (10 R30). -/
  cflags : Cflags
  /-- BLK (10 R31). -/
  blk : Block
  /-- CHAIN (10 R32). -/
  chain : Block
  /-- SK (10 R33). -/
  sk : Schedule
  /-- IN_LEN (10 R34). -/
  inLen : Len
  /-- DATA_LEN (10 R35). -/
  dataLen : Len
  /-- OUT_LEN (10 R36). -/
  outLen : Len
  /-- DONE_BYTES (10 R37). -/
  doneBytes : Len
  /-- OUT_POS (10 R38). -/
  outPos : Len
  /-- FINAL_SIZE (10 R39). -/
  finalSize : Len
  /-- ELAPSED (10 R40). -/
  elapsed : Len
  /-- EVT (10 R41). -/
  evt : Event
  /-- EVTSEQ (10 R42). -/
  evtseq : Word
  /-- The chunk buffer, CHUNK_BYTES bytes (20 R85; log 7); `chunkContent` reads it. -/
  chunkBuf : ChunkBuffer
  /-- INF (20 R63). -/
  inf : Memory
  /-- OUTF (20 R64). -/
  outf : Memory
  /-- INF and OUTF are bound to openable files (20 R65). -/
  bound : Bool
  /-- MODEL: the parameter CHUNK_BYTES = 8 * (chunkBlocks + 1), which no step changes (00 R9, D14; log 6). -/
  chunkBlocks : Nat
  /-- MODEL: the operations of the interleaving still to come, next first (20 R79; log 2). -/
  agenda : List Action
  /-- MODEL: the IO oracle's next answers, next first (00 R9, D19; log 3). -/
  ioScript : List Bool
  /-- MODEL: how many free values have been drawn (log 4). -/
  draws : Nat
  /-- MODEL: the word the register read port answered last (46 R284; log 13). -/
  reply : Option Word
deriving DecidableEq, Repr

/-- CFG after reset: 0x0000 (70 R341). -/
def Cfg.reset : Cfg := { mode := .ecb, dir := .enc, modev := false, skdir := .enc, skv := false }

/-- CFLAGS after reset: 0x0000 (70 R341). -/
def Cflags.reset : Cflags := { cancelReq := false, cdir := .enc, cmode := .ecb }

/-- The machine right after power-on reset (70 R340 to R342): every register at 70 R341's value, nothing bound, no
operation waiting. The fields marked MODEL, the chunk buffer and the unbound files hold the values of logs 1, 3, 4, 6, 7,
10 and 13. -/
def State.reset : State where
  key := Key.zero
  keyv := 0
  kdidx := 0
  cfg := Cfg.reset
  acc := 0
  cmderr := .none
  cph := .idle
  cres := .none
  cflags := Cflags.reset
  blk := Block.zero
  chain := Block.zero
  sk := Vector.replicate 52 0
  inLen := 0
  dataLen := 0
  outLen := 0
  doneBytes := 0
  outPos := 0
  finalSize := 0
  elapsed := 0
  evt := .none
  evtseq := 0
  chunkBuf := { filled := [], resets := 0 }
  inf := []
  outf := []
  bound := false
  chunkBlocks := Config.referenceChunkBlocks
  agenda := []
  ioScript := []
  draws := 0
  reply := none

end Sys2Proof.Machine
end

