-- ==== Sys2Proof/Machine/Operands.lean ====
section
/-! DEFINITION. Byte order and word views (00 R11; 20 R70 to R73): the only place where bytes become words, blocks and
128-bit or 64-bit numbers, and back. -/

namespace Sys2Proof.Machine

/-- `be16(b0, b1)` (00 R11). -/
def be16 (b0 b1 : Byte) : Word := b0 ++ b1

/-- v[15:8], the first byte of a word's byte pair (30 R96). -/
def hiByte (v : Word) : Byte := v.extractLsb' 8 8

/-- v[7:0], the second byte of a word's byte pair (30 R96). -/
def loByte (v : Word) : Byte := v.extractLsb' 0 8

/-- `roundup8(n)`: the least multiple of 8 that is at least `n` (00 R10). -/
def roundup8 (n : Nat) : Nat := 8 * ((n + 7) / 8)

/-- Key word `i` = be16(KEY[2i], KEY[2i+1]) (20 R71). -/
def Key.word (k : Key) (i : Fin 8) : Word := be16 k[2 * i.val] k[2 * i.val + 1]

/-- The 128-bit key register: KEY[0] is its most significant byte (20 R71). -/
def Key.register (k : Key) : BitVec 128 :=
  Key.word k 0 ++ (Key.word k 1 ++ (Key.word k 2 ++ (Key.word k 3 ++ (Key.word k 4 ++ (Key.word k 5 ++ (Key.word k 6 ++
    Key.word k 7))))))

/-- KEY[2i] <- v[15:8], KEY[2i+1] <- v[7:0] (41 R125). -/
def Key.setWord (k : Key) (i : BitVec 3) (v : Word) : Key :=
  have h : i.toNat < 8 := i.isLt
  (k.set (2 * i.toNat) (hiByte v)).set (2 * i.toNat + 1) (loByte v)

/-- Block word `k` = be16(B[2k], B[2k+1]) (20 R70). -/
def Block.word (b : Block) (k : Fin 4) : Word := be16 b[2 * k.val] b[2 * k.val + 1]

/-- A block from its four words, "as big-endian byte pairs" (43 R175). -/
def Block.ofWords (x1 x2 x3 x4 : Word) : Block :=
  #v[hiByte x1, loByte x1, hiByte x2, loByte x2, hiByte x3, loByte x3, hiByte x4, loByte x4]

/-- B[2i] <- v[15:8], B[2i+1] <- v[7:0] for a block word index i in 0..3 (43 R183). -/
def Block.setWord (b : Block) (i : Fin 4) (v : Word) : Block :=
  (b.set (2 * i.val) (hiByte v)).set (2 * i.val + 1) (loByte v)

/-- Bytewise XOR of two blocks (44 R205). -/
def Block.xor (a b : Block) : Block := Vector.ofFn fun i => a[i] ^^^ b[i]

/-- `be64(B)`: byte 0 most significant (00 R11). -/
def Block.be64 (b : Block) : BitVec 64 := b[0] ++ (b[1] ++ (b[2] ++ (b[3] ++ (b[4] ++ (b[5] ++ (b[6] ++ b[7]))))))

/-- `bytes_be64(v)`, the inverse of `be64` (00 R11). -/
def Block.ofBe64 (v : BitVec 64) : Block :=
  #v[v.extractLsb' 56 8, v.extractLsb' 48 8, v.extractLsb' 40 8, v.extractLsb' 32 8, v.extractLsb' 24 8,
    v.extractLsb' 16 8, v.extractLsb' 8 8, v.extractLsb' 0 8]

/-- The 8-byte blocks of a byte sequence, in order; the codec always pads to whole blocks first (20 R74), so that no byte
is left over. -/
def blocksOf : List Byte → List Block
  | b0 :: b1 :: b2 :: b3 :: b4 :: b5 :: b6 :: b7 :: rest => #v[b0, b1, b2, b3, b4, b5, b6, b7] :: blocksOf rest
  | _ => []

/-- The bytes of a list of blocks, in order. -/
def bytesOf : List Block → List Byte
  | [] => []
  | b :: bs => b.toList ++ bytesOf bs

/-- A byte sequence zero-padded to a multiple of 8 bytes (20 R85, 45 R244). -/
def padBlocks (bytes : List Byte) : List Byte :=
  bytes ++ List.replicate (roundup8 bytes.length - bytes.length) 0

end Sys2Proof.Machine
end

