-- ==== Sys2Proof/Machine/Flags.lean ====
section
/-! DEFINITION. The one-bit state and the codes (10 R46): there are no condition codes and no arithmetic flags, so this file
holds the valid bits, the checks on them, and the numbers of the phases, events and errors as the register space shows
them. -/

namespace Sys2Proof.Machine

/-- The code of an error cause (60 R301). -/
def ErrorCode.code : ErrorCode → BitVec 8
  | .none => 0x00
  | .invalidKeySize => 0x01
  | .fileTooLarge => 0x02
  | .emptyInput => 0x03
  | .unalignedInput => 0x04
  | .malformedCryptogram => 0x05
  | .ioFailure => 0x06
  | .cancelled => 0x07
  | .illegalCommand => 0x10
  | .busy => 0x11
  | .unconfigured => 0x12

/-- The number of a codec phase (10 R28). -/
def Phase.code : Phase → BitVec 3
  | .idle => 0
  | .running => 1
  | .succeeded => 2
  | .failed => 3
  | .cancelled => 4

/-- The code of a status event (10 R41). -/
def Event.code : Event → BitVec 8
  | .none => 0
  | .started => 1
  | .progress => 2
  | .succeeded => 3
  | .failed => 4
  | .cancelled => 5

/-- The bit of a Bool field. -/
def bit (b : Bool) : BitVec 1 := BitVec.ofBool b

/-- CFG as the register space shows it: bits [15:6] read 0, then SKV, SKDIR, MODEV, DIR, MODE (10 R25). -/
def Cfg.word (c : Cfg) : Word :=
  0#10 ++ (bit c.skv ++ (dirBits c.skdir ++ (bit c.modev ++ (dirBits c.dir ++ modeBits c.mode))))

/-- CFLAGS as the register space shows it: bits [15:4] read 0, then CMODE, CDIR, CANCEL_REQ (10 R30). -/
def Cflags.word (c : Cflags) : Word :=
  0#12 ++ (modeBits c.cmode ++ (dirBits c.cdir ++ bit c.cancelReq))

/-- BUSY: exactly when CPH = 1 (10 R28). -/
def State.busy (s : State) : Bool := s.cph == .running

/-- KEY is complete: KEYV[7:0] = 0xFF (10 R23, 60 R306). -/
def State.keyComplete (s : State) : Bool := s.keyv == 0xFF

/-- A schedule has been loaded since reset: CFG.SKV = 1 (60 R305). -/
def State.scheduleLoaded (s : State) : Bool := s.cfg.skv

/-- A mode and a schedule have been loaded since reset: CFG.MODEV = 1 and CFG.SKV = 1 (60 R305). -/
def State.modeLoaded (s : State) : Bool := s.cfg.modev && s.cfg.skv

/-- KEYV[i] <- 1 (41 R125). -/
def setKeyvBit (keyv : BitVec 8) (i : BitVec 3) : BitVec 8 := keyv ||| (1#8 <<< i.toNat)

/-- SKDIR <- 1 − SKDIR (43 R181). -/
def flipDir : Dir → Dir
  | .enc => .dec
  | .dec => .enc

end Sys2Proof.Machine
end

