-- ==== Sys2Proof/Machine/Ops.lean ====
section
/-! DEFINITION. The named operations over files, registers and the environment that every meaning is written with: the file
store, the two error channels (60 R302, R304), the status event (45 R257), the Busy check (60 R303), the IO oracle and the
four file primitives (20 R66 to R69), reset (70 R341) and the register read (10 R20, R43, R44). -/

namespace Sys2Proof.Machine

/-- What a command, a sequencer step or a host operation answers. -/
abbrev Result := Host.Outcome State Fault Refusal

/-! ## Files -/

/-- The cells of a byte sequence whose first byte stands at offset `start`. -/
def Memory.ofBytesFrom (start : Nat) : List Byte → Memory
  | [] => []
  | b :: bs => (start, b) :: Memory.ofBytesFrom (start + 1) bs

/-- The file that holds a byte sequence. -/
def Memory.ofBytes (bytes : List Byte) : Memory := Memory.ofBytesFrom 0 bytes

/-- A file's byte sequence. -/
def Memory.bytes (m : Memory) : List Byte := m.map Prod.snd

/-- The byte at an offset; none beyond the file's end. -/
def Memory.read (m : Memory) (a : Nat) : Option Byte := (m.find? fun c => c.1 == a).map Prod.snd

/-- INF[pos..pos+n) (20 R66). -/
def Memory.slice (m : Memory) (pos n : Nat) : List Byte := Memory.bytes ((m.drop pos).take n)

/-- OUTF ++ V (20 R67). -/
def Memory.append (m : Memory) (v : List Byte) : Memory := m ++ Memory.ofBytesFrom m.length v

/-- OUTF[0..L) (20 R68). -/
def Memory.truncate (m : Memory) (l : Nat) : Memory := m.take l

/-! ## Named updates -/

/-- KEY, KEYV and KDIDX (10 R22 to R24). -/
def setKey (k : Key) (keyv : BitVec 8) (kdidx : Fin 16) (s : State) : State :=
  { s with key := k, keyv := keyv, kdidx := kdidx }

/-- CMDERR (10 R27). -/
def setCmderr (c : ErrorCode) (s : State) : State := { s with cmderr := c }

/-- CFLAGS.CANCEL_REQ <- 1 (10 R30). -/
def requestCancel (s : State) : State := { s with cflags := { s.cflags with cancelReq := true } }

/-- BLK (10 R31). -/
def setBlk (b : Block) (s : State) : State := { s with blk := b }

/-- CHAIN (10 R32). -/
def setChain (c : Block) (s : State) : State := { s with chain := c }

/-- SK and CFG (10 R25, R33). -/
def setSchedule (z : Schedule) (c : Cfg) (s : State) : State := { s with sk := z, cfg := c }

/-- DATA_LEN and OUT_LEN (10 R35, R36). -/
def setDataLen (dataLen outLen : Len) (s : State) : State := { s with dataLen := dataLen, outLen := outLen }

/-- FINAL_SIZE (10 R39). -/
def setFinalSize (v : Len) (s : State) : State := { s with finalSize := v }

/-- OUTF (20 R64). -/
def setOutput (m : Memory) (s : State) : State := { s with outf := m }

/-- The operations of the interleaving still to come (log 2). -/
def setAgenda (as : List Action) (s : State) : State := { s with agenda := as }

/-- The read port's answer (log 13). -/
def setReply (r : Word) (s : State) : State := { s with reply := some r }

/-! ## Events and errors -/

/-- `emit(e)` (45 R257). -/
def emit (e : Event) (s : State) : State := { s with evt := e, evtseq := s.evtseq + 1 }

/-- `raise CmdError(code)`: the first error since reset or ERRCLR is kept, and the command has no other effect (60 R302). -/
def raiseCmd (code : ErrorCode) (s : State) : State :=
  setCmderr (if s.cmderr = .none then code else s.cmderr) s

/-- `codec_fail(code)`: the run ends FAILED; the writes made before stay (60 R304). -/
def codecFail (code : ErrorCode) (s : State) : State := emit .failed { s with cph := .failed, cres := code }

/-- The Busy check of every command but NOP, RESET, ERRCLR and CANCEL (60 R303, R307). -/
def whenReady (s : State) (k : State → Result) : Result :=
  if s.busy then .next (raiseCmd .busy s) else k s

/-- A command's own check: unless it holds, the command fails with `code` (60 R305, R306). -/
def require (ok : Bool) (code : ErrorCode) (s : State) (k : State → Result) : Result :=
  if ok then k s else .next (raiseCmd code s)

/-! ## The environment -/

/-- CHUNK_BYTES: a positive multiple of 8 (00 R9; log 6). -/
def State.chunkBytes (s : State) : Nat := 8 * (s.chunkBlocks + 1)

/-- The byte of the chunk buffer at an offset (20 R85; log 7). -/
def bufferByte (b : ChunkBuffer) (i : Nat) : Byte := b.filled.getD i (Config.bufferContent b.resets i)

/-- The bytes of the chunk buffer, CHUNK_BYTES of them in every state (20 R85). -/
def chunkContent (s : State) : List Byte := (List.range s.chunkBytes).map (bufferByte s.chunkBuf)

/-- The chunk buffer once its first bytes have been written over; the others stay (20 R85). -/
def writeBuffer (bytes : List Byte) (b : ChunkBuffer) : ChunkBuffer :=
  { b with filled := bytes ++ b.filled.drop bytes.length }

/-- The IO oracle's next answer (00 R9, D19): the script's, or the free value where nothing is scripted (log 3). -/
def ioAnswer (s : State) : Bool :=
  match s.ioScript with
  | answer :: _ => answer
  | [] => Config.ioOracle s.draws

/-- The state once the IO oracle has given its answer. -/
def afterIo (s : State) : State :=
  { s with ioScript := s.ioScript.tail, draws := if s.ioScript = [] then s.draws + 1 else s.draws }

/-- "OUTF holds any value afterwards" (20 R67 to R69, R87; log 5). -/
def loseOutput (s : State) : State :=
  { s with outf := Memory.ofBytes (Config.fileAfterIoFailure s.draws), draws := s.draws + 1 }

/-- IN_LEN <- |INF| and OUTF <- the empty sequence (20 R69). -/
def opened (s : State) : State := { s with inLen := BitVec.ofNat 64 s.inf.length, outf := [] }

/-- A failed primitive: the answer is taken, the run fails, and OUTF holds any value (20 R66 to R69, R87; log 5). -/
def ioFailure (s : State) : Result := .next (codecFail .ioFailure (loseOutput (afterIo s)))

/-- `InRead(pos, n)` (20 R66): on success `k` gets INF[pos..pos+n); on failure the step ends with IOFailure, nothing is
returned, and OUTF holds any value as after every IOFailure (20 R87; log 5). Bytes that are not in INF are a fault (log 11). -/
def inRead (pos n : Nat) (s : State) (k : List Byte → State → Result) : Result :=
  if pos + n ≤ s.inf.length then
    if ioAnswer s then k (Memory.slice s.inf pos n) (afterIo s) else ioFailure s
  else .fault .inReadOutsideFile

/-- `OutAppend(V)` (20 R67). -/
def outAppend (v : List Byte) (s : State) (k : State → Result) : Result :=
  if ioAnswer s then k (setOutput (Memory.append s.outf v) (afterIo s)) else ioFailure s

/-- `OutTruncate(L)` (20 R68), for L ≤ |OUTF|; a longer L is a fault (log 11). -/
def outTruncate (l : Nat) (s : State) (k : State → Result) : Result :=
  if l ≤ s.outf.length then
    if ioAnswer s then k (setOutput (Memory.truncate s.outf l) (afterIo s)) else ioFailure s
  else .fault .truncateBeyondFile

/-- `OpenFiles()` (20 R69): on success IN_LEN is INF's length and OUTF is empty. A binding that names no openable file is an
IOFailure (20 R65, 70 R342; log 10). A file outside the length registers is refused (U13; log 9). -/
def openFiles (s : State) (k : State → Result) : Result :=
  if s.bound = false then .next (codecFail .ioFailure (loseOutput s))
  else if s.inf.length < Config.fileLimit then
    if ioAnswer s then k (opened (afterIo s)) else ioFailure s
  else .refused .fileOverLengthRegisters

/-! ## Reset -/

/-- Every register of the register space to its reset value (70 R341, 46 R281). The files and their binding are outside the
core (70 R342), the chunk buffer holds any value afterwards (log 7), the environment's fields stay. -/
def resetRegisters (s : State) : State :=
  { State.reset with
    chunkBuf := { filled := [], resets := s.chunkBuf.resets + 1 }
    inf := s.inf
    outf := s.outf
    bound := s.bound
    chunkBlocks := s.chunkBlocks
    agenda := s.agenda
    ioScript := s.ioScript
    draws := s.draws
    reply := s.reply }

/-! ## The register read -/

/-- The 64-bit registers in address order from 0x18, four words each (10 R20). -/
def lengthRegister (s : State) : Nat → Len
  | 0 => s.inLen
  | 1 => s.dataLen
  | 2 => s.outLen
  | 3 => s.doneBytes
  | 4 => s.outPos
  | 5 => s.finalSize
  | _ => s.elapsed

/-- Word `j` of a 64-bit register: j = 0 is bits [63:48] (10 R44). -/
def lengthWord (v : Len) (j : Nat) : Word := v.extractLsb' (48 - 16 * j) 16

/-- `REG[a]`, the word the register space maps at `a` (10 R20); an unmapped address reads 0x0000 (10 R43). -/
def readReg (a : RegAddr) (s : State) : Word :=
  if h : a.toNat < 0x08 then Key.word s.key ⟨a.toNat, h⟩
  else if a.toNat = 0x08 then s.keyv.setWidth 16
  else if a.toNat = 0x09 then BitVec.ofNat 16 s.kdidx.val
  else if a.toNat = 0x0A then Cfg.word s.cfg
  else if a.toNat = 0x0B then s.acc
  else if a.toNat = 0x0C then s.cmderr.code.setWidth 16
  else if a.toNat = 0x0D then s.cph.code.setWidth 16
  else if a.toNat = 0x0E then s.cres.code.setWidth 16
  else if a.toNat = 0x0F then Cflags.word s.cflags
  else if h : a.toNat < 0x14 then Block.word s.blk ⟨a.toNat - 0x10, by omega⟩
  else if h : a.toNat < 0x18 then Block.word s.chain ⟨a.toNat - 0x14, by omega⟩
  else if a.toNat < 0x34 then lengthWord (lengthRegister s ((a.toNat - 0x18) / 4)) ((a.toNat - 0x18) % 4)
  else if a.toNat = 0x34 then s.evt.code.setWidth 16
  else if a.toNat = 0x35 then s.evtseq
  else if a.toNat < 0x40 then 0
  else if h : a.toNat < 0x74 then s.sk[a.toNat - 0x40]
  else 0

end Sys2Proof.Machine
end

