-- ==== Sys2Proof/Machine/Modular.lean ====
section
/-! DEFINITION. The modular arithmetic of IDEA (42 R140 to R144). -/

namespace Sys2Proof.Machine

/-- `mul(a, b)`: multiplication modulo 65537 of the elements the words stand for, the zero word standing for 2^16, so that
mul(0, 0) = 1 (42 R140, C1). -/
def mul (a b : Word) : Word :=
  if a.toNat * b.toNat ≠ 0 then BitVec.ofNat 16 (a.toNat * b.toNat % Config.mulModulus) else 1 - a - b

/-- `add(a, b)` (42 R141). -/
def add (a b : Word) : Word := BitVec.ofNat 16 ((a.toNat + b.toNat) % Config.addModulus)

/-- `addInv(x)` (42 R142). -/
def addInv (x : Word) : Word := BitVec.ofNat 16 ((Config.addModulus - x.toNat) % Config.addModulus)

/-- The loop of 42 R144, two divisions a turn. The remainders at least halve every two turns, so that `fuel` = 32 turns are
more than any word needs (log 15). -/
def mulInvLoop : (fuel x y t0 t1 : Nat) → Nat
  | 0, _, _, t0, _ => t0
  | fuel + 1, x, y, t0, t1 =>
    if y % x = 1 then (Config.mulModulus - (t1 + y / x * t0)) % Config.addModulus
    else if x % (y % x) = 1 then t0 + x / (y % x) * (t1 + y / x * t0)
    else mulInvLoop fuel (x % (y % x)) (y % x) (t0 + x / (y % x) * (t1 + y / x * t0)) (t1 + y / x * t0)

/-- `mulInv(x)`: the word y with mul(x, y) = 1 (42 R143), by the procedure of 42 R144. -/
def mulInv (x : Word) : Word :=
  if x.toNat ≤ 1 then x else BitVec.ofNat 16 (mulInvLoop 32 x.toNat Config.mulModulus 1 0)

end Sys2Proof.Machine
end

