-- ==== Sys2Proof/Machine/Arith.lean ====
section
/-! DEFINITION. The accumulator commands (42 R146 to R150). -/

namespace Sys2Proof.Machine

/-- ACC <- v, the one write every command of this family makes (10 R26). -/
def setAcc (v : Word) (s : State) : State := { s with acc := v }

/-- ACCLD v (42 R146). -/
def execAccld (v : Word) (s : State) : Result := whenReady s fun s => .next (setAcc v s)

/-- MULI v (42 R147). -/
def execMuli (v : Word) (s : State) : Result := whenReady s fun s => .next (setAcc (mul s.acc v) s)

/-- ADDI v (42 R148). -/
def execAddi (v : Word) (s : State) : Result := whenReady s fun s => .next (setAcc (add s.acc v) s)

/-- MULINV (42 R149). -/
def execMulinv (s : State) : Result := whenReady s fun s => .next (setAcc (mulInv s.acc) s)

/-- ADDINV (42 R150). -/
def execAddinv (s : State) : Result := whenReady s fun s => .next (setAcc (addInv s.acc) s)

end Sys2Proof.Machine
end

