-- ==== Sys2Proof/Machine/Cipher.lean ====
section
/-! DEFINITION. The key schedule, its inversion, the block transform and their commands (43 R170 to R183). -/

namespace Sys2Proof.Machine

/-! ## Schedules -/

/-- The 128-bit key register rotated left by 25 bits (43 R170). -/
def rotate25 (k : BitVec 128) : BitVec 128 := (k <<< 25) ||| (k >>> 103)

/-- The key register after `g` rotations (43 R170). -/
def rotatedKey (k : BitVec 128) : Nat → BitVec 128
  | 0 => k
  | g + 1 => rotate25 (rotatedKey k g)

/-- Word `j` of the key register, j = 0 the most significant (43 R170). -/
def registerWord (k : BitVec 128) (j : Nat) : Word := k.extractLsb' (16 * (7 - j)) 16

/-- `gen_schedule(KEY)` (43 R170): word i is word (i mod 8) of the register after i / 8 rotations. -/
def genSchedule (k : Key) : Schedule :=
  Vector.ofFn fun i : Fin 52 => registerWord (rotatedKey (Key.register k) (i.val / 8)) (i.val % 8)

/-- `invert_schedule(Z)` (43 R173), word i being position j = i mod 6 of round group g = i / 6 (g = 8: the output
transform). The multiplicative subkeys of group 8 − g are inverted; so are its additive subkeys, which change places in
groups 1 to 7; the MA subkeys of group 7 − g are carried over. -/
def invertSchedule (z : Schedule) : Schedule :=
  Vector.ofFn fun i : Fin 52 =>
    have hi : i.val < 52 := i.isLt
    if h0 : i.val % 6 = 0 ∨ i.val % 6 = 3 then mulInv (z[6 * (8 - i.val / 6) + i.val % 6]'(by omega))
    else if h1 : i.val % 6 = 1 ∨ i.val % 6 = 2 then
      if 1 ≤ i.val / 6 ∧ i.val / 6 ≤ 7 then addInv (z[6 * (8 - i.val / 6) + (3 - i.val % 6)]'(by omega))
      else addInv (z[6 * (8 - i.val / 6) + i.val % 6]'(by omega))
    else z[6 * (7 - i.val / 6) + i.val % 6]'(by omega)

/-! ## The block transform -/

/-- The four words x1 to x4 of a block (43 R175). -/
structure Quad where
  x1 : Word
  x2 : Word
  x3 : Word
  x4 : Word
deriving DecidableEq, Repr

/-- The words of a block (43 R175). -/
def Quad.ofBlock (b : Block) : Quad where
  x1 := Block.word b 0
  x2 := Block.word b 1
  x3 := Block.word b 2
  x4 := Block.word b 3

/-- One round of 43 R176 under the six subkeys of its round group: key mixing, MA structure, recombination. -/
def ideaRound (z0 z1 z2 z3 z4 z5 : Word) (x : Quad) : Quad :=
  let y1 := mul x.x1 z0
  let y2 := add x.x2 z1
  let y3 := add x.x3 z2
  let y4 := mul x.x4 z3
  let y7 := mul (y1 ^^^ y3) z4
  let y8 := add (y2 ^^^ y4) y7
  let y9 := mul y8 z5
  let y10 := add y7 y9
  { x1 := y1 ^^^ y9, x2 := y3 ^^^ y9, x3 := y2 ^^^ y10, x4 := y4 ^^^ y10 }

/-- Round r + 1 under schedule Z (43 R172, R176). -/
def scheduledRound (z : Schedule) (x : Quad) (r : Fin 8) : Quad :=
  have hr : r.val < 8 := r.isLt
  ideaRound z[6 * r.val] z[6 * r.val + 1] z[6 * r.val + 2] z[6 * r.val + 3] z[6 * r.val + 4] z[6 * r.val + 5] x

/-- The eight rounds of 43 R176, p = 0, 6, …, 42. -/
def eightRounds (z : Schedule) (x : Quad) : Quad :=
  [0, 1, 2, 3, 4, 5, 6, 7].foldl (scheduledRound z) x

/-- The output transform, which takes x3 before x2 (43 R176, R178). -/
def outputTransform (z : Schedule) (x : Quad) : Block :=
  Block.ofWords (mul x.x1 z[48]) (add x.x3 z[49]) (add x.x2 z[50]) (mul x.x4 z[51])

/-- `crypt_block(B, Z)` (43 R176). -/
def cryptBlock (b : Block) (z : Schedule) : Block := outputTransform z (eightRounds z (Quad.ofBlock b))

/-! ## Commands -/

/-- SCHEDGEN (43 R180). -/
def execSchedgen (s : State) : Result :=
  whenReady s fun s => require s.keyComplete .invalidKeySize s fun s =>
    .next (setSchedule (genSchedule s.key) { s.cfg with skdir := .enc, skv := true } s)

/-- SCHEDINV (43 R181). -/
def execSchedinv (s : State) : Result :=
  whenReady s fun s => require s.scheduleLoaded .unconfigured s fun s =>
    .next (setSchedule (invertSchedule s.sk) { s.cfg with skdir := flipDir s.cfg.skdir } s)

/-- CRYPT (43 R182). -/
def execCrypt (s : State) : Result :=
  whenReady s fun s => require s.scheduleLoaded .unconfigured s fun s =>
    .next (setBlk (cryptBlock s.blk s.sk) s)

/-- BLKLDW i, v (43 R183). A term whose IDX[2] is 1 stands for an illegal word and fails as one, before the Busy check
(30 R99, 60 R307; log 12). -/
def execBlkldw (i : BitVec 3) (v : Word) (s : State) : Result :=
  if h : i.toNat < 4 then whenReady s fun s => .next (setBlk (Block.setWord s.blk ⟨i.toNat, h⟩ v) s)
  else .next (raiseCmd .illegalCommand s)

end Sys2Proof.Machine
end

