-- ==== Sys2Proof/Machine/KeyDerivation.lean ====
section
/-! DEFINITION. Key derivation (41 R120 to R127). -/

namespace Sys2Proof.Machine

/-- The fold of `derive`: passphrase byte `i` onwards is XORed into the output at i mod size (41 R120). -/
def deriveFrom {size : Nat} [NeZero size] : (i : Nat) → List Byte → Vector Byte size → Vector Byte size
  | _, [], out => out
  | i, b :: bs, out =>
    have h : i % size < size := Nat.mod_lt _ (Nat.pos_of_ne_zero (NeZero.ne size))
    deriveFrom (i + 1) bs (out.set (i % size) (out[i % size] ^^^ b))

/-- `derive(P, size)` (41 R120): starts zero-filled, each byte XORed cyclically. -/
def derive (size : Nat) [NeZero size] (p : List Byte) : Vector Byte size :=
  deriveFrom 0 p (Vector.replicate size 0)

/-- `iv_of(KEY)`: the key-derived IV (41 R126, D7). -/
def ivOf (k : Key) : Block :=
  Vector.ofFn fun i : Fin 8 => k[i.val] ^^^ k[i.val + 8]

/-- KDCLR (41 R121). -/
def execKdclr (s : State) : Result :=
  whenReady s fun s => .next (setKey Key.zero 0xFF 0 s)

/-- KDBYTE b (41 R122): KDIDX wraps modulo 16, KEYV is unchanged (D33). -/
def execKdbyte (b : Byte) (s : State) : Result :=
  whenReady s fun s => .next (setKey (s.key.set s.kdidx (s.key[s.kdidx] ^^^ b)) s.keyv (s.kdidx + 1) s)

/-- KEYLDW i, v (41 R125): KDIDX is unchanged. -/
def execKeyldw (i : BitVec 3) (v : Word) (s : State) : Result :=
  whenReady s fun s => .next (setKey (Key.setWord s.key i v) (setKeyvBit s.keyv i) s.kdidx s)

end Sys2Proof.Machine
end

