-- ==== Sys2Proof/Machine/Modes.lean ====
section
/-! DEFINITION. The modes of operation (44 R200 to R212). -/

namespace Sys2Proof.Machine

/-- Which schedule a mode uses (44 R200): the inversion for ECB and CBC decryption, the encryption schedule otherwise. -/
def scheduleDir (d : Dir) (m : Mode) : Dir :=
  match m with
  | .ecb => d
  | .cbc => d
  | .cfb => .enc
  | .ofb => .enc

/-- The schedule MODEINIT loads (44 R201). -/
def modeSchedule (d : Dir) (m : Mode) (k : Key) : Schedule :=
  match scheduleDir d m with
  | .enc => genSchedule k
  | .dec => invertSchedule (genSchedule k)

/-- What MODEINIT d, m does after its key check (44 R201); CSTART does exactly the same (45 R234). -/
def loadMode (d : Dir) (m : Mode) (s : State) : State :=
  setChain (ivOf s.key) (setSchedule (modeSchedule d m s.key)
    { mode := m, dir := d, modev := true, skdir := scheduleDir d m, skv := true } s)

/-- `mode_xform(B)` (44 R203) as a function of the mode, the direction, SK, CHAIN and the block: the output block and the
new CHAIN. -/
def modeXform (m : Mode) (d : Dir) (sk : Schedule) (chain b : Block) : Block × Block :=
  match m, d with
  -- R204: CHAIN is not read and not written
  | .ecb, _ => (cryptBlock b sk, chain)
  -- R205
  | .cbc, .enc => (cryptBlock (Block.xor b chain) sk, cryptBlock (Block.xor b chain) sk)
  -- R206: the incoming block is saved as the new CHAIN
  | .cbc, .dec => (Block.xor (cryptBlock b sk) chain, b)
  -- R207: the output block feeds back
  | .cfb, .enc => (Block.xor b (cryptBlock chain sk), Block.xor b (cryptBlock chain sk))
  -- R208: the input block feeds back
  | .cfb, .dec => (Block.xor b (cryptBlock chain sk), b)
  -- R209: the feedback does not depend on the data
  | .ofb, _ => (Block.xor b (cryptBlock chain sk), cryptBlock chain sk)

/-- Blocks transformed one at a time in stream order (44 R211), with the CHAIN each leaves to the next. -/
def transformBlocks (m : Mode) (d : Dir) (sk : Schedule) : (chain : Block) → List Block → List Block × Block
  | chain, [] => ([], chain)
  | chain, b :: bs =>
    let r := modeXform m d sk chain b
    let t := transformBlocks m d sk r.2 bs
    (r.1 :: t.1, t.2)

/-- One block through the configured mode: the output block and the new CHAIN (44 R203). -/
def runXform (b : Block) (s : State) : Block × Block := modeXform s.cfg.mode s.cfg.dir s.sk s.chain b

/-- MODEINIT d, m (44 R201). -/
def execModeinit (d : Dir) (m : Mode) (s : State) : Result :=
  whenReady s fun s => require s.keyComplete .invalidKeySize s fun s => .next (loadMode d m s)

/-- XFORM (44 R210). -/
def execXform (s : State) : Result :=
  whenReady s fun s => require s.modeLoaded .unconfigured s fun s =>
    .next (setChain (runXform s.blk s).2 (setBlk (runXform s.blk s).1 s))

end Sys2Proof.Machine
end

