-- ==== Sys2Proof/Machine/Codec.lean ====
section
/-! DEFINITION. The length suffix, CSTART and the codec sequencer's steps (45_codec.md). -/

namespace Sys2Proof.Machine

/-! ## The length suffix -/

/-- `pack_len(n)` (45 R240): the length in bits [47:3] of the 64-bit big-endian value. -/
def packLen (n : Nat) : Block := Block.ofBe64 (BitVec.ofNat 64 n <<< 3)

/-- `unpack_len(B)` (45 R241); none is the −1 sentinel. -/
def unpackLen (b : Block) : Option Nat :=
  if b[0] ≠ 0 ∨ b[1] ≠ 0 ∨ b[7] &&& 0x07 ≠ 0 then none else some (Block.be64 b >>> 3).toNat

/-- The accepted lengths: 0 ≤ L ≤ DATA_LEN and L ≥ DATA_LEN − 8 + 1 (45 R250). -/
def lengthAccepted (l dataLen : Nat) : Bool := l ≤ dataLen && dataLen + 1 ≤ l + 8

/-! ## CSTART -/

/-- CSTART's first action (45 R232). -/
def clearRun (d : Dir) (m : Mode) (s : State) : State :=
  { s with
    inLen := 0, dataLen := 0, outLen := 0, doneBytes := 0, outPos := 0, finalSize := 0, elapsed := 0
    cres := .none
    cflags := { cancelReq := false, cdir := d, cmode := m } }

/-- CPH <- RUNNING; emit(STARTED) (45 R237). -/
def startRun (s : State) : State := emit .started { s with cph := .running }

/-- Step 3, the lengths (45 R235, R236), and the start (45 R237). -/
def setLengths (d : Dir) (s : State) : Result :=
  match d with
  | .enc => .next (startRun (setDataLen s.inLen (BitVec.ofNat 64 (roundup8 s.inLen.toNat)) s))
  | .dec =>
    if s.inLen.toNat = 0 then .next (codecFail .emptyInput s)
    else if s.inLen.toNat % 8 ≠ 0 then .next (codecFail .unalignedInput s)
    else .next (startRun (setDataLen (s.inLen - 8) (s.inLen - 8) s))

/-- CSTART d, m (45 R231): clear the run registers, open the files, check the key and construct the mode, set the lengths
and start; each failure is the run's outcome (60 R308). -/
def execCstart (d : Dir) (m : Mode) (s : State) : Result :=
  whenReady s fun s => openFiles (clearRun d m s) fun s =>
    if s.keyComplete then setLengths d (loadMode d m s) else .next (codecFail .invalidKeySize s)

/-! ## The sequencer's steps -/

/-- `succeed()` (45 R252): ELAPSED is drawn from the TIME oracle (log 4). -/
def succeed (s : State) : State :=
  emit .succeeded
    { s with elapsed := Config.timeOracle s.draws, draws := s.draws + 1, cph := .succeeded, cres := .none }

/-- `cancel_step()` (45 R243). -/
def cancelStep (s : State) : State := emit .cancelled { s with cph := .cancelled, cres := .cancelled }

/-- n, the bytes of the next chunk (45 R244). -/
def chunkCount (s : State) : Nat := min s.chunkBytes (s.dataLen.toNat - s.doneBytes.toNat)

/-- w, the bytes a chunk step of n bytes writes (45 R244, R246; log 18). -/
def writeCount (n : Nat) (s : State) : Nat := min (roundup8 n) (s.outLen.toNat - s.outPos.toNat)

/-- The chunk's bytes, zero-padded and transformed in stream order, and the CHAIN they leave (44 R211, 45 R244, R245). -/
def chunkTransform (bytes : List Byte) (s : State) : List Block × Block :=
  transformBlocks s.cfg.mode s.cfg.dir s.sk s.chain (blocksOf (padBlocks bytes))

/-- The chunk buffer and CHAIN after the transform of a chunk; the buffer beyond the chunk keeps its content (20 R85;
log 7). -/
def loadChunk (bytes : List Byte) (s : State) : State :=
  { s with
    chain := (chunkTransform bytes s).2
    chunkBuf := writeBuffer (bytesOf (chunkTransform bytes s).1) s.chunkBuf }

/-- OUT_POS and DONE_BYTES after a chunk of n bytes read and w written, and the PROGRESS event (45 R244, R247). -/
def advance (n w : Nat) (s : State) : State :=
  emit .progress
    { s with outPos := s.outPos + BitVec.ofNat 64 w, doneBytes := s.doneBytes + BitVec.ofNat 64 n }

/-- `chunk_step()` (45 R244). -/
def chunkStep (s : State) : Result :=
  inRead s.doneBytes.toNat (chunkCount s) s fun bytes s1 =>
    outAppend ((bytesOf (chunkTransform bytes s1).1).take (writeCount (chunkCount s) s)) (loadChunk bytes s1) fun s2 =>
      .next (advance (chunkCount s) (writeCount (chunkCount s) s) s2)

/-- OUT_POS and FINAL_SIZE once the suffix block is written (45 R248). -/
def countSuffix (s : State) : State := { s with outPos := s.outPos + 8, finalSize := s.outPos + 8 }

/-- `suffix_step_enc()` (45 R248). -/
def suffixStepEnc (s : State) : Result :=
  if s.inLen.toNat > Config.maxPlainLen then .next (codecFail .fileTooLarge s)
  else
    outAppend (runXform (packLen s.inLen.toNat) s).1.toList (setChain (runXform (packLen s.inLen.toNat) s).2 s)
      fun s1 => .next (succeed (countSuffix s1))

/-- The end of `suffix_step_dec()` once the length is recovered (45 R249 to R251). -/
def finishDecrypt (l : Nat) (s : State) : Result :=
  if lengthAccepted l s.dataLen.toNat then
    if l < s.outLen.toNat then
      outTruncate l s fun s1 => .next (succeed (setFinalSize (BitVec.ofNat 64 l) s1))
    else .next (succeed (setFinalSize (BitVec.ofNat 64 l) s))
  else .next (codecFail .malformedCryptogram s)

/-- The block of eight bytes a read returned. -/
def blockOfBytes (bytes : List Byte) : Block := (blocksOf bytes).headD Block.zero

/-- What the decrypt suffix step does with the trailing block once it is read (45 R249). -/
def checkSuffix (b : Block) (s : State) : Result :=
  match unpackLen (runXform b s).1 with
  | none => .next (codecFail .malformedCryptogram (setChain (runXform b s).2 s))
  | some l => finishDecrypt l (setChain (runXform b s).2 s)

/-- `suffix_step_dec()` (45 R249). -/
def suffixStepDec (s : State) : Result :=
  inRead s.dataLen.toNat 8 s fun bytes s1 => checkSuffix (blockOfBytes bytes) s1

/-- `seq_step()` (45 R242), for a state with CPH = RUNNING. -/
def seqStep (s : State) : Result :=
  if s.cflags.cancelReq then .next (cancelStep s)
  else if s.doneBytes.toNat < s.dataLen.toNat then chunkStep s
  else if s.cflags.cdir = .enc then suffixStepEnc s
  else suffixStepDec s

end Sys2Proof.Machine
end

