-- ==== Sys2Proof/Machine/Control.lean ====
section
/-! DEFINITION. The control commands (46 R280 to R283), the only ones accepted while CPH = RUNNING (60 R303). -/

namespace Sys2Proof.Machine

/-- NOP (46 R280). -/
def execNop (s : State) : Result := .next s

/-- RESET (46 R281): a run in progress is abandoned, no event is posted (70 R343). -/
def execReset (s : State) : Result := .next (resetRegisters s)

/-- ERRCLR (46 R282). -/
def execErrclr (s : State) : Result := .next (setCmderr .none s)

/-- CANCEL (46 R283): a request the next sequencer step sees; nothing when no run is in progress. -/
def execCancel (s : State) : Result :=
  if s.busy then .next (requestCancel s) else .next s

end Sys2Proof.Machine
end

