-- ==== Sys2Proof/Machine/Dispatch.lean ====
section
/-! DEFINITION. One arm per command (30 R97). -/

namespace Sys2Proof.Machine

def exec (i : Instr) (s : State) : Host.Outcome State Fault Refusal :=
  match i with
  | .nop => Sys2Proof.Machine.execNop s
  | .reset => Sys2Proof.Machine.execReset s
  | .errclr => Sys2Proof.Machine.execErrclr s
  | .cancel => Sys2Proof.Machine.execCancel s
  | .kdclr => Sys2Proof.Machine.execKdclr s
  | .kdbyte b => Sys2Proof.Machine.execKdbyte b s
  | .keyldw n v => Sys2Proof.Machine.execKeyldw n v s
  | .schedgen => Sys2Proof.Machine.execSchedgen s
  | .schedinv => Sys2Proof.Machine.execSchedinv s
  | .crypt => Sys2Proof.Machine.execCrypt s
  | .blkldw n v => Sys2Proof.Machine.execBlkldw n v s
  | .modeinit d m => Sys2Proof.Machine.execModeinit d m s
  | .xform => Sys2Proof.Machine.execXform s
  | .accld v => Sys2Proof.Machine.execAccld v s
  | .muli v => Sys2Proof.Machine.execMuli v s
  | .addi v => Sys2Proof.Machine.execAddi v s
  | .mulinv => Sys2Proof.Machine.execMulinv s
  | .addinv => Sys2Proof.Machine.execAddinv s
  | .cstart d m => Sys2Proof.Machine.execCstart d m s

end Sys2Proof.Machine
end

