-- ==== Sys2Proof/Machine/Port.lean ====
section
/-! DEFINITION. What each operation of the interleaving does (20 R79): the command port (20 R62), the register read port
(46 R284), the sequencer's turn (45 R242), the host's binding of the files (20 R65) and the reset input (70 R340). -/

namespace Sys2Proof.Machine

/-- A command word on the port: decoded, then executed; an illegal word fails with IllegalCommand before any other check
(30 R90, R98, 60 R307). -/
def runCommand (w : CmdWord) (s : State) : Result :=
  match decode w with
  | .ok i => exec i s
  | .error _ => .next (raiseCmd .illegalCommand s)

/-- RD a (46 R284): the port answers REG[a]; no register and no file changes. -/
def runRead (a : RegAddr) (s : State) : Result := .next (setReply (readReg a s) s)

/-- A turn of the sequencer: a step when one is enabled, exactly when CPH = RUNNING (45 R242); else nothing (log 2). -/
def runSequencer (s : State) : Result := if s.busy then seqStep s else .next s

/-- The two files bound (20 R65). -/
def bindFiles (input output : List Byte) (s : State) : State :=
  { s with inf := Memory.ofBytes input, outf := Memory.ofBytes output, bound := true }

/-- No openable file bound (20 R65). -/
def unbindFiles (s : State) : State := { s with bound := false }

/-- BIND (20 R65, 30 R102); during a run it breaks the host's duty (20 R84; log 8). -/
def runBind (input output : List Byte) (s : State) : Result :=
  if s.busy then .refused .hostDutyBroken
  else .next (bindFiles input output s)

/-- A binding that names no openable file (20 R65, D41); during a run it breaks the host's duty (log 8). -/
def runUnbind (s : State) : Result :=
  if s.busy then .refused .hostDutyBroken else .next (unbindFiles s)

/-- The reset input has RESET's effect (70 R340; log 16). -/
def runResetInput (s : State) : Result := .next (resetRegisters s)

/-- One atomic operation of the interleaving (20 R79). -/
def runAction (a : Action) (s : State) : Result :=
  match a with
  | .command w => runCommand w s
  | .read a => runRead a s
  | .sequencer => runSequencer s
  | .bind input output => runBind input output s
  | .unbind => runUnbind s
  | .resetInput => runResetInput s

/-- The next operation of the interleaving, taken off the agenda; with none waiting, the sequencer takes an enabled step,
and else the core waits (45 R242, 60 R320; log 1, log 2). -/
def nextOperation (s : State) : Result :=
  match s.agenda with
  | [] => runSequencer s
  | a :: rest => runAction a (setAgenda rest s)

end Sys2Proof.Machine
end

