-- ==== Sys2Proof/Machine/Step.lean ====
section
/-! DEFINITION. One atomic step of the core and its environment (20 R79). -/

namespace Sys2Proof.Machine

/-- One step: the next operation of the interleaving. -/
def step (s : State) : Host.Outcome State Fault Refusal := nextOperation s

/-- The state with a command word of the opcode table first on the command port, so that the next step runs it. The core
fetches nothing (20 R83): commands arrive on the port (log 1). -/
def State.withFetchWord (s : State) (nbits w : Nat) : State :=
  setAgenda (.command (tableWord nbits w) :: s.agenda) s

end Sys2Proof.Machine
end

