-- ==== Sys2Proof/Machine/Assembler.lean ====
section
/-! DEFINITION. The assembler syntax (30 R102) and the pseudo-instructions (30 R103, 46 R285). -/

namespace Sys2Proof.Machine

/-- `ENC` or `DEC` (30 R102). -/
def dirText : Dir → String
  | .enc => "ENC"
  | .dec => "DEC"

/-- `ECB`, `CBC`, `CFB` or `OFB` (30 R102). -/
def modeText : Mode → String
  | .ecb => "ECB"
  | .cbc => "CBC"
  | .cfb => "CFB"
  | .ofb => "OFB"

/-- A command's mnemonic as the opcode map spells it (30 R97). -/
def mnemonicText : Mnemonic → String
  | .nop => "NOP"
  | .reset => "RESET"
  | .errclr => "ERRCLR"
  | .cancel => "CANCEL"
  | .kdclr => "KDCLR"
  | .kdbyte => "KDBYTE"
  | .keyldw => "KEYLDW"
  | .schedgen => "SCHEDGEN"
  | .schedinv => "SCHEDINV"
  | .crypt => "CRYPT"
  | .blkldw => "BLKLDW"
  | .modeinit => "MODEINIT"
  | .xform => "XFORM"
  | .accld => "ACCLD"
  | .muli => "MULI"
  | .addi => "ADDI"
  | .mulinv => "MULINV"
  | .addinv => "ADDINV"
  | .cstart => "CSTART"

/-- A command's operands as the syntax writes them, numbers in decimal (30 R102; log 22). -/
def operandText : Instr → List String
  | .nop => []
  | .reset => []
  | .errclr => []
  | .cancel => []
  | .kdclr => []
  | .kdbyte b => [toString b.toNat]
  | .keyldw i v => [toString i.toNat, toString v.toNat]
  | .schedgen => []
  | .schedinv => []
  | .crypt => []
  | .blkldw i v => [toString i.toNat, toString v.toNat]
  | .modeinit d m => [dirText d, modeText m]
  | .xform => []
  | .accld v => [toString v.toNat]
  | .muli v => [toString v.toNat]
  | .addi v => [toString v.toNat]
  | .mulinv => []
  | .addinv => []
  | .cstart d m => [dirText d, modeText m]

/-- A command's line of assembly (30 R102). -/
def assemblyText (i : Instr) : String :=
  match operandText i with
  | [] => mnemonicText i.mnemonic
  | operands => mnemonicText i.mnemonic ++ " " ++ String.intercalate ", " operands

/-- `KDSTR "s"`: KDCLR, then one KDBYTE per byte of s in order (30 R103). -/
def kdstr (p : List Byte) : List Instr := .kdclr :: p.map .kdbyte

/-- `KEYLD k`: KEYLDW i, k[127−16i : 112−16i] for i = 0..7 (30 R103). -/
def keyld (k : BitVec 128) : List Instr :=
  [0, 1, 2, 3, 4, 5, 6, 7].map fun i : BitVec 3 => .keyldw i (k.extractLsb' (112 - 16 * i.toNat) 16)

/-- `BLKLD v`: BLKLDW i, v[63−16i : 48−16i] for i = 0..3 (30 R103). -/
def blkld (v : BitVec 64) : List Instr :=
  [0, 1, 2, 3].map fun i : BitVec 3 => .blkldw i (v.extractLsb' (48 - 16 * i.toNat) 16)

/-- `SUBMIT d, m, "p"`: KDSTR "p", then CSTART d, m (30 R103). -/
def submit (d : Dir) (m : Mode) (p : List Byte) : List Instr := kdstr p ++ [.cstart d m]

/-- The host's sequence for the source's `submit`: bind the two files, then SUBMIT (46 R285). -/
def submitActions (input output : List Byte) (d : Dir) (m : Mode) (p : List Byte) : List Action :=
  .bind input output :: (submit d m p).map fun i => .command (encode i)

end Sys2Proof.Machine
end

