-- ==== Sys2Proof/Machine/HostView.lean ====
section
/-! DEFINITION. What the host computes from the registers it reads (46 R284): the direction, the DONE level, the progress
fraction and the terminal outcome. -/

namespace Sys2Proof.Machine

/-- The terminal outcome of a run (46 R284, 60 R314). -/
inductive RunOutcome where
  | success
  | failure (cause : ErrorCode)
  | cancellation
deriving DecidableEq, Repr

/-- `isEncrypting()`: CFG.DIR = 0 (44 R202). -/
def isEncrypting (s : State) : Bool := s.cfg.dir == .enc

/-- The level DONE = (CPH ∈ {2, 3, 4}) (60 R313). -/
def doneLevel (s : State) : Bool := s.cph == .succeeded || s.cph == .failed || s.cph == .cancelled

/-- The progress fraction: DONE_BYTES / DATA_LEN, and for DATA_LEN = 0 the value 1 once SUCCEEDED and 0 before (10 R45,
D16). -/
def progressFraction (s : State) : ℚ :=
  if s.dataLen = 0 then (if s.cph = .succeeded then 1 else 0) else (s.doneBytes.toNat : ℚ) / s.dataLen.toNat

/-- The terminal outcome: success when CPH = 2, failure with code CRES when CPH = 3, cancellation when CPH = 4 (46 R284). -/
def runOutcome (s : State) : Option RunOutcome :=
  match s.cph with
  | .idle => none
  | .running => none
  | .succeeded => some .success
  | .failed => some (.failure s.cres)
  | .cancelled => some .cancellation

end Sys2Proof.Machine
end

