-- ==== Sys2Proof/Safety.lean ====
section
/-! DEFINITION. The terms claims are made in: frames seen through the register read and the read of one file byte, the
invariant of the machine, runs of the sequencer, and the cryptogram file format (45 R253). -/

namespace Sys2Proof.Machine

/-! ## Frames -/

/-- Every word of the register space reads as before, but for the addresses in `written`. -/
def SameRegs (written : RegAddr → Bool) (s t : State) : Prop :=
  ∀ a : RegAddr, written a = false → readReg a t = readReg a s

/-- Every byte of INF and of OUTF reads as before, and the binding stands. -/
def SameFiles (s t : State) : Prop :=
  t.bound = s.bound ∧ (∀ a, Memory.read t.inf a = Memory.read s.inf a) ∧
    (∀ a, Memory.read t.outf a = Memory.read s.outf a)

/-- The environment's inputs and the parameter stand as before. -/
def SameEnv (s t : State) : Prop :=
  t.agenda = s.agenda ∧ t.ioScript = s.ioScript ∧ t.draws = s.draws ∧ t.chunkBlocks = s.chunkBlocks ∧ t.reply = s.reply

/-- Nothing changes but the registers at the addresses in `written`: the frame of a command that only writes registers. -/
def OnlyRegs (written : RegAddr → Bool) (s t : State) : Prop :=
  SameRegs written s t ∧ SameFiles s t ∧ SameEnv s t ∧ t.chunkBuf = s.chunkBuf

/-- No register is in the written set. -/
def noReg (_ : RegAddr) : Bool := false

/-- The addresses of KEYW0..7 (10 R20). -/
def keyRegs (a : RegAddr) : Bool := a.toNat < 0x08

/-- The addresses of BLKW0..3 (10 R20). -/
def blkRegs (a : RegAddr) : Bool := 0x10 ≤ a.toNat && a.toNat < 0x14

/-- The addresses of CHAINW0..3 (10 R20). -/
def chainRegs (a : RegAddr) : Bool := 0x14 ≤ a.toNat && a.toNat < 0x18

/-- The addresses of SK0..SK51 (10 R20). -/
def skRegs (a : RegAddr) : Bool := 0x40 ≤ a.toNat && a.toNat < 0x74

/-- A single register address. -/
def oneReg (n : RegAddr) (a : RegAddr) : Bool := a == n

/-! ## The invariant -/

/-- What holds of the registers while a run is in progress (CPH = RUNNING). -/
structure Running (s : State) : Prop where
  /-- The key was complete at CSTART and cannot change (45 R234, 41 R127). -/
  keyComplete : s.keyv = 0xFF
  /-- The mode of the run is the configured one, and SK holds its schedule (45 R234, R239, 60 R303). -/
  modeLoaded : s.cfg =
    { mode := s.cflags.cmode, dir := s.cflags.cdir, modev := true, skdir := scheduleDir s.cflags.cdir s.cflags.cmode,
      skv := true }
  schedule : s.sk = modeSchedule s.cflags.cdir s.cflags.cmode s.key
  /-- The files are open and IN_LEN is INF's length (20 R63, R69). -/
  bound : s.bound = true
  inLen : s.inLen.toNat = s.inf.length
  /-- DATA_LEN and OUT_LEN are as step 3 set them (45 R235, R236). -/
  dataLenEnc : s.cflags.cdir = .enc → s.dataLen = s.inLen
  dataLenDec : s.cflags.cdir = .dec →
    0 < s.inLen.toNat ∧ s.inLen.toNat % 8 = 0 ∧ s.dataLen.toNat + 8 = s.inLen.toNat
  outLen : s.outLen.toNat = roundup8 s.dataLen.toNat
  /-- OUT_POS is the output file's length (10 R38), and what the chunks so far have filled (45 R246). -/
  outPos : s.outPos.toNat = roundup8 s.doneBytes.toNat
  outFile : s.outf.length = s.outPos.toNat
  /-- A chunk starts at a multiple of CHUNK_BYTES (20 R74). -/
  aligned : s.doneBytes = s.dataLen ∨ s.doneBytes.toNat % s.chunkBytes = 0

/-- CMDERR only ever holds a command-error code (60 R301). -/
def commandErrors : List ErrorCode := [.none, .invalidKeySize, .illegalCommand, .busy, .unconfigured]

/-- CRES after a failure holds one of the run's failure codes (60 R301). -/
def runFailures : List ErrorCode :=
  [.invalidKeySize, .fileTooLarge, .emptyInput, .unalignedInput, .malformedCryptogram, .ioFailure]

/-- CRES agrees with CPH: no code but after a failure or a cancellation (10 R29, 60 R300). -/
def outcomeAgrees (s : State) : Bool :=
  match s.cph with
  | .idle => s.cres == .none
  | .running => s.cres == .none
  | .succeeded => s.cres == .none
  | .failed => runFailures.contains s.cres
  | .cancelled => s.cres == .cancelled

/-- EVT agrees with CPH (45 R257). -/
def eventAgrees (s : State) : Bool :=
  match s.cph with
  | .idle => s.evt == .none
  | .running => s.evt == .started || s.evt == .progress
  | .succeeded => s.evt == .succeeded
  | .failed => s.evt == .failed
  | .cancelled => s.evt == .cancelled

/-- The run registers, CFLAGS and EVTSEQ at their reset values: no run since reset (10 R28). -/
def NoRunYet (s : State) : Prop :=
  s.inLen = 0 ∧ s.dataLen = 0 ∧ s.outLen = 0 ∧ s.doneBytes = 0 ∧ s.outPos = 0 ∧ s.finalSize = 0 ∧ s.elapsed = 0 ∧
    s.cflags = Cflags.reset ∧ s.evtseq = 0

/-- The invariant every step keeps. -/
structure Inv (s : State) : Prop where
  /-- The files are in canonical form (log 14), and the buffer fits CHUNK_BYTES (20 R85). -/
  infWf : Memory.wf s.inf
  outfWf : Memory.wf s.outf
  bufferFits : s.chunkBuf.filled.length ≤ s.chunkBytes
  /-- "0 ≤ DONE_BYTES ≤ DATA_LEN holds in every state" (10 R37). -/
  doneLe : s.doneBytes.toNat ≤ s.dataLen.toNat
  /-- IN_LEN is below 2^63 (00 R9). -/
  inLenBound : s.inLen.toNat < Config.fileLimit
  cmderr : s.cmderr ∈ commandErrors
  outcome : outcomeAgrees s = true
  event : eventAgrees s = true
  idle : s.cph = .idle → NoRunYet s
  /-- FINAL_SIZE and ELAPSED are 0 but after a success (10 R39, R40). -/
  unfinished : s.cph ≠ .succeeded → s.finalSize = 0 ∧ s.elapsed = 0
  /-- CANCEL_REQ is set only while a run is in progress, and the next step ends that run CANCELLED (45 R243, 46 R283). -/
  cancelReq : s.cflags.cancelReq = true → s.cph = .running ∨ s.cph = .cancelled
  /-- A mode has been loaded only together with a schedule (44 R201); before, CFG's fields read their reset values (10 R25,
  44 R202). -/
  modeNeedsSchedule : s.cfg.modev = true → s.cfg.skv = true
  noMode : s.cfg.modev = false → s.cfg.mode = .ecb ∧ s.cfg.dir = .enc
  noSchedule : s.cfg.skv = false → s.cfg.skdir = .enc ∧ s.sk = Vector.replicate 52 0
  running : s.cph = .running → Running s

/-! ## Runs -/

/-- One operation after another, stopping at the first that gives no next state. -/
def andThen (r : Result) (k : State → Result) : Result :=
  match r with
  | .next s => k s
  | .fault f => .fault f
  | .refused x => .refused x

/-- `k` turns of the sequencer, nothing else happening in between (45 R242). -/
def seqRun : (k : Nat) → State → Result
  | 0, s => .next s
  | k + 1, s => andThen (runSequencer s) (seqRun k)

/-- A sequence of commands, each executed completely before the next (20 R62). -/
def execAll : List Instr → State → Result
  | [], s => .next s
  | i :: is, s => andThen (exec i s) (execAll is)

/-- A file operation: CSTART d, m, then `k` turns of the sequencer (45 R230). -/
def codecRun (d : Dir) (m : Mode) (k : Nat) (s : State) : Result := andThen (exec (.cstart d m) s) (seqRun k)

/-- The IO oracle's next `n` answers are successes (20 R66 to R69). -/
def ioSucceeds : (n : Nat) → State → Prop
  | 0, _ => True
  | n + 1, s => ioAnswer s = true ∧ ioSucceeds n (afterIo s)

/-- ceil(n / CHUNK_BYTES), the chunk steps of a run over n data bytes (45 R256). -/
def chunkSteps (s : State) (n : Nat) : Nat := (n + (s.chunkBytes - 1)) / s.chunkBytes

/-! ## The file format -/

/-- The file a successful encrypt leaves (45 R253): the transformed data blocks, then the transform of the length suffix in
the same chain. -/
def cryptogram (m : Mode) (k : Key) (plain : List Byte) : List Byte :=
  bytesOf (transformBlocks m .enc (modeSchedule .enc m k) (ivOf k)
    (blocksOf (padBlocks plain) ++ [packLen plain.length])).1

/-- The blocks a decrypt of a cryptogram file gives, suffix included (45 R244, R249). -/
def decryptedBlocks (m : Mode) (k : Key) (file : List Byte) : List Block :=
  (transformBlocks m .dec (modeSchedule .dec m k) (ivOf k) (blocksOf file)).1

/-- The file a decrypt leaves, or none for MalformedCryptogram (45 R249 to R251). -/
def plaintextOf (m : Mode) (k : Key) (file : List Byte) : Option (List Byte) :=
  match unpackLen ((decryptedBlocks m k file).getLastD Block.zero) with
  | none => none
  | some l =>
    if lengthAccepted l (file.length - 8) then some ((bytesOf (decryptedBlocks m k file)).take l) else none

/-! ## Arithmetic -/

/-- The element of the multiplicative group modulo 65537 that a word stands for: the zero word is 2^16 (42 R140). -/
def groupElement (x : Word) : Nat := if x = 0 then 65536 else x.toNat

end Sys2Proof.Machine
end

