-- ==== Sys2Proof/Certificates/Slice0/Obligations.lean ====
section
/-! DEFINITION. The statements for the provers, each a rule of the spec or rested on its sections (OBLIGATIONS.json). Frames
are seen through the register read of every address and the read of every file byte (`OnlyRegs`, `SameFiles`). A next state is
always the command's or the step's own effect, under hypotheses on the state and the operands alone. -/

open Sys2Proof Sys2Proof.Machine

/-! ## Encoding (30_encoding.md) -/

/-- Decoding the word of a well-formed command gives it back, every operand at every value (30 R90, R91, R97, R98). -/
def Obligations.DecodeOfEncode : Prop :=
  ∀ i : Instr, i.wellFormed = true → decode (encode i) = .ok i

/-- A word that decodes is the word of the command it decodes to, which is well-formed: each legal word has one meaning and no
bit of it is dropped (30 R92, R98). -/
def Obligations.EncodeOfDecode : Prop :=
  ∀ (w : CmdWord) (i : Instr), decode w = .ok i → encode i = w ∧ i.wellFormed = true

/-- The opcode map as 30 R97 prints it: row, match, mask. -/
def Sys2Proof.Machine.opcodeMap : List (Mnemonic × CmdWord × CmdWord) :=
  [(.nop, 0x00000000, 0xFFFFFFFF), (.reset, 0x01000000, 0xFFFFFFFF), (.errclr, 0x02000000, 0xFFFFFFFF),
   (.cancel, 0x03000000, 0xFFFFFFFF), (.kdclr, 0x10000000, 0xFFFFFFFF), (.kdbyte, 0x11000000, 0xFFFFFF00),
   (.keyldw, 0x12000000, 0xFFF80000), (.schedgen, 0x20000000, 0xFFFFFFFF), (.schedinv, 0x21000000, 0xFFFFFFFF),
   (.crypt, 0x22000000, 0xFFFFFFFF), (.blkldw, 0x23000000, 0xFFFC0000), (.modeinit, 0x30000000, 0xFF1FFFFF),
   (.xform, 0x31000000, 0xFFFFFFFF), (.accld, 0x40000000, 0xFFFF0000), (.muli, 0x41000000, 0xFFFF0000),
   (.addi, 0x42000000, 0xFFFF0000), (.mulinv, 0x43000000, 0xFFFFFFFF), (.addinv, 0x44000000, 0xFFFFFFFF),
   (.cstart, 0x50000000, 0xFF1FFFFF)]

/-- "A word w is the command of row r exactly when (w & mask_r) = match_r" (30 R97), with the match and mask columns as
printed. -/
def Obligations.DecodeFollowsMatchAndMask : Prop :=
  ∀ (r : Mnemonic) (matchWord mask : CmdWord), (r, matchWord, mask) ∈ opcodeMap →
    ∀ w : CmdWord, (∃ i, decode w = .ok i ∧ i.mnemonic = r) ↔ w &&& mask = matchWord

/-- The illegal words are exactly those with an unassigned OPC or a 1 in a must-be-zero bit of their row (30 R98, R99). -/
def Obligations.IllegalWordsAreUnassignedOrReserved : Prop :=
  ∀ w : CmdWord,
    (decode w = .error .unassignedOpcode ↔
      (0x04 ≤ (opcField w).toNat ∧ (opcField w).toNat ≤ 0x0F) ∨ (0x13 ≤ (opcField w).toNat ∧ (opcField w).toNat ≤ 0x1F) ∨
      (0x24 ≤ (opcField w).toNat ∧ (opcField w).toNat ≤ 0x2F) ∨ (0x32 ≤ (opcField w).toNat ∧ (opcField w).toNat ≤ 0x3F) ∨
      (0x45 ≤ (opcField w).toNat ∧ (opcField w).toNat ≤ 0x4F) ∨ 0x51 ≤ (opcField w).toNat) ∧
    (decode w = .error .mustBeZeroBitSet ↔
      ∃ r : Mnemonic, opcField w = r.opc ∧ w &&& r.format.mustBeZero ≠ 0)

/-- The words 30 R104 writes out decode to the commands it names, and its two illegal words do not decode. -/
def Obligations.WrittenWordsDecode : Prop :=
  decode 0x11000073 = .ok (.kdbyte 0x73) ∧ decode 0x12070008 = .ok (.keyldw 7 0x0008) ∧
  decode 0x23030003 = .ok (.blkldw 3 0x0003) ∧ decode 0x30A00000 = .ok (.modeinit .dec .cbc) ∧
  decode 0x50600000 = .ok (.cstart .enc .ofb) ∧ decode 0x50C00000 = .ok (.cstart .dec .cfb) ∧
  decode 0x41008000 = .ok (.muli 0x8000) ∧ decode 0x23040000 = .error .mustBeZeroBitSet ∧
  decode 0x11000100 = .error .mustBeZeroBitSet

/-! ## The step (20 R62, R79) -/

/-- A step whose next operation is a command word that decodes is that command's execution, once the word is taken off the
port (20 R62, 30 R90). -/
def Obligations.StepExecutesDecodedCommand : Prop :=
  ∀ (s : State) (w : CmdWord) (rest : List Action) (i : Instr),
    s.agenda = .command w :: rest → decode w = .ok i → step s = exec i (setAgenda rest s)

/-- An illegal word fails with IllegalCommand whatever the phase, before any other check: CMDERR keeps an earlier error, and
nothing else changes (30 R92, R98, 60 R302, R307). The term BLKLDW with IDX[2] = 1, which no word decodes to, fails the same way
(the model's choice, log 12). -/
def Obligations.IllegalWordOnlySetsCmderr : Prop :=
  (∀ (i : BitVec 3) (v : Word) (s : State), 4 ≤ i.toNat → ∃ t, exec (.blkldw i v) s = .next t ∧
    t.cmderr = (if s.cmderr = .none then .illegalCommand else s.cmderr) ∧ OnlyRegs (oneReg 0x0C) s t) ∧
  ∀ (s : State) (w : CmdWord) (rest : List Action) (e : DecodeError),
    s.agenda = .command w :: rest → decode w = .error e →
    ∃ t, step s = .next t ∧ t.cmderr = (if s.cmderr = .none then .illegalCommand else s.cmderr) ∧
      OnlyRegs (oneReg 0x0C) (setAgenda rest s) t

/-- A sequencer step is enabled exactly when CPH = RUNNING: a turn then is the first applicable of the four steps of 45 R242,
and else changes nothing. With no operation waiting, the sequencer takes an enabled step, and else the core waits (log 2 is
the model's choice of what a step is when no operation waits). -/
def Obligations.SequencerTurns : Prop :=
  ∀ (s : State),
    (∀ rest, s.agenda = .sequencer :: rest → step s = runSequencer (setAgenda rest s)) ∧
    (s.agenda = [] → step s = runSequencer s) ∧
    (s.cph ≠ .running → runSequencer s = .next s) ∧
    (s.cph = .running → s.cflags.cancelReq = true → runSequencer s = .next (cancelStep s)) ∧
    (s.cph = .running → s.cflags.cancelReq = false → s.doneBytes.toNat < s.dataLen.toNat →
      runSequencer s = chunkStep s) ∧
    (s.cph = .running → s.cflags.cancelReq = false → s.dataLen.toNat ≤ s.doneBytes.toNat → s.cflags.cdir = .enc →
      runSequencer s = suffixStepEnc s) ∧
    (s.cph = .running → s.cflags.cancelReq = false → s.dataLen.toNat ≤ s.doneBytes.toNat → s.cflags.cdir = .dec →
      runSequencer s = suffixStepDec s)

/-! ## Command errors (60_exceptions.md) -/

/-- While CPH = RUNNING every command other than NOP, RESET, ERRCLR and CANCEL fails with Busy: the first error is kept and
nothing else changes (60 R302, R303). -/
def Obligations.BusyCommandsOnlySetCmderr : Prop :=
  ∀ (i : Instr) (s : State), s.cph = .running → i.wellFormed = true →
    i ≠ .nop → i ≠ .reset → i ≠ .errclr → i ≠ .cancel →
    ∃ t, exec i s = .next t ∧ t.cmderr = (if s.cmderr = .none then .busy else s.cmderr) ∧ OnlyRegs (oneReg 0x0C) s t

/-- A command's own check fails: the command completes with no effect but CMDERR, which keeps an earlier error (60 R302). -/
def Sys2Proof.Machine.FailsWith (code : ErrorCode) (i : Instr) (s : State) : Prop :=
  ∃ t, exec i s = .next t ∧ t.cmderr = (if s.cmderr = .none then code else s.cmderr) ∧ OnlyRegs (oneReg 0x0C) s t

/-- The word `w`, and no other, is the command `i` (30 R90, R97). -/
def Sys2Proof.Machine.EncodedAs (i : Instr) (w : CmdWord) : Prop := ∀ v : CmdWord, decode v = .ok i ↔ v = w

/-- The word of format C with this OPC word, direction in bit 23 and mode in bits 22 and 21 (30 R91, R93, R94). -/
def Sys2Proof.Machine.dirModeWord (opc : CmdWord) (d : Dir) (m : Mode) : CmdWord :=
  opc ||| ((dirBits d).setWidth 32 <<< 23) ||| ((modeBits m).setWidth 32 <<< 21)

/-! ## Control (46_control.md) -/

/-- NOP changes nothing; ERRCLR clears CMDERR alone; CANCEL sets CANCEL_REQ alone while RUNNING and else changes nothing. All
three complete in every phase; each has one word (46 R280, R282, R283). -/
def Obligations.NopErrclrCancelComplete : Prop :=
  EncodedAs .nop 0x00000000 ∧ EncodedAs .errclr 0x02000000 ∧ EncodedAs .cancel 0x03000000 ∧ ∀ s : State,
    exec .nop s = .next s ∧
    (∃ t, exec .errclr s = .next t ∧ t.cmderr = .none ∧ OnlyRegs (oneReg 0x0C) s t) ∧
    (s.cph = .running → ∃ t, exec .cancel s = .next t ∧ t.cflags.cancelReq = true ∧ t.cflags.cdir = s.cflags.cdir ∧
      t.cflags.cmode = s.cflags.cmode ∧ OnlyRegs (oneReg 0x0F) s t) ∧
    (s.cph ≠ .running → exec .cancel s = .next s)

/-- RESET, in every phase, leaves every register of the register space reading 0x0000 and every file byte, the binding, the
operations and the IO answers still to come as they were; after power-on reset every register reads 0x0000 and a CSTART fails
with IOFailure at its open, since nothing is bound (46 R281, 70 R341, R342). The reset input has the same effect as RESET
(70 R340; that it is an operation of the interleaving is the model's, log 16). -/
def Obligations.ResetClearsEveryRegister : Prop :=
  EncodedAs .reset 0x01000000 ∧ (∀ s : State, ∃ t, exec .reset s = .next t ∧ (∀ a : RegAddr, readReg a t = 0) ∧ SameFiles s t ∧
    t.agenda = s.agenda ∧ t.ioScript = s.ioScript ∧ t.chunkBlocks = s.chunkBlocks ∧ t.reply = s.reply) ∧
  (∀ (s : State) (rest : List Action), s.agenda = .resetInput :: rest →
    step s = exec .reset (setAgenda rest s) ∧ ∃ t, step s = .next t ∧ (∀ a : RegAddr, readReg a t = 0) ∧ SameFiles s t) ∧
  (∀ a : RegAddr, readReg a State.reset = 0) ∧
  ∀ (d : Dir) (m : Mode), ∃ t, exec (.cstart d m) State.reset = .next t ∧ t.cph = .failed ∧ t.cres = .ioFailure ∧
    t.inLen = 0 ∧ t.evt = .failed ∧ t.evtseq = 1

/-! ## The register space (10_state.md) -/

/-- The error codes as 60 R301 numbers them. -/
def Sys2Proof.Machine.errorCodeTable : List (ErrorCode × Word) :=
  [(.none, 0x00), (.invalidKeySize, 0x01), (.fileTooLarge, 0x02), (.emptyInput, 0x03), (.unalignedInput, 0x04),
   (.malformedCryptogram, 0x05), (.ioFailure, 0x06), (.cancelled, 0x07), (.illegalCommand, 0x10), (.busy, 0x11),
   (.unconfigured, 0x12)]

/-- The codec phases as 10 R28 numbers them. -/
def Sys2Proof.Machine.phaseTable : List (Phase × Word) :=
  [(.idle, 0), (.running, 1), (.succeeded, 2), (.failed, 3), (.cancelled, 4)]

/-- The modes as 10 R25 and R30 number them. -/
def Sys2Proof.Machine.modeTable : List (Mode × BitVec 2) := [(.ecb, 0b00), (.cbc, 0b01), (.cfb, 0b10), (.ofb, 0b11)]

/-- The status events as 10 R41 numbers them. -/
def Sys2Proof.Machine.eventTable : List (Event × Word) :=
  [(.none, 0), (.started, 1), (.progress, 2), (.succeeded, 3), (.failed, 4), (.cancelled, 5)]

/-- Every register reads at its address, fields at their bits; CMDERR, CRES, CPH and EVT read as the numbers of 60 R301, 10 R28
and R41, MODE and CMODE as those of 10 R25 (10 R20, R22 to R33, R41, R42). -/
def Obligations.RegisterMap : Prop :=
  ∀ s : State,
    (∀ i : Fin 8, readReg (BitVec.ofNat 8 i.val) s = be16 s.key[2 * i.val] s.key[2 * i.val + 1]) ∧
    (readReg 0x08 s).toNat = s.keyv.toNat ∧ (readReg 0x09 s).toNat = s.kdidx.val ∧
    (∀ m n, (m, n) ∈ modeTable → (s.cfg.mode = m → (readReg 0x0A s).extractLsb' 0 2 = n) ∧
      (s.cflags.cmode = m → (readReg 0x0F s).extractLsb' 2 2 = n)) ∧
    (readReg 0x0A s).getLsbD 2 = (s.cfg.dir == .dec) ∧
    (readReg 0x0A s).getLsbD 3 = s.cfg.modev ∧ (readReg 0x0A s).getLsbD 4 = (s.cfg.skdir == .dec) ∧
    (readReg 0x0A s).getLsbD 5 = s.cfg.skv ∧
    readReg 0x0B s = s.acc ∧
    (∀ e n, (e, n) ∈ errorCodeTable → (s.cmderr = e → readReg 0x0C s = n) ∧ (s.cres = e → readReg 0x0E s = n)) ∧
    (∀ e n, (e, n) ∈ phaseTable → s.cph = e → readReg 0x0D s = n) ∧
    (readReg 0x0F s).getLsbD 0 = s.cflags.cancelReq ∧ (readReg 0x0F s).getLsbD 1 = (s.cflags.cdir == .dec) ∧
    (∀ k : Fin 4, readReg (BitVec.ofNat 8 (0x10 + k.val)) s = be16 s.blk[2 * k.val] s.blk[2 * k.val + 1]) ∧
    (∀ k : Fin 4, readReg (BitVec.ofNat 8 (0x14 + k.val)) s = be16 s.chain[2 * k.val] s.chain[2 * k.val + 1]) ∧
    (∀ e n, (e, n) ∈ eventTable → s.evt = e → readReg 0x34 s = n) ∧ readReg 0x35 s = s.evtseq ∧
    (∀ i : Fin 52, readReg (BitVec.ofNat 8 (0x40 + i.val)) s = s.sk[i.val])

/-- A 64-bit register at base address a reads as four words, word a holding bits [63:48] (10 R44), and the seven of them stand
at the addresses of 10 R20. -/
def Obligations.LengthRegistersReadBigEndian : Prop :=
  ∀ s : State, ∀ p ∈ [(0x18, s.inLen), (0x1C, s.dataLen), (0x20, s.outLen), (0x24, s.doneBytes), (0x28, s.outPos),
      (0x2C, s.finalSize), (0x30, s.elapsed)],
    (readReg (BitVec.ofNat 8 p.1) s).toNat * 2 ^ 48 + (readReg (BitVec.ofNat 8 (p.1 + 1)) s).toNat * 2 ^ 32 +
      (readReg (BitVec.ofNat 8 (p.1 + 2)) s).toNat * 2 ^ 16 + (readReg (BitVec.ofNat 8 (p.1 + 3)) s).toNat = p.2.toNat

/-- In every state the fields documented "read 0" read 0, CPH reads at most 4, and an unmapped address reads 0x0000 (10 R23
to R30, R41, R43). -/
def Obligations.ReservedBitsReadZero : Prop :=
  ∀ s : State,
    (readReg 0x08 s).toNat < 2 ^ 8 ∧ (readReg 0x09 s).toNat < 2 ^ 4 ∧ (readReg 0x0A s).toNat < 2 ^ 6 ∧
    (readReg 0x0C s).toNat < 2 ^ 8 ∧ (readReg 0x0D s).toNat ≤ 4 ∧ (readReg 0x0E s).toNat < 2 ^ 8 ∧
    (readReg 0x0F s).toNat < 2 ^ 4 ∧ (readReg 0x34 s).toNat ≤ 5 ∧
    (∀ a : RegAddr, (0x36 ≤ a.toNat ∧ a.toNat < 0x40) ∨ 0x74 ≤ a.toNat → readReg a s = 0)

/-- A host read answers the word its address maps and changes no register, no file byte and nothing else of the core, in every
phase (10 R43, 46 R284; that the answer stands in the field `reply` is the model's, log 13). -/
def Obligations.ReadHasNoSideEffect : Prop :=
  ∀ (s : State) (a : RegAddr) (rest : List Action), s.agenda = .read a :: rest →
    ∃ t, step s = .next t ∧ t.reply = some (readReg a s) ∧
      OnlyRegs noReg (setReply (readReg a s) (setAgenda rest s)) t

/-! ## Key derivation (41_keyderivation.md) -/

/-- KDCLR: KEY all zero, KEYV all set, KDIDX 0, nothing else (41 R121). -/
def Obligations.KdclrStartsDerivation : Prop :=
  EncodedAs .kdclr 0x10000000 ∧ ∀ s : State, s.cph ≠ .running →
    ∃ t, exec .kdclr s = .next t ∧ (∀ j : Fin 16, t.key[j] = 0) ∧ t.keyv = 0xFF ∧ t.kdidx = 0 ∧
      OnlyRegs (fun a => keyRegs a || oneReg 0x08 a || oneReg 0x09 a) s t

/-- KDBYTE b: b is XORed into KEY[KDIDX], KDIDX advances modulo 16, nothing else changes, KEYV included (41 R122). -/
def Obligations.KdbyteFoldsOneByte : Prop :=
  ∀ b : Byte, EncodedAs (.kdbyte b) (0x11000000 ||| b.setWidth 32) ∧ ∀ s : State, s.cph ≠ .running →
    ∃ t, exec (.kdbyte b) s = .next t ∧ t.key[s.kdidx] = s.key[s.kdidx] ^^^ b ∧
      (∀ j : Fin 16, j ≠ s.kdidx → t.key[j] = s.key[j]) ∧ t.kdidx.val = (s.kdidx.val + 1) % 16 ∧
      OnlyRegs (fun a => keyRegs a || oneReg 0x09 a) s t

/-- KEYLDW i, v: KEY[2i] and KEY[2i+1] are v's bytes, KEYV[i] is set, nothing else changes, KDIDX included (41 R125). -/
def Obligations.KeyldwLoadsOneWord : Prop :=
  ∀ (i : BitVec 3) (v : Word),
    EncodedAs (.keyldw i v) (0x12000000 ||| (i.setWidth 32 <<< 16) ||| v.setWidth 32) ∧ ∀ s : State, s.cph ≠ .running →
    ∃ t, exec (.keyldw i v) s = .next t ∧
      (∀ j : Fin 16, t.key[j] = if j.val = 2 * i.toNat then v.extractLsb' 8 8
        else if j.val = 2 * i.toNat + 1 then v.extractLsb' 0 8 else s.key[j]) ∧
      (∀ j, j < 8 → t.keyv.getLsbD j = (s.keyv.getLsbD j || j == i.toNat)) ∧
      OnlyRegs (fun a => oneReg (i.setWidth 8) a || oneReg 0x08 a) s t

/-- KDCLR followed by one KDBYTE per byte of P leaves KEY = derive(P, 16), KEYV = 0xFF and KDIDX = |P| mod 16 (41 R123). -/
def Obligations.KdstrDerivesKey : Prop :=
  ∀ (p : List Byte) (s : State), s.cph ≠ .running →
    ∃ t, execAll (kdstr p) s = .next t ∧ t.key = derive 16 p ∧ t.keyv = 0xFF ∧ t.kdidx.val = p.length % 16 ∧
      OnlyRegs (fun a => keyRegs a || oneReg 0x08 a || oneReg 0x09 a) s t

/-- derive(P, size): byte j is the XOR of P[i] over all i with i mod size = j, 0x00 when there is none (41 R120). -/
def Obligations.DeriveIsCyclicXor : Prop :=
  ∀ (n : Nat) (p : List Byte) (j : Fin (n + 1)),
    (derive (n + 1) p)[j] =
      ((List.range p.length).filter fun i => i % (n + 1) == j.val).foldl (fun acc i => acc ^^^ p.getD i 0) 0

/-- iv_of(KEY)[k] = KEY[k] ^ KEY[k+8]; it is derive(KEY, 8), and for KEY = derive(P, 16) it is derive(P, 8) (41 R126). -/
def Obligations.IvIsKeyDerived : Prop :=
  (∀ (k : Key) (j : Fin 8), (ivOf k)[j] = k[j.val] ^^^ k[j.val + 8]) ∧
  (∀ k : Key, ivOf k = derive 8 k.toList) ∧ ∀ p : List Byte, ivOf (derive 16 p) = derive 8 p

/-! ## Modular arithmetic (42_arith.md) -/

/-- mul is the multiplication modulo 65537 of the elements the words stand for, the zero word standing for 2^16 (42 R140). -/
def Obligations.MulIsGroupMultiplication : Prop :=
  (∀ a b : Word, groupElement (mul a b) = groupElement a * groupElement b % 65537) ∧ mul 0 0 = 1 ∧
    ∀ x : Word, mul x 0 = 1 - x ∧ mul 0 x = 1 - x

/-- mulInv(x) is the unique word y with mul(x, y) = 0x0001; 0 and 1 map to themselves (42 R143). -/
def Obligations.MulInvIsUniqueInverse : Prop :=
  (∀ x : Word, mul x (mulInv x) = 1 ∧ ∀ y : Word, mul x y = 1 → y = mulInv x) ∧ mulInv 0 = 0 ∧ mulInv 1 = 1 ∧
    ∀ x : Word, 2 ≤ x.toNat → 2 ≤ (mulInv x).toNat

/-- The laws a model may rely on, which 42 R145 marks as derived: mul and add are commutative and associative with identities 1
and 0, x ↦ mul(x, k) is a bijection for every k, and the two inverses are involutions. -/
def Obligations.ArithmeticLaws : Prop :=
  (∀ a b : Word, mul a b = mul b a) ∧ (∀ a b c : Word, mul (mul a b) c = mul a (mul b c)) ∧ (∀ a : Word, mul a 1 = a) ∧
  (∀ k : Word, Function.Bijective fun x : Word => mul x k) ∧ (∀ x : Word, mulInv (mulInv x) = x) ∧
  (∀ a b : Word, add a b = add b a) ∧ (∀ a b c : Word, add (add a b) c = add a (add b c)) ∧ (∀ a : Word, add a 0 = a) ∧
  (∀ x : Word, add x (addInv x) = 0) ∧ ∀ x : Word, addInv (addInv x) = x

/-- ACCLD, MULI, ADDI, MULINV and ADDINV write ACC as their rules say and nothing else; every immediate is legal (42 R146 to
R150). add and addInv are the sum and the inverse modulo 65536 (42 R141, R142). -/
def Obligations.AccumulatorCommandsWriteAcc : Prop :=
  (∀ a b : Word, (add a b).toNat = (a.toNat + b.toNat) % 65536) ∧
  (∀ x : Word, (addInv x).toNat = (65536 - x.toNat) % 65536 ∧ add x (addInv x) = 0) ∧ addInv 0 = 0 ∧
  EncodedAs .mulinv 0x43000000 ∧ EncodedAs .addinv 0x44000000 ∧
  (∀ v : Word, EncodedAs (.accld v) (0x40000000 ||| v.setWidth 32) ∧
    EncodedAs (.muli v) (0x41000000 ||| v.setWidth 32) ∧ EncodedAs (.addi v) (0x42000000 ||| v.setWidth 32)) ∧
  ∀ (s : State) (v : Word), s.cph ≠ .running →
    (∃ t, exec (.accld v) s = .next t ∧ t.acc = v ∧ OnlyRegs (oneReg 0x0B) s t) ∧
    (∃ t, exec (.muli v) s = .next t ∧ t.acc = mul s.acc v ∧ OnlyRegs (oneReg 0x0B) s t) ∧
    (∃ t, exec (.addi v) s = .next t ∧ t.acc = add s.acc v ∧ OnlyRegs (oneReg 0x0B) s t) ∧
    (∃ t, exec .mulinv s = .next t ∧ t.acc = mulInv s.acc ∧ OnlyRegs (oneReg 0x0B) s t) ∧
    (∃ t, exec .addinv s = .next t ∧ t.acc = addInv s.acc ∧ OnlyRegs (oneReg 0x0B) s t)

/-! ## Block cipher (43_cipher.md) -/

/-- SCHEDGEN on a complete key: SK is the encryption schedule, SKDIR 0, SKV 1; MODE, DIR, MODEV, CHAIN and everything else
stay. On an incomplete key it fails with InvalidKeySize (43 R180). -/
def Obligations.SchedgenLoadsSchedule : Prop :=
  EncodedAs .schedgen 0x20000000 ∧ ∀ s : State, s.cph ≠ .running →
    (s.keyv = 0xFF → ∃ t, exec .schedgen s = .next t ∧ t.sk = genSchedule s.key ∧ t.cfg.skdir = .enc ∧
      t.cfg.skv = true ∧ t.cfg.mode = s.cfg.mode ∧ t.cfg.dir = s.cfg.dir ∧ t.cfg.modev = s.cfg.modev ∧
      OnlyRegs (fun a => skRegs a || oneReg 0x0A a) s t) ∧
    (s.keyv ≠ 0xFF → FailsWith .invalidKeySize .schedgen s)

/-- SCHEDINV with a schedule loaded: SK is its inversion, SKDIR is toggled, nothing else changes; a second SCHEDINV restores
SK and CFG. Without a schedule it fails with Unconfigured (43 R181). -/
def Obligations.SchedinvInvertsSchedule : Prop :=
  EncodedAs .schedinv 0x21000000 ∧ ∀ s : State, s.cph ≠ .running →
    (s.cfg.skv = true → ∃ t, exec .schedinv s = .next t ∧ t.sk = invertSchedule s.sk ∧ t.cfg.skdir ≠ s.cfg.skdir ∧
      t.cfg.skv = true ∧ t.cfg.mode = s.cfg.mode ∧ t.cfg.dir = s.cfg.dir ∧ t.cfg.modev = s.cfg.modev ∧
      OnlyRegs (fun a => skRegs a || oneReg 0x0A a) s t) ∧
    (s.cfg.skv = true → ∃ t, execAll [.schedinv, .schedinv] s = .next t ∧ t.sk = s.sk ∧ t.cfg = s.cfg) ∧
    (s.cfg.skv = false → FailsWith .unconfigured .schedinv s)

/-- CRYPT with a schedule loaded: BLK is its transform under SK, nothing else changes; without one it fails with Unconfigured
(43 R182). The two transforms 43 R182 writes out fix the wiring of crypt_block: the zero block under the zero schedule, and the
block 0000 0001 0002 0003 under the schedule of the key 0001 0002 0003 0004 0005 0006 0007 0008. -/
def Obligations.CryptTransformsBlock : Prop :=
  EncodedAs .crypt 0x22000000 ∧
  cryptBlock #v[0, 0, 0, 0, 0, 0, 0, 0] (Vector.replicate 52 0) = #v[0x00, 0x01, 0x00, 0x01, 0x00, 0x00, 0x00, 0x00] ∧
  cryptBlock #v[0x00, 0x00, 0x00, 0x01, 0x00, 0x02, 0x00, 0x03]
      (genSchedule #v[0x00, 0x01, 0x00, 0x02, 0x00, 0x03, 0x00, 0x04, 0x00, 0x05, 0x00, 0x06, 0x00, 0x07, 0x00, 0x08]) =
    #v[0x11, 0xFB, 0xED, 0x2B, 0x01, 0x98, 0x6D, 0xE5] ∧ ∀ s : State, s.cph ≠ .running →
    (s.cfg.skv = true → ∃ t, exec .crypt s = .next t ∧ t.blk = cryptBlock s.blk s.sk ∧ OnlyRegs blkRegs s t) ∧
    (s.cfg.skv = false → FailsWith .unconfigured .crypt s)

/-- BLKLDW i, v with i in 0..3: BLK[2i] and BLK[2i+1] are v's bytes and nothing else changes (43 R183). -/
def Obligations.BlkldwLoadsOneWord : Prop :=
  ∀ (i : BitVec 3) (v : Word) (s : State),
    (i.toNat < 4 → EncodedAs (.blkldw i v) (0x23000000 ||| (i.setWidth 32 <<< 16) ||| v.setWidth 32)) ∧
    (i.toNat < 4 → s.cph ≠ .running →
      ∃ t, exec (.blkldw i v) s = .next t ∧
        (∀ j : Fin 8, t.blk[j] = if j.val = 2 * i.toNat then v.extractLsb' 8 8
          else if j.val = 2 * i.toNat + 1 then v.extractLsb' 0 8 else s.blk[j]) ∧
        OnlyRegs (oneReg (0x10 + i.setWidth 8)) s t)

/-- Word i of gen_schedule(KEY) is word i mod 8 of the 128-bit key register rotated left by 25 bits i / 8 times; the register
is made of the big-endian key words, key word i standing at bit 16(7 − i) (43 R170). -/
def Obligations.GenScheduleRotatesKey : Prop :=
  ∀ k : Key,
    (∀ i : Fin 8, (Key.register k).extractLsb' (16 * (7 - i.val)) 16 = be16 k[2 * i.val] k[2 * i.val + 1]) ∧
    ∀ i : Fin 52, (genSchedule k)[i] =
      ((Key.register k).rotateLeft (25 * (i.val / 8))).extractLsb' (16 * (7 - i.val % 8)) 16

/-- Z[0..7] are the key words, and every later word is made of two earlier ones by the 9-bit and the 7-bit shift (43 R170,
R171). -/
def Obligations.GenScheduleShiftForm : Prop :=
  ∀ k : Key,
    (∀ i : Fin 8, (genSchedule k)[i.val] = be16 k[2 * i.val] k[2 * i.val + 1]) ∧
    ∀ i a b : Fin 52, 8 ≤ i.val → a.val = (if i.val % 8 ≠ 7 then i.val - 7 else i.val - 15) →
      b.val = (if i.val % 8 < 6 then i.val - 6 else i.val - 14) →
      (genSchedule k)[i] = ((genSchedule k)[a] <<< 9 ||| (genSchedule k)[b] >>> 7)

/-- Round r of a schedule (r = 1 to 8), position j = 1 to 6, or the output transform (r = 9), j = 1 to 4: Z_r,j = Z[6(r−1) +
(j−1)] (43's word notation). -/
def Sys2Proof.Machine.subkey (z : Schedule) (r j : Nat) : Word := z.toList.getD (6 * (r - 1) + (j - 1)) 0

/-- D = invert_schedule(Z), subkey by subkey as the table of 43 R173 gives them. -/
def Obligations.InvertSchedulePositions : Prop :=
  ∀ z d : Schedule, d = invertSchedule z →
    (subkey d 1 1 = mulInv (subkey z 9 1) ∧ subkey d 1 2 = addInv (subkey z 9 2) ∧ subkey d 1 3 = addInv (subkey z 9 3) ∧
      subkey d 1 4 = mulInv (subkey z 9 4) ∧ subkey d 1 5 = subkey z 8 5 ∧ subkey d 1 6 = subkey z 8 6) ∧
    (∀ r, 2 ≤ r → r ≤ 8 →
      subkey d r 1 = mulInv (subkey z (10 - r) 1) ∧ subkey d r 2 = addInv (subkey z (10 - r) 3) ∧
      subkey d r 3 = addInv (subkey z (10 - r) 2) ∧ subkey d r 4 = mulInv (subkey z (10 - r) 4) ∧
      subkey d r 5 = subkey z (9 - r) 5 ∧ subkey d r 6 = subkey z (9 - r) 6) ∧
    (subkey d 9 1 = mulInv (subkey z 1 1) ∧ subkey d 9 2 = addInv (subkey z 1 2) ∧ subkey d 9 3 = addInv (subkey z 1 3) ∧
      subkey d 9 4 = mulInv (subkey z 1 4))

/-- invert_schedule is its own inverse, for every 52-word schedule (43 R174). -/
def Obligations.InvertScheduleTwiceIsIdentity : Prop :=
  ∀ z : Schedule, invertSchedule (invertSchedule z) = z

/-- The involution law: decrypting with the inverted schedule exactly reverses encryption, in both orders, for every 52-word
schedule and every block; so crypt_block is a bijection on blocks (43 R179). -/
def Obligations.CryptBlockInvolution : Prop :=
  ∀ z : Schedule,
    (∀ b : Block, cryptBlock (cryptBlock b z) (invertSchedule z) = b ∧
      cryptBlock (cryptBlock b (invertSchedule z)) z = b) ∧
    Function.Bijective fun b : Block => cryptBlock b z

/-! ## Modes of operation (44_modes.md) -/

/-- MODEINIT d, m on a complete key: SK is the encryption schedule, or its inversion for ECB and CBC decryption; CHAIN is the
key-derived IV; CFG is set; nothing else changes. On an incomplete key it fails with InvalidKeySize (44 R200, R201). -/
def Obligations.ModeinitConstructsMode : Prop :=
  ∀ (d : Dir) (m : Mode), EncodedAs (.modeinit d m) (dirModeWord 0x30000000 d m) ∧ ∀ s : State, s.cph ≠ .running →
    (s.keyv ≠ 0xFF → FailsWith .invalidKeySize (.modeinit d m) s) ∧
    (s.keyv = 0xFF → ∃ t, exec (.modeinit d m) s = .next t ∧
      ((m = .ecb ∨ m = .cbc) ∧ d = .dec → t.sk = invertSchedule (genSchedule s.key) ∧ t.cfg.skdir = .dec) ∧
      (¬((m = .ecb ∨ m = .cbc) ∧ d = .dec) → t.sk = genSchedule s.key ∧ t.cfg.skdir = .enc) ∧
      t.cfg.skv = true ∧ t.cfg.mode = m ∧ t.cfg.dir = d ∧ t.cfg.modev = true ∧
      (∀ k : Fin 8, t.chain[k] = s.key[k.val] ^^^ s.key[k.val + 8]) ∧
      OnlyRegs (fun a => skRegs a || chainRegs a || oneReg 0x0A a) s t)

/-- XFORM with a mode and a schedule loaded: BLK and CHAIN become what the configured mode and direction say; nothing else
changes. Without them it fails with Unconfigured (44 R203 to R210). -/
def Obligations.XformFollowsMode : Prop :=
  EncodedAs .xform 0x31000000 ∧ ∀ s : State, s.cph ≠ .running →
    (s.cfg.modev = false ∨ s.cfg.skv = false → FailsWith .unconfigured .xform s) ∧
    (s.cfg.modev = true → s.cfg.skv = true →
    ∃ t, exec .xform s = .next t ∧ OnlyRegs (fun a => blkRegs a || chainRegs a) s t ∧
      (s.cfg.mode = .ecb → t.blk = cryptBlock s.blk s.sk ∧ t.chain = s.chain) ∧
      (s.cfg.mode = .cbc → s.cfg.dir = .enc →
        t.blk = cryptBlock (Block.xor s.blk s.chain) s.sk ∧ t.chain = t.blk) ∧
      (s.cfg.mode = .cbc → s.cfg.dir = .dec →
        t.blk = Block.xor (cryptBlock s.blk s.sk) s.chain ∧ t.chain = s.blk) ∧
      (s.cfg.mode = .cfb → s.cfg.dir = .enc →
        t.blk = Block.xor s.blk (cryptBlock s.chain s.sk) ∧ t.chain = t.blk) ∧
      (s.cfg.mode = .cfb → s.cfg.dir = .dec →
        t.blk = Block.xor s.blk (cryptBlock s.chain s.sk) ∧ t.chain = s.blk) ∧
      (s.cfg.mode = .ofb → t.chain = cryptBlock s.chain s.sk ∧ t.blk = Block.xor s.blk t.chain))

/-- Round trip per mode: blocks transformed after MODEINIT ENC and then, in order, after MODEINIT DEC with the same KEY come
back (44 R212). -/
def Obligations.ModeRoundTrip : Prop :=
  ∀ (m : Mode) (k : Key) (blocks : List Block),
    (transformBlocks m .dec (modeSchedule .dec m k) (ivOf k)
      (transformBlocks m .enc (modeSchedule .enc m k) (ivOf k) blocks).1).1 = blocks

/-- OFB keystream property: two streams of equally many blocks transformed from the same schedule and chain give outputs that
differ exactly where the inputs differ, and leave the same CHAIN (44 R209, R212). -/
def Obligations.OfbKeystreamIndependence : Prop :=
  ∀ (d d' : Dir) (sk : Schedule) (chain : Block) (p q : List Block), p.length = q.length →
    List.zipWith Block.xor (transformBlocks .ofb d sk chain p).1 (transformBlocks .ofb d' sk chain q).1 =
        List.zipWith Block.xor p q ∧
      (transformBlocks .ofb d sk chain p).2 = (transformBlocks .ofb d' sk chain q).2

/-- SK, CFG and CHAIN change only through SCHEDGEN, SCHEDINV, MODEINIT, XFORM, CSTART, a run's steps, RESET and the reset
input: each other command that answers leaves all three, XFORM leaves SK and CFG, and SCHEDGEN and SCHEDINV leave CHAIN and
CFG's MODE, DIR and MODEV; a sequencer turn leaves SK and CFG, and CHAIN too unless it is a step of a run that is not being
cancelled; an illegal word, a read and a binding leave all three (70 R347). -/
def Obligations.ScheduleAndModeChangeOnlyThrough : Prop :=
  (∀ s t : State, runSequencer s = .next t → t.sk = s.sk ∧ t.cfg = s.cfg ∧
    (s.cph ≠ .running ∨ s.cflags.cancelReq = true → t.chain = s.chain)) ∧
  (∀ (a : Action) (s t : State), runAction a s = .next t → a ≠ .sequencer → a ≠ .resetInput →
    (∀ w i, a = .command w → decode w ≠ .ok i) → t.sk = s.sk ∧ t.cfg = s.cfg ∧ t.chain = s.chain) ∧
  ∀ (i : Instr) (s t : State), exec i s = .next t →
    (i ≠ .reset → i ≠ .schedgen → i ≠ .schedinv → (∀ d m, i ≠ .modeinit d m) → (∀ d m, i ≠ .cstart d m) →
      t.sk = s.sk ∧ t.cfg = s.cfg ∧ (i ≠ .xform → t.chain = s.chain)) ∧
    (i = .schedgen ∨ i = .schedinv →
      t.chain = s.chain ∧ t.cfg.mode = s.cfg.mode ∧ t.cfg.dir = s.cfg.dir ∧ t.cfg.modev = s.cfg.modev)

/-! ## The stream codec (45_codec.md) -/

/-- The length suffix: the length in bytes times 8, big-endian, and back; unpack accepts exactly the packed lengths (45 R240,
R241). -/
def Obligations.PackUnpackRoundTrip : Prop :=
  (∀ n : Nat, n ≤ 2 ^ 45 - 1 → (Block.be64 (packLen n)).toNat = 8 * n ∧ unpackLen (packLen n) = some n) ∧
  (∀ (b : Block) (n : Nat), unpackLen b = some n → n ≤ 2 ^ 45 - 1 ∧ packLen n = b) ∧
  ∀ l d : Nat, lengthAccepted l d = true ↔ (l ≤ d ∧ (d : Int) - 8 + 1 ≤ l)

/-- The registers a CSTART or a run may write: CFG, CPH, CRES, CFLAGS, CHAIN, the lengths, EVT, EVTSEQ and SK. KEY, KEYV,
KDIDX, ACC, CMDERR and BLK are never written by a run (45 R232, 10 R31). -/
def Sys2Proof.Machine.runRegs (a : RegAddr) : Bool :=
  oneReg 0x0A a || oneReg 0x0D a || oneReg 0x0E a || oneReg 0x0F a || chainRegs a || (0x18 ≤ a.toNat && a.toNat < 0x36) ||
    skRegs a

/-- CSTART ENC, m on a complete key, with the files bound and the open answered with success: the run starts, as 45 R231,
R232, R235 and R237 say. -/
def Obligations.CstartEncryptStartsRun : Prop :=
  ∀ m : Mode, EncodedAs (.cstart .enc m) (dirModeWord 0x50000000 .enc m) ∧
    ∀ s : State, s.cph ≠ .running → s.bound = true → s.inf.length < 2 ^ 63 → ioAnswer s = true → s.keyv = 0xFF →
    ∃ t, exec (.cstart .enc m) s = .next t ∧ t.cph = .running ∧ t.cres = .none ∧
      t.inLen.toNat = s.inf.length ∧ t.dataLen = t.inLen ∧ t.outLen.toNat = 8 * ((s.inf.length + 7) / 8) ∧
      t.doneBytes = 0 ∧ t.outPos = 0 ∧ t.finalSize = 0 ∧ t.elapsed = 0 ∧
      t.cflags.cancelReq = false ∧ t.cflags.cdir = .enc ∧ t.cflags.cmode = m ∧
      t.cfg.mode = m ∧ t.cfg.dir = .enc ∧ t.cfg.modev = true ∧ t.cfg.skdir = .enc ∧ t.cfg.skv = true ∧
      t.sk = genSchedule s.key ∧ t.chain = ivOf s.key ∧ t.evt = .started ∧ t.evtseq = s.evtseq + 1 ∧
      (∀ a, Memory.read t.outf a = none) ∧ t.inf = s.inf ∧ t.bound = true ∧
      SameRegs runRegs s t ∧ t.chunkBuf = s.chunkBuf ∧ t.agenda = s.agenda ∧ t.chunkBlocks = s.chunkBlocks ∧
      t.reply = s.reply

/-- CSTART DEC, m on a complete key, with the files bound, INF nonempty and a multiple of 8 bytes, and the open answered with
success: the run starts, as 45 R231, R232, R236 and R237 say. -/
def Obligations.CstartDecryptStartsRun : Prop :=
  ∀ m : Mode, EncodedAs (.cstart .dec m) (dirModeWord 0x50000000 .dec m) ∧
    ∀ s : State, s.cph ≠ .running → s.bound = true → s.inf.length < 2 ^ 63 → ioAnswer s = true →
    s.keyv = 0xFF → s.inf.length ≠ 0 → s.inf.length % 8 = 0 →
    ∃ t, exec (.cstart .dec m) s = .next t ∧ t.cph = .running ∧ t.cres = .none ∧
      t.inLen.toNat = s.inf.length ∧ t.dataLen.toNat = s.inf.length - 8 ∧ t.outLen = t.dataLen ∧
      t.doneBytes = 0 ∧ t.outPos = 0 ∧ t.finalSize = 0 ∧ t.elapsed = 0 ∧
      t.cflags.cancelReq = false ∧ t.cflags.cdir = .dec ∧ t.cflags.cmode = m ∧
      t.cfg.mode = m ∧ t.cfg.dir = .dec ∧ t.cfg.modev = true ∧
      (m = .ecb ∨ m = .cbc → t.sk = invertSchedule (genSchedule s.key) ∧ t.cfg.skdir = .dec) ∧
      (m = .cfb ∨ m = .ofb → t.sk = genSchedule s.key ∧ t.cfg.skdir = .enc) ∧ t.cfg.skv = true ∧
      t.chain = ivOf s.key ∧ t.evt = .started ∧ t.evtseq = s.evtseq + 1 ∧
      (∀ a, Memory.read t.outf a = none) ∧ t.inf = s.inf ∧ t.bound = true ∧
      SameRegs runRegs s t ∧ t.chunkBuf = s.chunkBuf ∧ t.agenda = s.agenda ∧ t.chunkBlocks = s.chunkBlocks ∧
      t.reply = s.reply

/-- What every CSTART that fails before RUNNING leaves: FAILED with the code, one event FAILED, the run registers of 45 R232,
DATA_LEN and OUT_LEN 0, and the registers a run never writes (45 R238, 60 R304). -/
def Sys2Proof.Machine.CstartFailed (code : ErrorCode) (d : Dir) (m : Mode) (s t : State) : Prop :=
  t.cph = .failed ∧ t.cres = code ∧ t.evt = .failed ∧ t.evtseq = s.evtseq + 1 ∧
    t.dataLen = 0 ∧ t.outLen = 0 ∧ t.doneBytes = 0 ∧ t.outPos = 0 ∧ t.finalSize = 0 ∧ t.elapsed = 0 ∧
    t.cflags.cancelReq = false ∧ t.cflags.cdir = d ∧ t.cflags.cmode = m ∧ t.inf = s.inf ∧ SameRegs runRegs s t

/-- CSTART's run failures, in the order of 60 R308: IOFailure of the open (nothing bound, or the oracle's answer), then
InvalidKeySize, then EmptyInput, then UnalignedInput; SK, CHAIN and CFG are loaded only when the key check passed (45 R231,
R233, R234, R236, R238). -/
def Obligations.CstartFailuresInOrder : Prop :=
  ∀ (d : Dir) (m : Mode) (s : State), s.cph ≠ .running → s.inf.length < 2 ^ 63 →
    (s.bound = false ∨ ioAnswer s = false →
      ∃ t, exec (.cstart d m) s = .next t ∧ CstartFailed .ioFailure d m s t ∧ t.inLen = 0 ∧
        t.cfg = s.cfg ∧ t.sk = s.sk ∧ t.chain = s.chain) ∧
    (s.bound = true → ioAnswer s = true → s.keyv ≠ 0xFF →
      ∃ t, exec (.cstart d m) s = .next t ∧ CstartFailed .invalidKeySize d m s t ∧ t.inLen.toNat = s.inf.length ∧
        t.outf = [] ∧ t.cfg = s.cfg ∧ t.sk = s.sk ∧ t.chain = s.chain) ∧
    (s.bound = true → ioAnswer s = true → s.keyv = 0xFF → d = .dec → s.inf.length = 0 ∨ s.inf.length % 8 ≠ 0 →
      ∃ t, exec (.cstart d m) s = .next t ∧
        CstartFailed (if s.inf.length = 0 then .emptyInput else .unalignedInput) d m s t ∧
        t.inLen.toNat = s.inf.length ∧ t.outf = [] ∧ t.chain = ivOf s.key ∧ t.cfg.mode = m ∧ t.cfg.dir = d ∧
        t.cfg.modev = true ∧ t.cfg.skv = true)

/-- Cancellation is seen at the start of every step: the run ends CANCELLED with CRES = Cancelled and the event CANCELLED; no
file primitive is performed and nothing else changes (45 R243, 60 R321). -/
def Obligations.CancelStepEndsRun : Prop :=
  ∀ s : State, s.cph = .running → s.cflags.cancelReq = true →
    ∃ t, runSequencer s = .next t ∧ t.cph = .cancelled ∧ t.cres = .cancelled ∧ t.evt = .cancelled ∧
      t.evtseq = s.evtseq + 1 ∧
      OnlyRegs (fun a => oneReg 0x0D a || oneReg 0x0E a || oneReg 0x34 a || oneReg 0x35 a) s t

/-- The addresses a chunk step writes: CHAIN, DONE_BYTES, OUT_POS, EVT and EVTSEQ. -/
def Sys2Proof.Machine.chunkRegs (a : RegAddr) : Bool :=
  chainRegs a || (0x24 ≤ a.toNat && a.toNat < 0x2C) || oneReg 0x34 a || oneReg 0x35 a

/-- A chunk step whose two primitives succeed: the next n = min(CHUNK_BYTES, DATA_LEN − DONE_BYTES) bytes of INF are
zero-padded to whole blocks, transformed in stream order and appended whole (w = mm, 45 R246) to OUTF, whose earlier bytes
stay; DONE_BYTES grows by n, OUT_POS by mm (45 R244, R245, R246, R247). The chunk buffer, which holds CHUNK_BYTES bytes, then
holds those transformed blocks first (20 R85). -/
def Obligations.ChunkStepTransformsChunk : Prop :=
  ∀ (s : State) (n : Nat), Inv s → s.cph = .running → s.cflags.cancelReq = false →
    s.doneBytes.toNat < s.dataLen.toNat → n = min s.chunkBytes (s.dataLen.toNat - s.doneBytes.toNat) →
    ioAnswer s = true → ioAnswer (afterIo s) = true →
    ∃ t, runSequencer s = .next t ∧
      (let buf := ((Memory.bytes s.inf).drop s.doneBytes.toNat).take n ++ List.replicate (8 * ((n + 7) / 8) - n) 0
       let r := transformBlocks s.cfg.mode s.cfg.dir s.sk s.chain (blocksOf buf)
       Memory.bytes t.outf = Memory.bytes s.outf ++ bytesOf r.1 ∧ t.chain = r.2 ∧
         (bytesOf r.1).length = 8 * ((n + 7) / 8) ∧ (chunkContent t).length = s.chunkBytes ∧
         (chunkContent t).take (8 * ((n + 7) / 8)) = bytesOf r.1) ∧
      t.doneBytes.toNat = s.doneBytes.toNat + n ∧ t.outPos.toNat = s.outPos.toNat + 8 * ((n + 7) / 8) ∧
      t.evt = .progress ∧ t.evtseq = s.evtseq + 1 ∧
      (∀ a, a < s.outf.length → Memory.read t.outf a = Memory.read s.outf a) ∧ t.inf = s.inf ∧
      SameRegs chunkRegs s t

/-- A chunk step that fails ends the run with IOFailure: when InRead fails, CHAIN, DONE_BYTES, OUT_POS and INF keep their
values; when OutAppend fails, the transforms have already updated CHAIN (45 R244, 60 R304). Of OUTF nothing is said: it holds
any value (20 R87; log 5). -/
def Obligations.ChunkStepFailures : Prop :=
  ∀ s : State, s.cph = .running → s.cflags.cancelReq = false → s.doneBytes.toNat < s.dataLen.toNat →
    s.doneBytes.toNat + min s.chunkBytes (s.dataLen.toNat - s.doneBytes.toNat) ≤ s.inf.length →
    (ioAnswer s = false → ∃ t, runSequencer s = .next t ∧ t.cph = .failed ∧ t.cres = .ioFailure ∧ t.evt = .failed ∧
      t.evtseq = s.evtseq + 1 ∧ t.inf = s.inf ∧ t.bound = s.bound ∧
      SameRegs (fun a => oneReg 0x0D a || oneReg 0x0E a || oneReg 0x34 a || oneReg 0x35 a) s t) ∧
    (ioAnswer s = true → ioAnswer (afterIo s) = false → ∃ t, runSequencer s = .next t ∧ t.cph = .failed ∧
      t.cres = .ioFailure ∧ t.evt = .failed ∧ t.evtseq = s.evtseq + 1 ∧ t.inf = s.inf ∧
      t.chain = (chunkTransform (Memory.slice s.inf s.doneBytes.toNat (chunkCount s)) s).2 ∧
      SameRegs (fun a => chainRegs a || oneReg 0x0D a || oneReg 0x0E a || oneReg 0x34 a || oneReg 0x35 a) s t)

/-- The suffix step when encrypting: above 2^45 − 1 bytes the run fails with FileTooLarge and performs no primitive; else the
packed length is transformed in the same chain and appended, FINAL_SIZE is the file's size and the run SUCCEEDED; when the
append fails the run ends with IOFailure (45 R248, R252). -/
def Obligations.EncryptSuffixStep : Prop :=
  ∀ s : State, s.cph = .running → s.cflags.cancelReq = false → s.dataLen.toNat ≤ s.doneBytes.toNat →
    s.cflags.cdir = .enc →
    (2 ^ 45 - 1 < s.inLen.toNat → ∃ t, runSequencer s = .next t ∧ t.cph = .failed ∧ t.cres = .fileTooLarge ∧
      t.evt = .failed ∧ t.evtseq = s.evtseq + 1 ∧
      OnlyRegs (fun a => oneReg 0x0D a || oneReg 0x0E a || oneReg 0x34 a || oneReg 0x35 a) s t) ∧
    (s.inLen.toNat ≤ 2 ^ 45 - 1 → ioAnswer s = true → ∃ t, runSequencer s = .next t ∧ t.cph = .succeeded ∧
      t.cres = .none ∧ t.evt = .succeeded ∧ t.evtseq = s.evtseq + 1 ∧
      Memory.bytes t.outf = Memory.bytes s.outf ++
        (modeXform s.cfg.mode s.cfg.dir s.sk s.chain (packLen s.inLen.toNat)).1.toList ∧
      t.chain = (modeXform s.cfg.mode s.cfg.dir s.sk s.chain (packLen s.inLen.toNat)).2 ∧
      t.outPos = s.outPos + 8 ∧ t.finalSize = t.outPos ∧ t.inf = s.inf ∧
      SameRegs (fun a => chainRegs a || (0x28 ≤ a.toNat && a.toNat < 0x34) || oneReg 0x0D a || oneReg 0x0E a ||
        oneReg 0x34 a || oneReg 0x35 a) s t) ∧
    (s.inLen.toNat ≤ 2 ^ 45 - 1 → ioAnswer s = false → ∃ t, runSequencer s = .next t ∧ t.cph = .failed ∧
      t.cres = .ioFailure ∧ t.evt = .failed ∧ t.evtseq = s.evtseq + 1 ∧ t.inf = s.inf ∧
      t.chain = (modeXform s.cfg.mode s.cfg.dir s.sk s.chain (packLen s.inLen.toNat)).2 ∧
      SameRegs (fun a => chainRegs a || oneReg 0x0D a || oneReg 0x0E a || oneReg 0x34 a || oneReg 0x35 a) s t)

/-- The addresses the end of a run writes: CPH, CRES, EVT and EVTSEQ. -/
def Sys2Proof.Machine.outcomeRegs (a : RegAddr) : Bool :=
  oneReg 0x0D a || oneReg 0x0E a || oneReg 0x34 a || oneReg 0x35 a

/-- A run's end in a failure: FAILED with the code and the event FAILED (60 R304). -/
def Sys2Proof.Machine.RunFailed (code : ErrorCode) (s t : State) : Prop :=
  t.cph = .failed ∧ t.cres = code ∧ t.evt = .failed ∧ t.evtseq = s.evtseq + 1

/-- The suffix step when decrypting. A failed InRead ends the run with IOFailure, CHAIN kept. Otherwise the trailing block goes
through the mode, which updates CHAIN: a suffix that does not unpack, or whose length is outside max(0, DATA_LEN − 7) ..
DATA_LEN, is MalformedCryptogram, OUTF kept; an accepted length L truncates OUTF to L bytes when L < OUT_LEN, a failed
OutTruncate ending the run with IOFailure, and else FINAL_SIZE is L and the run SUCCEEDED. Nothing else of the registers changes
(45 R249, R250, R251, R252, 60 R304, R309). -/
def Obligations.DecryptSuffixStep : Prop :=
  ∀ (s : State) (last : Block), Inv s → s.cph = .running → s.cflags.cancelReq = false →
    s.dataLen.toNat ≤ s.doneBytes.toNat → s.cflags.cdir = .dec →
    last.toList = ((Memory.bytes s.inf).drop s.dataLen.toNat).take 8 →
    (ioAnswer s = false → ∃ t, runSequencer s = .next t ∧ RunFailed .ioFailure s t ∧ t.inf = s.inf ∧
      SameRegs outcomeRegs s t) ∧
    (ioAnswer s = true → ∀ l, unpackLen (modeXform s.cfg.mode s.cfg.dir s.sk s.chain last).1 = some l →
      l ≤ s.dataLen.toNat → s.dataLen.toNat ≤ l + 7 → (l < s.outLen.toNat → ioAnswer (afterIo s) = true) →
      ∃ t, runSequencer s = .next t ∧ t.cph = .succeeded ∧ t.cres = .none ∧ t.evt = .succeeded ∧
        t.evtseq = s.evtseq + 1 ∧
        t.finalSize.toNat = l ∧ Memory.bytes t.outf = (Memory.bytes s.outf).take l ∧
        (∀ a, a < l → Memory.read t.outf a = Memory.read s.outf a) ∧ t.outf.length = l ∧
        t.chain = (modeXform s.cfg.mode s.cfg.dir s.sk s.chain last).2 ∧ t.inf = s.inf ∧
        SameRegs (fun a => chainRegs a || (0x2C ≤ a.toNat && a.toNat < 0x34) || outcomeRegs a) s t) ∧
    (ioAnswer s = true → ∀ l, unpackLen (modeXform s.cfg.mode s.cfg.dir s.sk s.chain last).1 = some l →
      l ≤ s.dataLen.toNat → s.dataLen.toNat ≤ l + 7 → l < s.outLen.toNat → ioAnswer (afterIo s) = false →
      ∃ t, runSequencer s = .next t ∧ RunFailed .ioFailure s t ∧ t.inf = s.inf ∧
        t.chain = (modeXform s.cfg.mode s.cfg.dir s.sk s.chain last).2 ∧
        SameRegs (fun a => chainRegs a || outcomeRegs a) s t) ∧
    (ioAnswer s = true → (unpackLen (modeXform s.cfg.mode s.cfg.dir s.sk s.chain last).1 = none ∨
      ∃ l, unpackLen (modeXform s.cfg.mode s.cfg.dir s.sk s.chain last).1 = some l ∧
        ¬(l ≤ s.dataLen.toNat ∧ s.dataLen.toNat ≤ l + 7)) →
      ∃ t, runSequencer s = .next t ∧ RunFailed .malformedCryptogram s t ∧ t.outf = s.outf ∧ t.inf = s.inf ∧
        t.chain = (modeXform s.cfg.mode s.cfg.dir s.sk s.chain last).2 ∧
        SameRegs (fun a => chainRegs a || outcomeRegs a) s t)

/-- KEY, KEYV, KDIDX, ACC, CMDERR and BLK are never written by a run: neither CSTART nor any sequencer step changes what they
read, and INF keeps its bytes (45 R232, 10 R31, 20 R76). -/
def Obligations.RunNeverWritesHostRegisters : Prop :=
  ∀ s t : State,
    (runSequencer s = .next t → SameRegs runRegs s t ∧ t.inf = s.inf ∧ t.sk = s.sk ∧ t.cfg = s.cfg) ∧
    ∀ (d : Dir) (m : Mode), s.cph ≠ .running → exec (.cstart d m) s = .next t → SameRegs runRegs s t ∧ t.inf = s.inf

/-- No rule of the core reads OUTF: two states of the invariant that differ in OUTF alone take steps to states that differ in
OUTF alone (20 R64, R88). -/
def Obligations.OutputFileIsNeverRead : Prop :=
  ∀ (s t : State) (o : Memory), Inv s → Inv (setOutput o s) → step s = .next t →
    ∃ o', step (setOutput o s) = .next (setOutput o' t)

/-! ## The invariant and whole runs -/

/-- The invariant holds at reset. -/
def Obligations.ResetMeetsInvariant : Prop := Inv State.reset

/-- Every step keeps the invariant, from every state that meets it: the files stay in canonical form, DONE_BYTES ≤ DATA_LEN,
CRES and EVT agree with CPH, FINAL_SIZE and ELAPSED are 0 but after a success, and while RUNNING the key is complete, SK is
the run's schedule, OUT_POS is OUTF's length, and the lengths and the chunk position are as the codec's rules set them. -/
def Obligations.StepKeepsInvariant : Prop :=
  ∀ s t : State, Inv s → step s = .next t → Inv t

/-- From a state of the invariant no step faults: no InRead leaves the file and no OutTruncate is above the file's length (20
R66, R68, 45 R251). -/
def Obligations.StepNeverFaults : Prop :=
  ∀ (s : State) (f : Fault), Inv s → step s ≠ .fault f

/-- A step is refused only when the host binds files during a run (20 R84) or a CSTART opens a file of 2^63 bytes or more
(U13). -/
def Obligations.StepRefusesOnlyOutsideTheModel : Prop :=
  ∀ (s : State) (r : Refusal), step s = .refused r →
    (r = .hostDutyBroken ∧ s.cph = .running ∧
      ∃ rest, (∃ x y, s.agenda = .bind x y :: rest) ∨ s.agenda = .unbind :: rest) ∨
    (r = .fileOverLengthRegisters ∧ s.cph ≠ .running ∧ s.bound = true ∧ 2 ^ 63 ≤ s.inf.length ∧
      ∃ w rest d m, s.agenda = .command w :: rest ∧ decode w = .ok (.cstart d m))

/-- Every run ends: from a state of the invariant with CPH = RUNNING, at most one sequencer step per chunk still to come and
one more lead to a terminal phase, whatever the oracle answers (45 R256). -/
def Obligations.RunEndsWithinStepCount : Prop :=
  ∀ s : State, Inv s → s.cph = .running →
    ∃ k t, k ≤ chunkSteps s (s.dataLen.toNat - s.doneBytes.toNat) + 1 ∧ seqRun k s = .next t ∧
      (t.cph = .succeeded ∨ t.cph = .failed ∨ t.cph = .cancelled)

/-- An encrypt run whose primitives all succeed takes ceil(IN_LEN / CHUNK_BYTES) chunk steps and one suffix step and leaves the
cryptogram: the transformed zero-padded data blocks, then the transformed length suffix in the same chain; FINAL_SIZE =
|OUTF| = roundup8(IN_LEN) + 8 (45 R253, R254, R256). -/
def Obligations.EncryptRunWritesCryptogram : Prop :=
  ∀ (m : Mode) (s : State), s.cph ≠ .running → s.bound = true → s.keyv = 0xFF → s.inf.length ≤ 2 ^ 45 - 1 →
    ioSucceeds (2 * chunkSteps s s.inf.length + 2) s →
    ∃ t, codecRun .enc m (chunkSteps s s.inf.length + 1) s = .next t ∧ t.cph = .succeeded ∧
      Memory.bytes t.outf = cryptogram m s.key (Memory.bytes s.inf) ∧
      t.finalSize.toNat = t.outf.length ∧ t.outf.length = 8 * ((s.inf.length + 7) / 8) + 8

/-- A decrypt run whose primitives all succeed leaves the recovered plaintext, FINAL_SIZE its length, or ends with
MalformedCryptogram (45 R249 to R251, R254, R256). -/
def Obligations.DecryptRunRecoversPlaintext : Prop :=
  ∀ (m : Mode) (s : State), s.cph ≠ .running → s.bound = true → s.keyv = 0xFF → s.inf.length < 2 ^ 63 →
    s.inf.length ≠ 0 → s.inf.length % 8 = 0 → ioSucceeds (2 * chunkSteps s (s.inf.length - 8) + 3) s →
    ∃ t, codecRun .dec m (chunkSteps s (s.inf.length - 8) + 1) s = .next t ∧
      (∀ p, plaintextOf m s.key (Memory.bytes s.inf) = some p →
        t.cph = .succeeded ∧ Memory.bytes t.outf = p ∧ t.finalSize.toNat = p.length) ∧
      (plaintextOf m s.key (Memory.bytes s.inf) = none → t.cph = .failed ∧ t.cres = .malformedCryptogram)

/-- The codec's round trip: decrypting the cryptogram of a file of at most 2^45 − 1 bytes, in the same mode and with the same
key, gives exactly the file, the empty file included (45 R262). -/
def Obligations.CryptogramRoundTrip : Prop :=
  ∀ (m : Mode) (k : Key) (p : List Byte), p.length ≤ 2 ^ 45 - 1 → plaintextOf m k (cryptogram m k p) = some p

/-- A successful encrypt run, then a decrypt run with the same KEY and mode whose INF is the first run's OUTF: the second
succeeds and its OUTF holds the first run's INF (45 R262). The two states may differ in everything else, CHUNK_BYTES
included. -/
def Obligations.FileRoundTrip : Prop :=
  ∀ (m : Mode) (s t u : State), s.cph ≠ .running → s.bound = true → s.keyv = 0xFF → s.inf.length ≤ 2 ^ 45 - 1 →
    ioSucceeds (2 * chunkSteps s s.inf.length + 2) s →
    codecRun .enc m (chunkSteps s s.inf.length + 1) s = .next t →
    u.cph ≠ .running → u.bound = true → u.keyv = 0xFF → u.key = s.key → u.inf = t.outf →
    ioSucceeds (2 * chunkSteps u (u.inf.length - 8) + 3) u →
    ∃ v, codecRun .dec m (chunkSteps u (u.inf.length - 8) + 1) u = .next v ∧ v.cph = .succeeded ∧
      Memory.bytes v.outf = Memory.bytes s.inf

/-- The output of a run does not depend on CHUNK_BYTES: the same encrypt run, or the same decrypt run, under two values of the
parameter and with primitives that all succeed, ends with the same outcome, OUTF, FINAL_SIZE and CHAIN (45 R261). -/
def Obligations.ChunkSizeDoesNotMatter : Prop :=
  ∀ (m : Mode) (s s' : State), s' = { s with chunkBlocks := s'.chunkBlocks, ioScript := s'.ioScript } →
    s.cph ≠ .running → s.bound = true → s.keyv = 0xFF →
    (∀ t t' : State, s.inf.length ≤ 2 ^ 45 - 1 →
      ioSucceeds (2 * chunkSteps s s.inf.length + 2) s → ioSucceeds (2 * chunkSteps s' s'.inf.length + 2) s' →
      codecRun .enc m (chunkSteps s s.inf.length + 1) s = .next t →
      codecRun .enc m (chunkSteps s' s'.inf.length + 1) s' = .next t' →
      t'.cph = t.cph ∧ t'.cres = t.cres ∧
        Memory.bytes t'.outf = Memory.bytes t.outf ∧ t'.finalSize = t.finalSize ∧ t'.chain = t.chain) ∧
    (∀ t t' : State, s.inf.length < 2 ^ 63 → s.inf.length ≠ 0 → s.inf.length % 8 = 0 →
      ioSucceeds (2 * chunkSteps s (s.inf.length - 8) + 3) s →
      ioSucceeds (2 * chunkSteps s' (s'.inf.length - 8) + 3) s' →
      codecRun .dec m (chunkSteps s (s.inf.length - 8) + 1) s = .next t →
      codecRun .dec m (chunkSteps s' (s'.inf.length - 8) + 1) s' = .next t' →
      t'.cph = t.cph ∧ t'.cres = t.cres ∧
        Memory.bytes t'.outf = Memory.bytes t.outf ∧ t'.finalSize = t.finalSize ∧ t'.chain = t.chain)
end

