-- ==== Sys2Proof/Laws/Memory.lean ====
section
/-! SUPPORT. The file store: every operation keeps the canonical form, reads after appends and truncates, and the byte
sequence each operation leaves (20 R66 to R68). -/

namespace Sys2Proof.Machine

theorem Memory.ofBytesFrom_length (bs : List Byte) : ∀ start, (Memory.ofBytesFrom start bs).length = bs.length := by
  induction bs with
  | nil => intro; rfl
  | cons b bs ih => intro start; simp [Memory.ofBytesFrom, ih]

theorem Memory.ofBytesFrom_fst (bs : List Byte) :
    ∀ start, (Memory.ofBytesFrom start bs).map Prod.fst = List.range' start bs.length := by
  induction bs with
  | nil => intro; rfl
  | cons b bs ih => intro start; simp [Memory.ofBytesFrom, ih, List.range'_succ]

theorem Memory.ofBytesFrom_snd (bs : List Byte) : ∀ start, (Memory.ofBytesFrom start bs).map Prod.snd = bs := by
  induction bs with
  | nil => intro; rfl
  | cons b bs ih => intro start; simp [Memory.ofBytesFrom, ih]

@[simp] theorem Memory.ofBytes_length (bs : List Byte) : (Memory.ofBytes bs).length = bs.length :=
  Memory.ofBytesFrom_length bs 0

@[simp] theorem Memory.bytes_length (m : Memory) : (Memory.bytes m).length = m.length := by simp [Memory.bytes]

@[simp] theorem Memory.bytes_nil : Memory.bytes [] = [] := rfl

/-- A file holds the bytes it was made from. -/
@[simp] theorem Memory.bytes_ofBytes (bs : List Byte) : Memory.bytes (Memory.ofBytes bs) = bs :=
  Memory.ofBytesFrom_snd bs 0

/-- The bytes after an append (20 R67). -/
@[simp] theorem Memory.bytes_append (m : Memory) (v : List Byte) :
    Memory.bytes (Memory.append m v) = Memory.bytes m ++ v := by
  simp [Memory.bytes, Memory.append, Memory.ofBytesFrom_snd]

@[simp] theorem Memory.append_length (m : Memory) (v : List Byte) :
    (Memory.append m v).length = m.length + v.length := by
  simp [Memory.append, Memory.ofBytesFrom_length]

/-- The bytes after a truncate (20 R68). -/
@[simp] theorem Memory.bytes_truncate (m : Memory) (l : Nat) :
    Memory.bytes (Memory.truncate m l) = (Memory.bytes m).take l := by
  simp [Memory.bytes, Memory.truncate]

@[simp] theorem Memory.truncate_length (m : Memory) (l : Nat) : (Memory.truncate m l).length = min l m.length := by
  simp [Memory.truncate]

/-- The bytes a read inside the file returns (20 R66). -/
theorem Memory.slice_eq (m : Memory) (pos n : Nat) :
    Memory.slice m pos n = ((Memory.bytes m).drop pos).take n := by
  simp [Memory.slice, Memory.bytes, List.map_drop]

theorem Memory.slice_length (m : Memory) (pos n : Nat) (h : pos + n ≤ m.length) : (Memory.slice m pos n).length = n := by
  simp [Memory.slice_eq]; omega

/-! ## The canonical form -/

theorem Memory.wf_nil : Memory.wf [] := by simp [Memory.wf]

theorem Memory.wf_ofBytes (bs : List Byte) : Memory.wf (Memory.ofBytes bs) := by
  simp [Memory.wf, Memory.ofBytes, Memory.ofBytesFrom_fst, Memory.ofBytesFrom_length, List.range_eq_range']

theorem Memory.wf_append (m : Memory) (v : List Byte) (h : Memory.wf m) : Memory.wf (Memory.append m v) := by
  simp only [Memory.wf, Memory.append, List.map_append, Memory.ofBytesFrom_fst, List.length_append,
    Memory.ofBytesFrom_length] at h ⊢
  have e := List.range'_append (s := 0) (m := m.length) (n := v.length) (step := 1)
  simp only [Nat.zero_add, Nat.one_mul] at e
  rw [h, List.range_eq_range', List.range_eq_range', e]

theorem Memory.wf_truncate (m : Memory) (l : Nat) (h : Memory.wf m) : Memory.wf (Memory.truncate m l) := by
  simp only [Memory.wf, Memory.truncate, List.map_take, List.length_take] at h ⊢
  rw [h, List.take_range]

/-- The files of the state after reset are in canonical form. -/
theorem State.reset_files_wf : Memory.wf State.reset.inf ∧ Memory.wf State.reset.outf := ⟨Memory.wf_nil, Memory.wf_nil⟩

/-- What a failed primitive leaves in OUTF is in canonical form (20 R67 to R69). -/
theorem loseOutput_wf (s : State) : Memory.wf (loseOutput s).outf := Memory.wf_ofBytes _

/-- An open leaves both files in canonical form (20 R69). -/
theorem opened_wf (s : State) (h : Memory.wf s.inf) : Memory.wf (opened s).inf ∧ Memory.wf (opened s).outf :=
  ⟨h, Memory.wf_nil⟩

/-- A canonical file is determined by its bytes. -/
theorem Memory.eq_ofBytes (m : Memory) (h : Memory.wf m) : m = Memory.ofBytes (Memory.bytes m) := by
  have hf : (Memory.ofBytes (Memory.bytes m)).map Prod.fst = m.map Prod.fst := by
    rw [h, Memory.wf_ofBytes (Memory.bytes m)]; simp
  have hs : (Memory.ofBytes (Memory.bytes m)).map Prod.snd = m.map Prod.snd := Memory.bytes_ofBytes (Memory.bytes m)
  apply List.ext_getElem (by simp)
  intro i h1 h2
  refine Prod.ext ?_ ?_
  · have := congrArg (fun l => l[i]?) hf
    simpa [h1, h2] using this.symm
  · have := congrArg (fun l => l[i]?) hs
    simpa [h1, h2] using this.symm

/-! ## The read of one byte -/

theorem Memory.read_ofBytesFrom (bs : List Byte) :
    ∀ start a, Memory.read (Memory.ofBytesFrom start bs) a = if start ≤ a then bs[a - start]? else none := by
  induction bs with
  | nil => intro start a; simp [Memory.ofBytesFrom, Memory.read]
  | cons b bs ih =>
    intro start a
    have h := ih (start + 1) a
    by_cases heq : start = a
    · subst heq; simp [Memory.ofBytesFrom, Memory.read]
    · have hne : (start == a) = false := by simpa using heq
      simp only [Memory.read, Memory.ofBytesFrom, List.find?_cons, hne] at h ⊢
      rw [h]
      by_cases hle : start ≤ a
      · have e : a - start = (a - (start + 1)) + 1 := by omega
        rw [if_pos (by omega), if_pos hle, e, List.getElem?_cons_succ]
      · rw [if_neg (by omega), if_neg hle]

/-- The byte at an offset of the file that holds a byte sequence. -/
@[simp] theorem Memory.read_ofBytes (bs : List Byte) (a : Nat) : Memory.read (Memory.ofBytes bs) a = bs[a]? := by
  simp [Memory.ofBytes, Memory.read_ofBytesFrom]

/-- The byte at an offset of a canonical file. -/
theorem Memory.read_eq (m : Memory) (h : Memory.wf m) (a : Nat) : Memory.read m a = (Memory.bytes m)[a]? := by
  conv_lhs => rw [Memory.eq_ofBytes m h]
  simp

theorem Memory.read_append (m : Memory) (v : List Byte) (h : Memory.wf m) (a : Nat) :
    Memory.read (Memory.append m v) a = if a < m.length then Memory.read m a else v[a - m.length]? := by
  rw [Memory.read_eq _ (Memory.wf_append m v h), Memory.read_eq m h, Memory.bytes_append, List.getElem?_append]
  simp

theorem Memory.read_truncate (m : Memory) (l : Nat) (h : Memory.wf m) (a : Nat) :
    Memory.read (Memory.truncate m l) a = if a < l then Memory.read m a else none := by
  rw [Memory.read_eq _ (Memory.wf_truncate m l h), Memory.read_eq m h, Memory.bytes_truncate, List.getElem?_take]

end Sys2Proof.Machine
end

