-- ==== Sys2Proof/Laws/State.lean ====
section
/-! SUPPORT. Every named update of the state, field by field: one lemma per field, true by `rfl`, so that no proof unfolds a
record update. -/

namespace Sys2Proof.Machine

/-! ### setKey -/

@[simp] theorem setKey_key (k : Key) (v : BitVec 8) (n : Fin 16) (s : State) : (setKey k v n s).key = k := rfl
@[simp] theorem setKey_keyv (k : Key) (v : BitVec 8) (n : Fin 16) (s : State) : (setKey k v n s).keyv = v := rfl
@[simp] theorem setKey_kdidx (k : Key) (v : BitVec 8) (n : Fin 16) (s : State) : (setKey k v n s).kdidx = n := rfl
@[simp] theorem setKey_cfg (k : Key) (v : BitVec 8) (n : Fin 16) (s : State) : (setKey k v n s).cfg = s.cfg := rfl
@[simp] theorem setKey_acc (k : Key) (v : BitVec 8) (n : Fin 16) (s : State) : (setKey k v n s).acc = s.acc := rfl
@[simp] theorem setKey_cmderr (k : Key) (v : BitVec 8) (n : Fin 16) (s : State) : (setKey k v n s).cmderr = s.cmderr := rfl
@[simp] theorem setKey_cph (k : Key) (v : BitVec 8) (n : Fin 16) (s : State) : (setKey k v n s).cph = s.cph := rfl
@[simp] theorem setKey_cres (k : Key) (v : BitVec 8) (n : Fin 16) (s : State) : (setKey k v n s).cres = s.cres := rfl
@[simp] theorem setKey_cflags (k : Key) (v : BitVec 8) (n : Fin 16) (s : State) : (setKey k v n s).cflags = s.cflags := rfl
@[simp] theorem setKey_blk (k : Key) (v : BitVec 8) (n : Fin 16) (s : State) : (setKey k v n s).blk = s.blk := rfl
@[simp] theorem setKey_chain (k : Key) (v : BitVec 8) (n : Fin 16) (s : State) : (setKey k v n s).chain = s.chain := rfl
@[simp] theorem setKey_sk (k : Key) (v : BitVec 8) (n : Fin 16) (s : State) : (setKey k v n s).sk = s.sk := rfl
@[simp] theorem setKey_inLen (k : Key) (v : BitVec 8) (n : Fin 16) (s : State) : (setKey k v n s).inLen = s.inLen := rfl
@[simp] theorem setKey_dataLen (k : Key) (v : BitVec 8) (n : Fin 16) (s : State) : (setKey k v n s).dataLen = s.dataLen := rfl
@[simp] theorem setKey_outLen (k : Key) (v : BitVec 8) (n : Fin 16) (s : State) : (setKey k v n s).outLen = s.outLen := rfl
@[simp] theorem setKey_doneBytes (k : Key) (v : BitVec 8) (n : Fin 16) (s : State) : (setKey k v n s).doneBytes = s.doneBytes := rfl
@[simp] theorem setKey_outPos (k : Key) (v : BitVec 8) (n : Fin 16) (s : State) : (setKey k v n s).outPos = s.outPos := rfl
@[simp] theorem setKey_finalSize (k : Key) (v : BitVec 8) (n : Fin 16) (s : State) : (setKey k v n s).finalSize = s.finalSize := rfl
@[simp] theorem setKey_elapsed (k : Key) (v : BitVec 8) (n : Fin 16) (s : State) : (setKey k v n s).elapsed = s.elapsed := rfl
@[simp] theorem setKey_evt (k : Key) (v : BitVec 8) (n : Fin 16) (s : State) : (setKey k v n s).evt = s.evt := rfl
@[simp] theorem setKey_evtseq (k : Key) (v : BitVec 8) (n : Fin 16) (s : State) : (setKey k v n s).evtseq = s.evtseq := rfl
@[simp] theorem setKey_chunkBuf (k : Key) (v : BitVec 8) (n : Fin 16) (s : State) : (setKey k v n s).chunkBuf = s.chunkBuf := rfl
@[simp] theorem setKey_inf (k : Key) (v : BitVec 8) (n : Fin 16) (s : State) : (setKey k v n s).inf = s.inf := rfl
@[simp] theorem setKey_outf (k : Key) (v : BitVec 8) (n : Fin 16) (s : State) : (setKey k v n s).outf = s.outf := rfl
@[simp] theorem setKey_bound (k : Key) (v : BitVec 8) (n : Fin 16) (s : State) : (setKey k v n s).bound = s.bound := rfl
@[simp] theorem setKey_chunkBlocks (k : Key) (v : BitVec 8) (n : Fin 16) (s : State) : (setKey k v n s).chunkBlocks = s.chunkBlocks := rfl
@[simp] theorem setKey_agenda (k : Key) (v : BitVec 8) (n : Fin 16) (s : State) : (setKey k v n s).agenda = s.agenda := rfl
@[simp] theorem setKey_ioScript (k : Key) (v : BitVec 8) (n : Fin 16) (s : State) : (setKey k v n s).ioScript = s.ioScript := rfl
@[simp] theorem setKey_draws (k : Key) (v : BitVec 8) (n : Fin 16) (s : State) : (setKey k v n s).draws = s.draws := rfl
@[simp] theorem setKey_reply (k : Key) (v : BitVec 8) (n : Fin 16) (s : State) : (setKey k v n s).reply = s.reply := rfl

/-! ### setCmderr -/

@[simp] theorem setCmderr_key (c : ErrorCode) (s : State) : (setCmderr c s).key = s.key := rfl
@[simp] theorem setCmderr_keyv (c : ErrorCode) (s : State) : (setCmderr c s).keyv = s.keyv := rfl
@[simp] theorem setCmderr_kdidx (c : ErrorCode) (s : State) : (setCmderr c s).kdidx = s.kdidx := rfl
@[simp] theorem setCmderr_cfg (c : ErrorCode) (s : State) : (setCmderr c s).cfg = s.cfg := rfl
@[simp] theorem setCmderr_acc (c : ErrorCode) (s : State) : (setCmderr c s).acc = s.acc := rfl
@[simp] theorem setCmderr_cmderr (c : ErrorCode) (s : State) : (setCmderr c s).cmderr = c := rfl
@[simp] theorem setCmderr_cph (c : ErrorCode) (s : State) : (setCmderr c s).cph = s.cph := rfl
@[simp] theorem setCmderr_cres (c : ErrorCode) (s : State) : (setCmderr c s).cres = s.cres := rfl
@[simp] theorem setCmderr_cflags (c : ErrorCode) (s : State) : (setCmderr c s).cflags = s.cflags := rfl
@[simp] theorem setCmderr_blk (c : ErrorCode) (s : State) : (setCmderr c s).blk = s.blk := rfl
@[simp] theorem setCmderr_chain (c : ErrorCode) (s : State) : (setCmderr c s).chain = s.chain := rfl
@[simp] theorem setCmderr_sk (c : ErrorCode) (s : State) : (setCmderr c s).sk = s.sk := rfl
@[simp] theorem setCmderr_inLen (c : ErrorCode) (s : State) : (setCmderr c s).inLen = s.inLen := rfl
@[simp] theorem setCmderr_dataLen (c : ErrorCode) (s : State) : (setCmderr c s).dataLen = s.dataLen := rfl
@[simp] theorem setCmderr_outLen (c : ErrorCode) (s : State) : (setCmderr c s).outLen = s.outLen := rfl
@[simp] theorem setCmderr_doneBytes (c : ErrorCode) (s : State) : (setCmderr c s).doneBytes = s.doneBytes := rfl
@[simp] theorem setCmderr_outPos (c : ErrorCode) (s : State) : (setCmderr c s).outPos = s.outPos := rfl
@[simp] theorem setCmderr_finalSize (c : ErrorCode) (s : State) : (setCmderr c s).finalSize = s.finalSize := rfl
@[simp] theorem setCmderr_elapsed (c : ErrorCode) (s : State) : (setCmderr c s).elapsed = s.elapsed := rfl
@[simp] theorem setCmderr_evt (c : ErrorCode) (s : State) : (setCmderr c s).evt = s.evt := rfl
@[simp] theorem setCmderr_evtseq (c : ErrorCode) (s : State) : (setCmderr c s).evtseq = s.evtseq := rfl
@[simp] theorem setCmderr_chunkBuf (c : ErrorCode) (s : State) : (setCmderr c s).chunkBuf = s.chunkBuf := rfl
@[simp] theorem setCmderr_inf (c : ErrorCode) (s : State) : (setCmderr c s).inf = s.inf := rfl
@[simp] theorem setCmderr_outf (c : ErrorCode) (s : State) : (setCmderr c s).outf = s.outf := rfl
@[simp] theorem setCmderr_bound (c : ErrorCode) (s : State) : (setCmderr c s).bound = s.bound := rfl
@[simp] theorem setCmderr_chunkBlocks (c : ErrorCode) (s : State) : (setCmderr c s).chunkBlocks = s.chunkBlocks := rfl
@[simp] theorem setCmderr_agenda (c : ErrorCode) (s : State) : (setCmderr c s).agenda = s.agenda := rfl
@[simp] theorem setCmderr_ioScript (c : ErrorCode) (s : State) : (setCmderr c s).ioScript = s.ioScript := rfl
@[simp] theorem setCmderr_draws (c : ErrorCode) (s : State) : (setCmderr c s).draws = s.draws := rfl
@[simp] theorem setCmderr_reply (c : ErrorCode) (s : State) : (setCmderr c s).reply = s.reply := rfl

/-! ### requestCancel -/

@[simp] theorem requestCancel_key (s : State) : (requestCancel s).key = s.key := rfl
@[simp] theorem requestCancel_keyv (s : State) : (requestCancel s).keyv = s.keyv := rfl
@[simp] theorem requestCancel_kdidx (s : State) : (requestCancel s).kdidx = s.kdidx := rfl
@[simp] theorem requestCancel_cfg (s : State) : (requestCancel s).cfg = s.cfg := rfl
@[simp] theorem requestCancel_acc (s : State) : (requestCancel s).acc = s.acc := rfl
@[simp] theorem requestCancel_cmderr (s : State) : (requestCancel s).cmderr = s.cmderr := rfl
@[simp] theorem requestCancel_cph (s : State) : (requestCancel s).cph = s.cph := rfl
@[simp] theorem requestCancel_cres (s : State) : (requestCancel s).cres = s.cres := rfl
@[simp] theorem requestCancel_cflags (s : State) : (requestCancel s).cflags = { s.cflags with cancelReq := true } := rfl
@[simp] theorem requestCancel_blk (s : State) : (requestCancel s).blk = s.blk := rfl
@[simp] theorem requestCancel_chain (s : State) : (requestCancel s).chain = s.chain := rfl
@[simp] theorem requestCancel_sk (s : State) : (requestCancel s).sk = s.sk := rfl
@[simp] theorem requestCancel_inLen (s : State) : (requestCancel s).inLen = s.inLen := rfl
@[simp] theorem requestCancel_dataLen (s : State) : (requestCancel s).dataLen = s.dataLen := rfl
@[simp] theorem requestCancel_outLen (s : State) : (requestCancel s).outLen = s.outLen := rfl
@[simp] theorem requestCancel_doneBytes (s : State) : (requestCancel s).doneBytes = s.doneBytes := rfl
@[simp] theorem requestCancel_outPos (s : State) : (requestCancel s).outPos = s.outPos := rfl
@[simp] theorem requestCancel_finalSize (s : State) : (requestCancel s).finalSize = s.finalSize := rfl
@[simp] theorem requestCancel_elapsed (s : State) : (requestCancel s).elapsed = s.elapsed := rfl
@[simp] theorem requestCancel_evt (s : State) : (requestCancel s).evt = s.evt := rfl
@[simp] theorem requestCancel_evtseq (s : State) : (requestCancel s).evtseq = s.evtseq := rfl
@[simp] theorem requestCancel_chunkBuf (s : State) : (requestCancel s).chunkBuf = s.chunkBuf := rfl
@[simp] theorem requestCancel_inf (s : State) : (requestCancel s).inf = s.inf := rfl
@[simp] theorem requestCancel_outf (s : State) : (requestCancel s).outf = s.outf := rfl
@[simp] theorem requestCancel_bound (s : State) : (requestCancel s).bound = s.bound := rfl
@[simp] theorem requestCancel_chunkBlocks (s : State) : (requestCancel s).chunkBlocks = s.chunkBlocks := rfl
@[simp] theorem requestCancel_agenda (s : State) : (requestCancel s).agenda = s.agenda := rfl
@[simp] theorem requestCancel_ioScript (s : State) : (requestCancel s).ioScript = s.ioScript := rfl
@[simp] theorem requestCancel_draws (s : State) : (requestCancel s).draws = s.draws := rfl
@[simp] theorem requestCancel_reply (s : State) : (requestCancel s).reply = s.reply := rfl

/-! ### setBlk -/

@[simp] theorem setBlk_key (b : Block) (s : State) : (setBlk b s).key = s.key := rfl
@[simp] theorem setBlk_keyv (b : Block) (s : State) : (setBlk b s).keyv = s.keyv := rfl
@[simp] theorem setBlk_kdidx (b : Block) (s : State) : (setBlk b s).kdidx = s.kdidx := rfl
@[simp] theorem setBlk_cfg (b : Block) (s : State) : (setBlk b s).cfg = s.cfg := rfl
@[simp] theorem setBlk_acc (b : Block) (s : State) : (setBlk b s).acc = s.acc := rfl
@[simp] theorem setBlk_cmderr (b : Block) (s : State) : (setBlk b s).cmderr = s.cmderr := rfl
@[simp] theorem setBlk_cph (b : Block) (s : State) : (setBlk b s).cph = s.cph := rfl
@[simp] theorem setBlk_cres (b : Block) (s : State) : (setBlk b s).cres = s.cres := rfl
@[simp] theorem setBlk_cflags (b : Block) (s : State) : (setBlk b s).cflags = s.cflags := rfl
@[simp] theorem setBlk_blk (b : Block) (s : State) : (setBlk b s).blk = b := rfl
@[simp] theorem setBlk_chain (b : Block) (s : State) : (setBlk b s).chain = s.chain := rfl
@[simp] theorem setBlk_sk (b : Block) (s : State) : (setBlk b s).sk = s.sk := rfl
@[simp] theorem setBlk_inLen (b : Block) (s : State) : (setBlk b s).inLen = s.inLen := rfl
@[simp] theorem setBlk_dataLen (b : Block) (s : State) : (setBlk b s).dataLen = s.dataLen := rfl
@[simp] theorem setBlk_outLen (b : Block) (s : State) : (setBlk b s).outLen = s.outLen := rfl
@[simp] theorem setBlk_doneBytes (b : Block) (s : State) : (setBlk b s).doneBytes = s.doneBytes := rfl
@[simp] theorem setBlk_outPos (b : Block) (s : State) : (setBlk b s).outPos = s.outPos := rfl
@[simp] theorem setBlk_finalSize (b : Block) (s : State) : (setBlk b s).finalSize = s.finalSize := rfl
@[simp] theorem setBlk_elapsed (b : Block) (s : State) : (setBlk b s).elapsed = s.elapsed := rfl
@[simp] theorem setBlk_evt (b : Block) (s : State) : (setBlk b s).evt = s.evt := rfl
@[simp] theorem setBlk_evtseq (b : Block) (s : State) : (setBlk b s).evtseq = s.evtseq := rfl
@[simp] theorem setBlk_chunkBuf (b : Block) (s : State) : (setBlk b s).chunkBuf = s.chunkBuf := rfl
@[simp] theorem setBlk_inf (b : Block) (s : State) : (setBlk b s).inf = s.inf := rfl
@[simp] theorem setBlk_outf (b : Block) (s : State) : (setBlk b s).outf = s.outf := rfl
@[simp] theorem setBlk_bound (b : Block) (s : State) : (setBlk b s).bound = s.bound := rfl
@[simp] theorem setBlk_chunkBlocks (b : Block) (s : State) : (setBlk b s).chunkBlocks = s.chunkBlocks := rfl
@[simp] theorem setBlk_agenda (b : Block) (s : State) : (setBlk b s).agenda = s.agenda := rfl
@[simp] theorem setBlk_ioScript (b : Block) (s : State) : (setBlk b s).ioScript = s.ioScript := rfl
@[simp] theorem setBlk_draws (b : Block) (s : State) : (setBlk b s).draws = s.draws := rfl
@[simp] theorem setBlk_reply (b : Block) (s : State) : (setBlk b s).reply = s.reply := rfl

/-! ### setChain -/

@[simp] theorem setChain_key (b : Block) (s : State) : (setChain b s).key = s.key := rfl
@[simp] theorem setChain_keyv (b : Block) (s : State) : (setChain b s).keyv = s.keyv := rfl
@[simp] theorem setChain_kdidx (b : Block) (s : State) : (setChain b s).kdidx = s.kdidx := rfl
@[simp] theorem setChain_cfg (b : Block) (s : State) : (setChain b s).cfg = s.cfg := rfl
@[simp] theorem setChain_acc (b : Block) (s : State) : (setChain b s).acc = s.acc := rfl
@[simp] theorem setChain_cmderr (b : Block) (s : State) : (setChain b s).cmderr = s.cmderr := rfl
@[simp] theorem setChain_cph (b : Block) (s : State) : (setChain b s).cph = s.cph := rfl
@[simp] theorem setChain_cres (b : Block) (s : State) : (setChain b s).cres = s.cres := rfl
@[simp] theorem setChain_cflags (b : Block) (s : State) : (setChain b s).cflags = s.cflags := rfl
@[simp] theorem setChain_blk (b : Block) (s : State) : (setChain b s).blk = s.blk := rfl
@[simp] theorem setChain_chain (b : Block) (s : State) : (setChain b s).chain = b := rfl
@[simp] theorem setChain_sk (b : Block) (s : State) : (setChain b s).sk = s.sk := rfl
@[simp] theorem setChain_inLen (b : Block) (s : State) : (setChain b s).inLen = s.inLen := rfl
@[simp] theorem setChain_dataLen (b : Block) (s : State) : (setChain b s).dataLen = s.dataLen := rfl
@[simp] theorem setChain_outLen (b : Block) (s : State) : (setChain b s).outLen = s.outLen := rfl
@[simp] theorem setChain_doneBytes (b : Block) (s : State) : (setChain b s).doneBytes = s.doneBytes := rfl
@[simp] theorem setChain_outPos (b : Block) (s : State) : (setChain b s).outPos = s.outPos := rfl
@[simp] theorem setChain_finalSize (b : Block) (s : State) : (setChain b s).finalSize = s.finalSize := rfl
@[simp] theorem setChain_elapsed (b : Block) (s : State) : (setChain b s).elapsed = s.elapsed := rfl
@[simp] theorem setChain_evt (b : Block) (s : State) : (setChain b s).evt = s.evt := rfl
@[simp] theorem setChain_evtseq (b : Block) (s : State) : (setChain b s).evtseq = s.evtseq := rfl
@[simp] theorem setChain_chunkBuf (b : Block) (s : State) : (setChain b s).chunkBuf = s.chunkBuf := rfl
@[simp] theorem setChain_inf (b : Block) (s : State) : (setChain b s).inf = s.inf := rfl
@[simp] theorem setChain_outf (b : Block) (s : State) : (setChain b s).outf = s.outf := rfl
@[simp] theorem setChain_bound (b : Block) (s : State) : (setChain b s).bound = s.bound := rfl
@[simp] theorem setChain_chunkBlocks (b : Block) (s : State) : (setChain b s).chunkBlocks = s.chunkBlocks := rfl
@[simp] theorem setChain_agenda (b : Block) (s : State) : (setChain b s).agenda = s.agenda := rfl
@[simp] theorem setChain_ioScript (b : Block) (s : State) : (setChain b s).ioScript = s.ioScript := rfl
@[simp] theorem setChain_draws (b : Block) (s : State) : (setChain b s).draws = s.draws := rfl
@[simp] theorem setChain_reply (b : Block) (s : State) : (setChain b s).reply = s.reply := rfl

/-! ### setSchedule -/

@[simp] theorem setSchedule_key (z : Schedule) (c : Cfg) (s : State) : (setSchedule z c s).key = s.key := rfl
@[simp] theorem setSchedule_keyv (z : Schedule) (c : Cfg) (s : State) : (setSchedule z c s).keyv = s.keyv := rfl
@[simp] theorem setSchedule_kdidx (z : Schedule) (c : Cfg) (s : State) : (setSchedule z c s).kdidx = s.kdidx := rfl
@[simp] theorem setSchedule_cfg (z : Schedule) (c : Cfg) (s : State) : (setSchedule z c s).cfg = c := rfl
@[simp] theorem setSchedule_acc (z : Schedule) (c : Cfg) (s : State) : (setSchedule z c s).acc = s.acc := rfl
@[simp] theorem setSchedule_cmderr (z : Schedule) (c : Cfg) (s : State) : (setSchedule z c s).cmderr = s.cmderr := rfl
@[simp] theorem setSchedule_cph (z : Schedule) (c : Cfg) (s : State) : (setSchedule z c s).cph = s.cph := rfl
@[simp] theorem setSchedule_cres (z : Schedule) (c : Cfg) (s : State) : (setSchedule z c s).cres = s.cres := rfl
@[simp] theorem setSchedule_cflags (z : Schedule) (c : Cfg) (s : State) : (setSchedule z c s).cflags = s.cflags := rfl
@[simp] theorem setSchedule_blk (z : Schedule) (c : Cfg) (s : State) : (setSchedule z c s).blk = s.blk := rfl
@[simp] theorem setSchedule_chain (z : Schedule) (c : Cfg) (s : State) : (setSchedule z c s).chain = s.chain := rfl
@[simp] theorem setSchedule_sk (z : Schedule) (c : Cfg) (s : State) : (setSchedule z c s).sk = z := rfl
@[simp] theorem setSchedule_inLen (z : Schedule) (c : Cfg) (s : State) : (setSchedule z c s).inLen = s.inLen := rfl
@[simp] theorem setSchedule_dataLen (z : Schedule) (c : Cfg) (s : State) : (setSchedule z c s).dataLen = s.dataLen := rfl
@[simp] theorem setSchedule_outLen (z : Schedule) (c : Cfg) (s : State) : (setSchedule z c s).outLen = s.outLen := rfl
@[simp] theorem setSchedule_doneBytes (z : Schedule) (c : Cfg) (s : State) : (setSchedule z c s).doneBytes = s.doneBytes := rfl
@[simp] theorem setSchedule_outPos (z : Schedule) (c : Cfg) (s : State) : (setSchedule z c s).outPos = s.outPos := rfl
@[simp] theorem setSchedule_finalSize (z : Schedule) (c : Cfg) (s : State) : (setSchedule z c s).finalSize = s.finalSize := rfl
@[simp] theorem setSchedule_elapsed (z : Schedule) (c : Cfg) (s : State) : (setSchedule z c s).elapsed = s.elapsed := rfl
@[simp] theorem setSchedule_evt (z : Schedule) (c : Cfg) (s : State) : (setSchedule z c s).evt = s.evt := rfl
@[simp] theorem setSchedule_evtseq (z : Schedule) (c : Cfg) (s : State) : (setSchedule z c s).evtseq = s.evtseq := rfl
@[simp] theorem setSchedule_chunkBuf (z : Schedule) (c : Cfg) (s : State) : (setSchedule z c s).chunkBuf = s.chunkBuf := rfl
@[simp] theorem setSchedule_inf (z : Schedule) (c : Cfg) (s : State) : (setSchedule z c s).inf = s.inf := rfl
@[simp] theorem setSchedule_outf (z : Schedule) (c : Cfg) (s : State) : (setSchedule z c s).outf = s.outf := rfl
@[simp] theorem setSchedule_bound (z : Schedule) (c : Cfg) (s : State) : (setSchedule z c s).bound = s.bound := rfl
@[simp] theorem setSchedule_chunkBlocks (z : Schedule) (c : Cfg) (s : State) : (setSchedule z c s).chunkBlocks = s.chunkBlocks := rfl
@[simp] theorem setSchedule_agenda (z : Schedule) (c : Cfg) (s : State) : (setSchedule z c s).agenda = s.agenda := rfl
@[simp] theorem setSchedule_ioScript (z : Schedule) (c : Cfg) (s : State) : (setSchedule z c s).ioScript = s.ioScript := rfl
@[simp] theorem setSchedule_draws (z : Schedule) (c : Cfg) (s : State) : (setSchedule z c s).draws = s.draws := rfl
@[simp] theorem setSchedule_reply (z : Schedule) (c : Cfg) (s : State) : (setSchedule z c s).reply = s.reply := rfl

/-! ### setDataLen -/

@[simp] theorem setDataLen_key (d o : Len) (s : State) : (setDataLen d o s).key = s.key := rfl
@[simp] theorem setDataLen_keyv (d o : Len) (s : State) : (setDataLen d o s).keyv = s.keyv := rfl
@[simp] theorem setDataLen_kdidx (d o : Len) (s : State) : (setDataLen d o s).kdidx = s.kdidx := rfl
@[simp] theorem setDataLen_cfg (d o : Len) (s : State) : (setDataLen d o s).cfg = s.cfg := rfl
@[simp] theorem setDataLen_acc (d o : Len) (s : State) : (setDataLen d o s).acc = s.acc := rfl
@[simp] theorem setDataLen_cmderr (d o : Len) (s : State) : (setDataLen d o s).cmderr = s.cmderr := rfl
@[simp] theorem setDataLen_cph (d o : Len) (s : State) : (setDataLen d o s).cph = s.cph := rfl
@[simp] theorem setDataLen_cres (d o : Len) (s : State) : (setDataLen d o s).cres = s.cres := rfl
@[simp] theorem setDataLen_cflags (d o : Len) (s : State) : (setDataLen d o s).cflags = s.cflags := rfl
@[simp] theorem setDataLen_blk (d o : Len) (s : State) : (setDataLen d o s).blk = s.blk := rfl
@[simp] theorem setDataLen_chain (d o : Len) (s : State) : (setDataLen d o s).chain = s.chain := rfl
@[simp] theorem setDataLen_sk (d o : Len) (s : State) : (setDataLen d o s).sk = s.sk := rfl
@[simp] theorem setDataLen_inLen (d o : Len) (s : State) : (setDataLen d o s).inLen = s.inLen := rfl
@[simp] theorem setDataLen_dataLen (d o : Len) (s : State) : (setDataLen d o s).dataLen = d := rfl
@[simp] theorem setDataLen_outLen (d o : Len) (s : State) : (setDataLen d o s).outLen = o := rfl
@[simp] theorem setDataLen_doneBytes (d o : Len) (s : State) : (setDataLen d o s).doneBytes = s.doneBytes := rfl
@[simp] theorem setDataLen_outPos (d o : Len) (s : State) : (setDataLen d o s).outPos = s.outPos := rfl
@[simp] theorem setDataLen_finalSize (d o : Len) (s : State) : (setDataLen d o s).finalSize = s.finalSize := rfl
@[simp] theorem setDataLen_elapsed (d o : Len) (s : State) : (setDataLen d o s).elapsed = s.elapsed := rfl
@[simp] theorem setDataLen_evt (d o : Len) (s : State) : (setDataLen d o s).evt = s.evt := rfl
@[simp] theorem setDataLen_evtseq (d o : Len) (s : State) : (setDataLen d o s).evtseq = s.evtseq := rfl
@[simp] theorem setDataLen_chunkBuf (d o : Len) (s : State) : (setDataLen d o s).chunkBuf = s.chunkBuf := rfl
@[simp] theorem setDataLen_inf (d o : Len) (s : State) : (setDataLen d o s).inf = s.inf := rfl
@[simp] theorem setDataLen_outf (d o : Len) (s : State) : (setDataLen d o s).outf = s.outf := rfl
@[simp] theorem setDataLen_bound (d o : Len) (s : State) : (setDataLen d o s).bound = s.bound := rfl
@[simp] theorem setDataLen_chunkBlocks (d o : Len) (s : State) : (setDataLen d o s).chunkBlocks = s.chunkBlocks := rfl
@[simp] theorem setDataLen_agenda (d o : Len) (s : State) : (setDataLen d o s).agenda = s.agenda := rfl
@[simp] theorem setDataLen_ioScript (d o : Len) (s : State) : (setDataLen d o s).ioScript = s.ioScript := rfl
@[simp] theorem setDataLen_draws (d o : Len) (s : State) : (setDataLen d o s).draws = s.draws := rfl
@[simp] theorem setDataLen_reply (d o : Len) (s : State) : (setDataLen d o s).reply = s.reply := rfl

/-! ### setFinalSize -/

@[simp] theorem setFinalSize_key (v : Len) (s : State) : (setFinalSize v s).key = s.key := rfl
@[simp] theorem setFinalSize_keyv (v : Len) (s : State) : (setFinalSize v s).keyv = s.keyv := rfl
@[simp] theorem setFinalSize_kdidx (v : Len) (s : State) : (setFinalSize v s).kdidx = s.kdidx := rfl
@[simp] theorem setFinalSize_cfg (v : Len) (s : State) : (setFinalSize v s).cfg = s.cfg := rfl
@[simp] theorem setFinalSize_acc (v : Len) (s : State) : (setFinalSize v s).acc = s.acc := rfl
@[simp] theorem setFinalSize_cmderr (v : Len) (s : State) : (setFinalSize v s).cmderr = s.cmderr := rfl
@[simp] theorem setFinalSize_cph (v : Len) (s : State) : (setFinalSize v s).cph = s.cph := rfl
@[simp] theorem setFinalSize_cres (v : Len) (s : State) : (setFinalSize v s).cres = s.cres := rfl
@[simp] theorem setFinalSize_cflags (v : Len) (s : State) : (setFinalSize v s).cflags = s.cflags := rfl
@[simp] theorem setFinalSize_blk (v : Len) (s : State) : (setFinalSize v s).blk = s.blk := rfl
@[simp] theorem setFinalSize_chain (v : Len) (s : State) : (setFinalSize v s).chain = s.chain := rfl
@[simp] theorem setFinalSize_sk (v : Len) (s : State) : (setFinalSize v s).sk = s.sk := rfl
@[simp] theorem setFinalSize_inLen (v : Len) (s : State) : (setFinalSize v s).inLen = s.inLen := rfl
@[simp] theorem setFinalSize_dataLen (v : Len) (s : State) : (setFinalSize v s).dataLen = s.dataLen := rfl
@[simp] theorem setFinalSize_outLen (v : Len) (s : State) : (setFinalSize v s).outLen = s.outLen := rfl
@[simp] theorem setFinalSize_doneBytes (v : Len) (s : State) : (setFinalSize v s).doneBytes = s.doneBytes := rfl
@[simp] theorem setFinalSize_outPos (v : Len) (s : State) : (setFinalSize v s).outPos = s.outPos := rfl
@[simp] theorem setFinalSize_finalSize (v : Len) (s : State) : (setFinalSize v s).finalSize = v := rfl
@[simp] theorem setFinalSize_elapsed (v : Len) (s : State) : (setFinalSize v s).elapsed = s.elapsed := rfl
@[simp] theorem setFinalSize_evt (v : Len) (s : State) : (setFinalSize v s).evt = s.evt := rfl
@[simp] theorem setFinalSize_evtseq (v : Len) (s : State) : (setFinalSize v s).evtseq = s.evtseq := rfl
@[simp] theorem setFinalSize_chunkBuf (v : Len) (s : State) : (setFinalSize v s).chunkBuf = s.chunkBuf := rfl
@[simp] theorem setFinalSize_inf (v : Len) (s : State) : (setFinalSize v s).inf = s.inf := rfl
@[simp] theorem setFinalSize_outf (v : Len) (s : State) : (setFinalSize v s).outf = s.outf := rfl
@[simp] theorem setFinalSize_bound (v : Len) (s : State) : (setFinalSize v s).bound = s.bound := rfl
@[simp] theorem setFinalSize_chunkBlocks (v : Len) (s : State) : (setFinalSize v s).chunkBlocks = s.chunkBlocks := rfl
@[simp] theorem setFinalSize_agenda (v : Len) (s : State) : (setFinalSize v s).agenda = s.agenda := rfl
@[simp] theorem setFinalSize_ioScript (v : Len) (s : State) : (setFinalSize v s).ioScript = s.ioScript := rfl
@[simp] theorem setFinalSize_draws (v : Len) (s : State) : (setFinalSize v s).draws = s.draws := rfl
@[simp] theorem setFinalSize_reply (v : Len) (s : State) : (setFinalSize v s).reply = s.reply := rfl

/-! ### setOutput -/

@[simp] theorem setOutput_key (m : Memory) (s : State) : (setOutput m s).key = s.key := rfl
@[simp] theorem setOutput_keyv (m : Memory) (s : State) : (setOutput m s).keyv = s.keyv := rfl
@[simp] theorem setOutput_kdidx (m : Memory) (s : State) : (setOutput m s).kdidx = s.kdidx := rfl
@[simp] theorem setOutput_cfg (m : Memory) (s : State) : (setOutput m s).cfg = s.cfg := rfl
@[simp] theorem setOutput_acc (m : Memory) (s : State) : (setOutput m s).acc = s.acc := rfl
@[simp] theorem setOutput_cmderr (m : Memory) (s : State) : (setOutput m s).cmderr = s.cmderr := rfl
@[simp] theorem setOutput_cph (m : Memory) (s : State) : (setOutput m s).cph = s.cph := rfl
@[simp] theorem setOutput_cres (m : Memory) (s : State) : (setOutput m s).cres = s.cres := rfl
@[simp] theorem setOutput_cflags (m : Memory) (s : State) : (setOutput m s).cflags = s.cflags := rfl
@[simp] theorem setOutput_blk (m : Memory) (s : State) : (setOutput m s).blk = s.blk := rfl
@[simp] theorem setOutput_chain (m : Memory) (s : State) : (setOutput m s).chain = s.chain := rfl
@[simp] theorem setOutput_sk (m : Memory) (s : State) : (setOutput m s).sk = s.sk := rfl
@[simp] theorem setOutput_inLen (m : Memory) (s : State) : (setOutput m s).inLen = s.inLen := rfl
@[simp] theorem setOutput_dataLen (m : Memory) (s : State) : (setOutput m s).dataLen = s.dataLen := rfl
@[simp] theorem setOutput_outLen (m : Memory) (s : State) : (setOutput m s).outLen = s.outLen := rfl
@[simp] theorem setOutput_doneBytes (m : Memory) (s : State) : (setOutput m s).doneBytes = s.doneBytes := rfl
@[simp] theorem setOutput_outPos (m : Memory) (s : State) : (setOutput m s).outPos = s.outPos := rfl
@[simp] theorem setOutput_finalSize (m : Memory) (s : State) : (setOutput m s).finalSize = s.finalSize := rfl
@[simp] theorem setOutput_elapsed (m : Memory) (s : State) : (setOutput m s).elapsed = s.elapsed := rfl
@[simp] theorem setOutput_evt (m : Memory) (s : State) : (setOutput m s).evt = s.evt := rfl
@[simp] theorem setOutput_evtseq (m : Memory) (s : State) : (setOutput m s).evtseq = s.evtseq := rfl
@[simp] theorem setOutput_chunkBuf (m : Memory) (s : State) : (setOutput m s).chunkBuf = s.chunkBuf := rfl
@[simp] theorem setOutput_inf (m : Memory) (s : State) : (setOutput m s).inf = s.inf := rfl
@[simp] theorem setOutput_outf (m : Memory) (s : State) : (setOutput m s).outf = m := rfl
@[simp] theorem setOutput_bound (m : Memory) (s : State) : (setOutput m s).bound = s.bound := rfl
@[simp] theorem setOutput_chunkBlocks (m : Memory) (s : State) : (setOutput m s).chunkBlocks = s.chunkBlocks := rfl
@[simp] theorem setOutput_agenda (m : Memory) (s : State) : (setOutput m s).agenda = s.agenda := rfl
@[simp] theorem setOutput_ioScript (m : Memory) (s : State) : (setOutput m s).ioScript = s.ioScript := rfl
@[simp] theorem setOutput_draws (m : Memory) (s : State) : (setOutput m s).draws = s.draws := rfl
@[simp] theorem setOutput_reply (m : Memory) (s : State) : (setOutput m s).reply = s.reply := rfl

/-! ### setAgenda -/

@[simp] theorem setAgenda_key (l : List Action) (s : State) : (setAgenda l s).key = s.key := rfl
@[simp] theorem setAgenda_keyv (l : List Action) (s : State) : (setAgenda l s).keyv = s.keyv := rfl
@[simp] theorem setAgenda_kdidx (l : List Action) (s : State) : (setAgenda l s).kdidx = s.kdidx := rfl
@[simp] theorem setAgenda_cfg (l : List Action) (s : State) : (setAgenda l s).cfg = s.cfg := rfl
@[simp] theorem setAgenda_acc (l : List Action) (s : State) : (setAgenda l s).acc = s.acc := rfl
@[simp] theorem setAgenda_cmderr (l : List Action) (s : State) : (setAgenda l s).cmderr = s.cmderr := rfl
@[simp] theorem setAgenda_cph (l : List Action) (s : State) : (setAgenda l s).cph = s.cph := rfl
@[simp] theorem setAgenda_cres (l : List Action) (s : State) : (setAgenda l s).cres = s.cres := rfl
@[simp] theorem setAgenda_cflags (l : List Action) (s : State) : (setAgenda l s).cflags = s.cflags := rfl
@[simp] theorem setAgenda_blk (l : List Action) (s : State) : (setAgenda l s).blk = s.blk := rfl
@[simp] theorem setAgenda_chain (l : List Action) (s : State) : (setAgenda l s).chain = s.chain := rfl
@[simp] theorem setAgenda_sk (l : List Action) (s : State) : (setAgenda l s).sk = s.sk := rfl
@[simp] theorem setAgenda_inLen (l : List Action) (s : State) : (setAgenda l s).inLen = s.inLen := rfl
@[simp] theorem setAgenda_dataLen (l : List Action) (s : State) : (setAgenda l s).dataLen = s.dataLen := rfl
@[simp] theorem setAgenda_outLen (l : List Action) (s : State) : (setAgenda l s).outLen = s.outLen := rfl
@[simp] theorem setAgenda_doneBytes (l : List Action) (s : State) : (setAgenda l s).doneBytes = s.doneBytes := rfl
@[simp] theorem setAgenda_outPos (l : List Action) (s : State) : (setAgenda l s).outPos = s.outPos := rfl
@[simp] theorem setAgenda_finalSize (l : List Action) (s : State) : (setAgenda l s).finalSize = s.finalSize := rfl
@[simp] theorem setAgenda_elapsed (l : List Action) (s : State) : (setAgenda l s).elapsed = s.elapsed := rfl
@[simp] theorem setAgenda_evt (l : List Action) (s : State) : (setAgenda l s).evt = s.evt := rfl
@[simp] theorem setAgenda_evtseq (l : List Action) (s : State) : (setAgenda l s).evtseq = s.evtseq := rfl
@[simp] theorem setAgenda_chunkBuf (l : List Action) (s : State) : (setAgenda l s).chunkBuf = s.chunkBuf := rfl
@[simp] theorem setAgenda_inf (l : List Action) (s : State) : (setAgenda l s).inf = s.inf := rfl
@[simp] theorem setAgenda_outf (l : List Action) (s : State) : (setAgenda l s).outf = s.outf := rfl
@[simp] theorem setAgenda_bound (l : List Action) (s : State) : (setAgenda l s).bound = s.bound := rfl
@[simp] theorem setAgenda_chunkBlocks (l : List Action) (s : State) : (setAgenda l s).chunkBlocks = s.chunkBlocks := rfl
@[simp] theorem setAgenda_agenda (l : List Action) (s : State) : (setAgenda l s).agenda = l := rfl
@[simp] theorem setAgenda_ioScript (l : List Action) (s : State) : (setAgenda l s).ioScript = s.ioScript := rfl
@[simp] theorem setAgenda_draws (l : List Action) (s : State) : (setAgenda l s).draws = s.draws := rfl
@[simp] theorem setAgenda_reply (l : List Action) (s : State) : (setAgenda l s).reply = s.reply := rfl

/-! ### setReply -/

@[simp] theorem setReply_key (w : Word) (s : State) : (setReply w s).key = s.key := rfl
@[simp] theorem setReply_keyv (w : Word) (s : State) : (setReply w s).keyv = s.keyv := rfl
@[simp] theorem setReply_kdidx (w : Word) (s : State) : (setReply w s).kdidx = s.kdidx := rfl
@[simp] theorem setReply_cfg (w : Word) (s : State) : (setReply w s).cfg = s.cfg := rfl
@[simp] theorem setReply_acc (w : Word) (s : State) : (setReply w s).acc = s.acc := rfl
@[simp] theorem setReply_cmderr (w : Word) (s : State) : (setReply w s).cmderr = s.cmderr := rfl
@[simp] theorem setReply_cph (w : Word) (s : State) : (setReply w s).cph = s.cph := rfl
@[simp] theorem setReply_cres (w : Word) (s : State) : (setReply w s).cres = s.cres := rfl
@[simp] theorem setReply_cflags (w : Word) (s : State) : (setReply w s).cflags = s.cflags := rfl
@[simp] theorem setReply_blk (w : Word) (s : State) : (setReply w s).blk = s.blk := rfl
@[simp] theorem setReply_chain (w : Word) (s : State) : (setReply w s).chain = s.chain := rfl
@[simp] theorem setReply_sk (w : Word) (s : State) : (setReply w s).sk = s.sk := rfl
@[simp] theorem setReply_inLen (w : Word) (s : State) : (setReply w s).inLen = s.inLen := rfl
@[simp] theorem setReply_dataLen (w : Word) (s : State) : (setReply w s).dataLen = s.dataLen := rfl
@[simp] theorem setReply_outLen (w : Word) (s : State) : (setReply w s).outLen = s.outLen := rfl
@[simp] theorem setReply_doneBytes (w : Word) (s : State) : (setReply w s).doneBytes = s.doneBytes := rfl
@[simp] theorem setReply_outPos (w : Word) (s : State) : (setReply w s).outPos = s.outPos := rfl
@[simp] theorem setReply_finalSize (w : Word) (s : State) : (setReply w s).finalSize = s.finalSize := rfl
@[simp] theorem setReply_elapsed (w : Word) (s : State) : (setReply w s).elapsed = s.elapsed := rfl
@[simp] theorem setReply_evt (w : Word) (s : State) : (setReply w s).evt = s.evt := rfl
@[simp] theorem setReply_evtseq (w : Word) (s : State) : (setReply w s).evtseq = s.evtseq := rfl
@[simp] theorem setReply_chunkBuf (w : Word) (s : State) : (setReply w s).chunkBuf = s.chunkBuf := rfl
@[simp] theorem setReply_inf (w : Word) (s : State) : (setReply w s).inf = s.inf := rfl
@[simp] theorem setReply_outf (w : Word) (s : State) : (setReply w s).outf = s.outf := rfl
@[simp] theorem setReply_bound (w : Word) (s : State) : (setReply w s).bound = s.bound := rfl
@[simp] theorem setReply_chunkBlocks (w : Word) (s : State) : (setReply w s).chunkBlocks = s.chunkBlocks := rfl
@[simp] theorem setReply_agenda (w : Word) (s : State) : (setReply w s).agenda = s.agenda := rfl
@[simp] theorem setReply_ioScript (w : Word) (s : State) : (setReply w s).ioScript = s.ioScript := rfl
@[simp] theorem setReply_draws (w : Word) (s : State) : (setReply w s).draws = s.draws := rfl
@[simp] theorem setReply_reply (w : Word) (s : State) : (setReply w s).reply = some w := rfl

/-! ### opened -/

@[simp] theorem opened_key (s : State) : (opened s).key = s.key := rfl
@[simp] theorem opened_keyv (s : State) : (opened s).keyv = s.keyv := rfl
@[simp] theorem opened_kdidx (s : State) : (opened s).kdidx = s.kdidx := rfl
@[simp] theorem opened_cfg (s : State) : (opened s).cfg = s.cfg := rfl
@[simp] theorem opened_acc (s : State) : (opened s).acc = s.acc := rfl
@[simp] theorem opened_cmderr (s : State) : (opened s).cmderr = s.cmderr := rfl
@[simp] theorem opened_cph (s : State) : (opened s).cph = s.cph := rfl
@[simp] theorem opened_cres (s : State) : (opened s).cres = s.cres := rfl
@[simp] theorem opened_cflags (s : State) : (opened s).cflags = s.cflags := rfl
@[simp] theorem opened_blk (s : State) : (opened s).blk = s.blk := rfl
@[simp] theorem opened_chain (s : State) : (opened s).chain = s.chain := rfl
@[simp] theorem opened_sk (s : State) : (opened s).sk = s.sk := rfl
@[simp] theorem opened_inLen (s : State) : (opened s).inLen = BitVec.ofNat 64 s.inf.length := rfl
@[simp] theorem opened_dataLen (s : State) : (opened s).dataLen = s.dataLen := rfl
@[simp] theorem opened_outLen (s : State) : (opened s).outLen = s.outLen := rfl
@[simp] theorem opened_doneBytes (s : State) : (opened s).doneBytes = s.doneBytes := rfl
@[simp] theorem opened_outPos (s : State) : (opened s).outPos = s.outPos := rfl
@[simp] theorem opened_finalSize (s : State) : (opened s).finalSize = s.finalSize := rfl
@[simp] theorem opened_elapsed (s : State) : (opened s).elapsed = s.elapsed := rfl
@[simp] theorem opened_evt (s : State) : (opened s).evt = s.evt := rfl
@[simp] theorem opened_evtseq (s : State) : (opened s).evtseq = s.evtseq := rfl
@[simp] theorem opened_chunkBuf (s : State) : (opened s).chunkBuf = s.chunkBuf := rfl
@[simp] theorem opened_inf (s : State) : (opened s).inf = s.inf := rfl
@[simp] theorem opened_outf (s : State) : (opened s).outf = [] := rfl
@[simp] theorem opened_bound (s : State) : (opened s).bound = s.bound := rfl
@[simp] theorem opened_chunkBlocks (s : State) : (opened s).chunkBlocks = s.chunkBlocks := rfl
@[simp] theorem opened_agenda (s : State) : (opened s).agenda = s.agenda := rfl
@[simp] theorem opened_ioScript (s : State) : (opened s).ioScript = s.ioScript := rfl
@[simp] theorem opened_draws (s : State) : (opened s).draws = s.draws := rfl
@[simp] theorem opened_reply (s : State) : (opened s).reply = s.reply := rfl

/-! ### countSuffix -/

@[simp] theorem countSuffix_key (s : State) : (countSuffix s).key = s.key := rfl
@[simp] theorem countSuffix_keyv (s : State) : (countSuffix s).keyv = s.keyv := rfl
@[simp] theorem countSuffix_kdidx (s : State) : (countSuffix s).kdidx = s.kdidx := rfl
@[simp] theorem countSuffix_cfg (s : State) : (countSuffix s).cfg = s.cfg := rfl
@[simp] theorem countSuffix_acc (s : State) : (countSuffix s).acc = s.acc := rfl
@[simp] theorem countSuffix_cmderr (s : State) : (countSuffix s).cmderr = s.cmderr := rfl
@[simp] theorem countSuffix_cph (s : State) : (countSuffix s).cph = s.cph := rfl
@[simp] theorem countSuffix_cres (s : State) : (countSuffix s).cres = s.cres := rfl
@[simp] theorem countSuffix_cflags (s : State) : (countSuffix s).cflags = s.cflags := rfl
@[simp] theorem countSuffix_blk (s : State) : (countSuffix s).blk = s.blk := rfl
@[simp] theorem countSuffix_chain (s : State) : (countSuffix s).chain = s.chain := rfl
@[simp] theorem countSuffix_sk (s : State) : (countSuffix s).sk = s.sk := rfl
@[simp] theorem countSuffix_inLen (s : State) : (countSuffix s).inLen = s.inLen := rfl
@[simp] theorem countSuffix_dataLen (s : State) : (countSuffix s).dataLen = s.dataLen := rfl
@[simp] theorem countSuffix_outLen (s : State) : (countSuffix s).outLen = s.outLen := rfl
@[simp] theorem countSuffix_doneBytes (s : State) : (countSuffix s).doneBytes = s.doneBytes := rfl
@[simp] theorem countSuffix_outPos (s : State) : (countSuffix s).outPos = s.outPos + 8 := rfl
@[simp] theorem countSuffix_finalSize (s : State) : (countSuffix s).finalSize = s.outPos + 8 := rfl
@[simp] theorem countSuffix_elapsed (s : State) : (countSuffix s).elapsed = s.elapsed := rfl
@[simp] theorem countSuffix_evt (s : State) : (countSuffix s).evt = s.evt := rfl
@[simp] theorem countSuffix_evtseq (s : State) : (countSuffix s).evtseq = s.evtseq := rfl
@[simp] theorem countSuffix_chunkBuf (s : State) : (countSuffix s).chunkBuf = s.chunkBuf := rfl
@[simp] theorem countSuffix_inf (s : State) : (countSuffix s).inf = s.inf := rfl
@[simp] theorem countSuffix_outf (s : State) : (countSuffix s).outf = s.outf := rfl
@[simp] theorem countSuffix_bound (s : State) : (countSuffix s).bound = s.bound := rfl
@[simp] theorem countSuffix_chunkBlocks (s : State) : (countSuffix s).chunkBlocks = s.chunkBlocks := rfl
@[simp] theorem countSuffix_agenda (s : State) : (countSuffix s).agenda = s.agenda := rfl
@[simp] theorem countSuffix_ioScript (s : State) : (countSuffix s).ioScript = s.ioScript := rfl
@[simp] theorem countSuffix_draws (s : State) : (countSuffix s).draws = s.draws := rfl
@[simp] theorem countSuffix_reply (s : State) : (countSuffix s).reply = s.reply := rfl

/-! ### bindFiles -/

@[simp] theorem bindFiles_key (x y : List Byte) (s : State) : (bindFiles x y s).key = s.key := rfl
@[simp] theorem bindFiles_keyv (x y : List Byte) (s : State) : (bindFiles x y s).keyv = s.keyv := rfl
@[simp] theorem bindFiles_kdidx (x y : List Byte) (s : State) : (bindFiles x y s).kdidx = s.kdidx := rfl
@[simp] theorem bindFiles_cfg (x y : List Byte) (s : State) : (bindFiles x y s).cfg = s.cfg := rfl
@[simp] theorem bindFiles_acc (x y : List Byte) (s : State) : (bindFiles x y s).acc = s.acc := rfl
@[simp] theorem bindFiles_cmderr (x y : List Byte) (s : State) : (bindFiles x y s).cmderr = s.cmderr := rfl
@[simp] theorem bindFiles_cph (x y : List Byte) (s : State) : (bindFiles x y s).cph = s.cph := rfl
@[simp] theorem bindFiles_cres (x y : List Byte) (s : State) : (bindFiles x y s).cres = s.cres := rfl
@[simp] theorem bindFiles_cflags (x y : List Byte) (s : State) : (bindFiles x y s).cflags = s.cflags := rfl
@[simp] theorem bindFiles_blk (x y : List Byte) (s : State) : (bindFiles x y s).blk = s.blk := rfl
@[simp] theorem bindFiles_chain (x y : List Byte) (s : State) : (bindFiles x y s).chain = s.chain := rfl
@[simp] theorem bindFiles_sk (x y : List Byte) (s : State) : (bindFiles x y s).sk = s.sk := rfl
@[simp] theorem bindFiles_inLen (x y : List Byte) (s : State) : (bindFiles x y s).inLen = s.inLen := rfl
@[simp] theorem bindFiles_dataLen (x y : List Byte) (s : State) : (bindFiles x y s).dataLen = s.dataLen := rfl
@[simp] theorem bindFiles_outLen (x y : List Byte) (s : State) : (bindFiles x y s).outLen = s.outLen := rfl
@[simp] theorem bindFiles_doneBytes (x y : List Byte) (s : State) : (bindFiles x y s).doneBytes = s.doneBytes := rfl
@[simp] theorem bindFiles_outPos (x y : List Byte) (s : State) : (bindFiles x y s).outPos = s.outPos := rfl
@[simp] theorem bindFiles_finalSize (x y : List Byte) (s : State) : (bindFiles x y s).finalSize = s.finalSize := rfl
@[simp] theorem bindFiles_elapsed (x y : List Byte) (s : State) : (bindFiles x y s).elapsed = s.elapsed := rfl
@[simp] theorem bindFiles_evt (x y : List Byte) (s : State) : (bindFiles x y s).evt = s.evt := rfl
@[simp] theorem bindFiles_evtseq (x y : List Byte) (s : State) : (bindFiles x y s).evtseq = s.evtseq := rfl
@[simp] theorem bindFiles_chunkBuf (x y : List Byte) (s : State) : (bindFiles x y s).chunkBuf = s.chunkBuf := rfl
@[simp] theorem bindFiles_inf (x y : List Byte) (s : State) : (bindFiles x y s).inf = Memory.ofBytes x := rfl
@[simp] theorem bindFiles_outf (x y : List Byte) (s : State) : (bindFiles x y s).outf = Memory.ofBytes y := rfl
@[simp] theorem bindFiles_bound (x y : List Byte) (s : State) : (bindFiles x y s).bound = true := rfl
@[simp] theorem bindFiles_chunkBlocks (x y : List Byte) (s : State) : (bindFiles x y s).chunkBlocks = s.chunkBlocks := rfl
@[simp] theorem bindFiles_agenda (x y : List Byte) (s : State) : (bindFiles x y s).agenda = s.agenda := rfl
@[simp] theorem bindFiles_ioScript (x y : List Byte) (s : State) : (bindFiles x y s).ioScript = s.ioScript := rfl
@[simp] theorem bindFiles_draws (x y : List Byte) (s : State) : (bindFiles x y s).draws = s.draws := rfl
@[simp] theorem bindFiles_reply (x y : List Byte) (s : State) : (bindFiles x y s).reply = s.reply := rfl

/-! ### unbindFiles -/

@[simp] theorem unbindFiles_key (s : State) : (unbindFiles s).key = s.key := rfl
@[simp] theorem unbindFiles_keyv (s : State) : (unbindFiles s).keyv = s.keyv := rfl
@[simp] theorem unbindFiles_kdidx (s : State) : (unbindFiles s).kdidx = s.kdidx := rfl
@[simp] theorem unbindFiles_cfg (s : State) : (unbindFiles s).cfg = s.cfg := rfl
@[simp] theorem unbindFiles_acc (s : State) : (unbindFiles s).acc = s.acc := rfl
@[simp] theorem unbindFiles_cmderr (s : State) : (unbindFiles s).cmderr = s.cmderr := rfl
@[simp] theorem unbindFiles_cph (s : State) : (unbindFiles s).cph = s.cph := rfl
@[simp] theorem unbindFiles_cres (s : State) : (unbindFiles s).cres = s.cres := rfl
@[simp] theorem unbindFiles_cflags (s : State) : (unbindFiles s).cflags = s.cflags := rfl
@[simp] theorem unbindFiles_blk (s : State) : (unbindFiles s).blk = s.blk := rfl
@[simp] theorem unbindFiles_chain (s : State) : (unbindFiles s).chain = s.chain := rfl
@[simp] theorem unbindFiles_sk (s : State) : (unbindFiles s).sk = s.sk := rfl
@[simp] theorem unbindFiles_inLen (s : State) : (unbindFiles s).inLen = s.inLen := rfl
@[simp] theorem unbindFiles_dataLen (s : State) : (unbindFiles s).dataLen = s.dataLen := rfl
@[simp] theorem unbindFiles_outLen (s : State) : (unbindFiles s).outLen = s.outLen := rfl
@[simp] theorem unbindFiles_doneBytes (s : State) : (unbindFiles s).doneBytes = s.doneBytes := rfl
@[simp] theorem unbindFiles_outPos (s : State) : (unbindFiles s).outPos = s.outPos := rfl
@[simp] theorem unbindFiles_finalSize (s : State) : (unbindFiles s).finalSize = s.finalSize := rfl
@[simp] theorem unbindFiles_elapsed (s : State) : (unbindFiles s).elapsed = s.elapsed := rfl
@[simp] theorem unbindFiles_evt (s : State) : (unbindFiles s).evt = s.evt := rfl
@[simp] theorem unbindFiles_evtseq (s : State) : (unbindFiles s).evtseq = s.evtseq := rfl
@[simp] theorem unbindFiles_chunkBuf (s : State) : (unbindFiles s).chunkBuf = s.chunkBuf := rfl
@[simp] theorem unbindFiles_inf (s : State) : (unbindFiles s).inf = s.inf := rfl
@[simp] theorem unbindFiles_outf (s : State) : (unbindFiles s).outf = s.outf := rfl
@[simp] theorem unbindFiles_bound (s : State) : (unbindFiles s).bound = false := rfl
@[simp] theorem unbindFiles_chunkBlocks (s : State) : (unbindFiles s).chunkBlocks = s.chunkBlocks := rfl
@[simp] theorem unbindFiles_agenda (s : State) : (unbindFiles s).agenda = s.agenda := rfl
@[simp] theorem unbindFiles_ioScript (s : State) : (unbindFiles s).ioScript = s.ioScript := rfl
@[simp] theorem unbindFiles_draws (s : State) : (unbindFiles s).draws = s.draws := rfl
@[simp] theorem unbindFiles_reply (s : State) : (unbindFiles s).reply = s.reply := rfl

/-! ### emit -/

@[simp] theorem emit_key (e : Event) (s : State) : (emit e s).key = s.key := rfl
@[simp] theorem emit_keyv (e : Event) (s : State) : (emit e s).keyv = s.keyv := rfl
@[simp] theorem emit_kdidx (e : Event) (s : State) : (emit e s).kdidx = s.kdidx := rfl
@[simp] theorem emit_cfg (e : Event) (s : State) : (emit e s).cfg = s.cfg := rfl
@[simp] theorem emit_acc (e : Event) (s : State) : (emit e s).acc = s.acc := rfl
@[simp] theorem emit_cmderr (e : Event) (s : State) : (emit e s).cmderr = s.cmderr := rfl
@[simp] theorem emit_cph (e : Event) (s : State) : (emit e s).cph = s.cph := rfl
@[simp] theorem emit_cres (e : Event) (s : State) : (emit e s).cres = s.cres := rfl
@[simp] theorem emit_cflags (e : Event) (s : State) : (emit e s).cflags = s.cflags := rfl
@[simp] theorem emit_blk (e : Event) (s : State) : (emit e s).blk = s.blk := rfl
@[simp] theorem emit_chain (e : Event) (s : State) : (emit e s).chain = s.chain := rfl
@[simp] theorem emit_sk (e : Event) (s : State) : (emit e s).sk = s.sk := rfl
@[simp] theorem emit_inLen (e : Event) (s : State) : (emit e s).inLen = s.inLen := rfl
@[simp] theorem emit_dataLen (e : Event) (s : State) : (emit e s).dataLen = s.dataLen := rfl
@[simp] theorem emit_outLen (e : Event) (s : State) : (emit e s).outLen = s.outLen := rfl
@[simp] theorem emit_doneBytes (e : Event) (s : State) : (emit e s).doneBytes = s.doneBytes := rfl
@[simp] theorem emit_outPos (e : Event) (s : State) : (emit e s).outPos = s.outPos := rfl
@[simp] theorem emit_finalSize (e : Event) (s : State) : (emit e s).finalSize = s.finalSize := rfl
@[simp] theorem emit_elapsed (e : Event) (s : State) : (emit e s).elapsed = s.elapsed := rfl
@[simp] theorem emit_evt (e : Event) (s : State) : (emit e s).evt = e := rfl
@[simp] theorem emit_evtseq (e : Event) (s : State) : (emit e s).evtseq = s.evtseq + 1 := rfl
@[simp] theorem emit_chunkBuf (e : Event) (s : State) : (emit e s).chunkBuf = s.chunkBuf := rfl
@[simp] theorem emit_inf (e : Event) (s : State) : (emit e s).inf = s.inf := rfl
@[simp] theorem emit_outf (e : Event) (s : State) : (emit e s).outf = s.outf := rfl
@[simp] theorem emit_bound (e : Event) (s : State) : (emit e s).bound = s.bound := rfl
@[simp] theorem emit_chunkBlocks (e : Event) (s : State) : (emit e s).chunkBlocks = s.chunkBlocks := rfl
@[simp] theorem emit_agenda (e : Event) (s : State) : (emit e s).agenda = s.agenda := rfl
@[simp] theorem emit_ioScript (e : Event) (s : State) : (emit e s).ioScript = s.ioScript := rfl
@[simp] theorem emit_draws (e : Event) (s : State) : (emit e s).draws = s.draws := rfl
@[simp] theorem emit_reply (e : Event) (s : State) : (emit e s).reply = s.reply := rfl

/-! ### raiseCmd -/

@[simp] theorem raiseCmd_key (c : ErrorCode) (s : State) : (raiseCmd c s).key = s.key := rfl
@[simp] theorem raiseCmd_keyv (c : ErrorCode) (s : State) : (raiseCmd c s).keyv = s.keyv := rfl
@[simp] theorem raiseCmd_kdidx (c : ErrorCode) (s : State) : (raiseCmd c s).kdidx = s.kdidx := rfl
@[simp] theorem raiseCmd_cfg (c : ErrorCode) (s : State) : (raiseCmd c s).cfg = s.cfg := rfl
@[simp] theorem raiseCmd_acc (c : ErrorCode) (s : State) : (raiseCmd c s).acc = s.acc := rfl
@[simp] theorem raiseCmd_cmderr (c : ErrorCode) (s : State) : (raiseCmd c s).cmderr = if s.cmderr = .none then c else s.cmderr := rfl
@[simp] theorem raiseCmd_cph (c : ErrorCode) (s : State) : (raiseCmd c s).cph = s.cph := rfl
@[simp] theorem raiseCmd_cres (c : ErrorCode) (s : State) : (raiseCmd c s).cres = s.cres := rfl
@[simp] theorem raiseCmd_cflags (c : ErrorCode) (s : State) : (raiseCmd c s).cflags = s.cflags := rfl
@[simp] theorem raiseCmd_blk (c : ErrorCode) (s : State) : (raiseCmd c s).blk = s.blk := rfl
@[simp] theorem raiseCmd_chain (c : ErrorCode) (s : State) : (raiseCmd c s).chain = s.chain := rfl
@[simp] theorem raiseCmd_sk (c : ErrorCode) (s : State) : (raiseCmd c s).sk = s.sk := rfl
@[simp] theorem raiseCmd_inLen (c : ErrorCode) (s : State) : (raiseCmd c s).inLen = s.inLen := rfl
@[simp] theorem raiseCmd_dataLen (c : ErrorCode) (s : State) : (raiseCmd c s).dataLen = s.dataLen := rfl
@[simp] theorem raiseCmd_outLen (c : ErrorCode) (s : State) : (raiseCmd c s).outLen = s.outLen := rfl
@[simp] theorem raiseCmd_doneBytes (c : ErrorCode) (s : State) : (raiseCmd c s).doneBytes = s.doneBytes := rfl
@[simp] theorem raiseCmd_outPos (c : ErrorCode) (s : State) : (raiseCmd c s).outPos = s.outPos := rfl
@[simp] theorem raiseCmd_finalSize (c : ErrorCode) (s : State) : (raiseCmd c s).finalSize = s.finalSize := rfl
@[simp] theorem raiseCmd_elapsed (c : ErrorCode) (s : State) : (raiseCmd c s).elapsed = s.elapsed := rfl
@[simp] theorem raiseCmd_evt (c : ErrorCode) (s : State) : (raiseCmd c s).evt = s.evt := rfl
@[simp] theorem raiseCmd_evtseq (c : ErrorCode) (s : State) : (raiseCmd c s).evtseq = s.evtseq := rfl
@[simp] theorem raiseCmd_chunkBuf (c : ErrorCode) (s : State) : (raiseCmd c s).chunkBuf = s.chunkBuf := rfl
@[simp] theorem raiseCmd_inf (c : ErrorCode) (s : State) : (raiseCmd c s).inf = s.inf := rfl
@[simp] theorem raiseCmd_outf (c : ErrorCode) (s : State) : (raiseCmd c s).outf = s.outf := rfl
@[simp] theorem raiseCmd_bound (c : ErrorCode) (s : State) : (raiseCmd c s).bound = s.bound := rfl
@[simp] theorem raiseCmd_chunkBlocks (c : ErrorCode) (s : State) : (raiseCmd c s).chunkBlocks = s.chunkBlocks := rfl
@[simp] theorem raiseCmd_agenda (c : ErrorCode) (s : State) : (raiseCmd c s).agenda = s.agenda := rfl
@[simp] theorem raiseCmd_ioScript (c : ErrorCode) (s : State) : (raiseCmd c s).ioScript = s.ioScript := rfl
@[simp] theorem raiseCmd_draws (c : ErrorCode) (s : State) : (raiseCmd c s).draws = s.draws := rfl
@[simp] theorem raiseCmd_reply (c : ErrorCode) (s : State) : (raiseCmd c s).reply = s.reply := rfl

/-! ### codecFail -/

@[simp] theorem codecFail_key (c : ErrorCode) (s : State) : (codecFail c s).key = s.key := rfl
@[simp] theorem codecFail_keyv (c : ErrorCode) (s : State) : (codecFail c s).keyv = s.keyv := rfl
@[simp] theorem codecFail_kdidx (c : ErrorCode) (s : State) : (codecFail c s).kdidx = s.kdidx := rfl
@[simp] theorem codecFail_cfg (c : ErrorCode) (s : State) : (codecFail c s).cfg = s.cfg := rfl
@[simp] theorem codecFail_acc (c : ErrorCode) (s : State) : (codecFail c s).acc = s.acc := rfl
@[simp] theorem codecFail_cmderr (c : ErrorCode) (s : State) : (codecFail c s).cmderr = s.cmderr := rfl
@[simp] theorem codecFail_cph (c : ErrorCode) (s : State) : (codecFail c s).cph = .failed := rfl
@[simp] theorem codecFail_cres (c : ErrorCode) (s : State) : (codecFail c s).cres = c := rfl
@[simp] theorem codecFail_cflags (c : ErrorCode) (s : State) : (codecFail c s).cflags = s.cflags := rfl
@[simp] theorem codecFail_blk (c : ErrorCode) (s : State) : (codecFail c s).blk = s.blk := rfl
@[simp] theorem codecFail_chain (c : ErrorCode) (s : State) : (codecFail c s).chain = s.chain := rfl
@[simp] theorem codecFail_sk (c : ErrorCode) (s : State) : (codecFail c s).sk = s.sk := rfl
@[simp] theorem codecFail_inLen (c : ErrorCode) (s : State) : (codecFail c s).inLen = s.inLen := rfl
@[simp] theorem codecFail_dataLen (c : ErrorCode) (s : State) : (codecFail c s).dataLen = s.dataLen := rfl
@[simp] theorem codecFail_outLen (c : ErrorCode) (s : State) : (codecFail c s).outLen = s.outLen := rfl
@[simp] theorem codecFail_doneBytes (c : ErrorCode) (s : State) : (codecFail c s).doneBytes = s.doneBytes := rfl
@[simp] theorem codecFail_outPos (c : ErrorCode) (s : State) : (codecFail c s).outPos = s.outPos := rfl
@[simp] theorem codecFail_finalSize (c : ErrorCode) (s : State) : (codecFail c s).finalSize = s.finalSize := rfl
@[simp] theorem codecFail_elapsed (c : ErrorCode) (s : State) : (codecFail c s).elapsed = s.elapsed := rfl
@[simp] theorem codecFail_evt (c : ErrorCode) (s : State) : (codecFail c s).evt = .failed := rfl
@[simp] theorem codecFail_evtseq (c : ErrorCode) (s : State) : (codecFail c s).evtseq = s.evtseq + 1 := rfl
@[simp] theorem codecFail_chunkBuf (c : ErrorCode) (s : State) : (codecFail c s).chunkBuf = s.chunkBuf := rfl
@[simp] theorem codecFail_inf (c : ErrorCode) (s : State) : (codecFail c s).inf = s.inf := rfl
@[simp] theorem codecFail_outf (c : ErrorCode) (s : State) : (codecFail c s).outf = s.outf := rfl
@[simp] theorem codecFail_bound (c : ErrorCode) (s : State) : (codecFail c s).bound = s.bound := rfl
@[simp] theorem codecFail_chunkBlocks (c : ErrorCode) (s : State) : (codecFail c s).chunkBlocks = s.chunkBlocks := rfl
@[simp] theorem codecFail_agenda (c : ErrorCode) (s : State) : (codecFail c s).agenda = s.agenda := rfl
@[simp] theorem codecFail_ioScript (c : ErrorCode) (s : State) : (codecFail c s).ioScript = s.ioScript := rfl
@[simp] theorem codecFail_draws (c : ErrorCode) (s : State) : (codecFail c s).draws = s.draws := rfl
@[simp] theorem codecFail_reply (c : ErrorCode) (s : State) : (codecFail c s).reply = s.reply := rfl

/-! ### afterIo -/

@[simp] theorem afterIo_key (s : State) : (afterIo s).key = s.key := rfl
@[simp] theorem afterIo_keyv (s : State) : (afterIo s).keyv = s.keyv := rfl
@[simp] theorem afterIo_kdidx (s : State) : (afterIo s).kdidx = s.kdidx := rfl
@[simp] theorem afterIo_cfg (s : State) : (afterIo s).cfg = s.cfg := rfl
@[simp] theorem afterIo_acc (s : State) : (afterIo s).acc = s.acc := rfl
@[simp] theorem afterIo_cmderr (s : State) : (afterIo s).cmderr = s.cmderr := rfl
@[simp] theorem afterIo_cph (s : State) : (afterIo s).cph = s.cph := rfl
@[simp] theorem afterIo_cres (s : State) : (afterIo s).cres = s.cres := rfl
@[simp] theorem afterIo_cflags (s : State) : (afterIo s).cflags = s.cflags := rfl
@[simp] theorem afterIo_blk (s : State) : (afterIo s).blk = s.blk := rfl
@[simp] theorem afterIo_chain (s : State) : (afterIo s).chain = s.chain := rfl
@[simp] theorem afterIo_sk (s : State) : (afterIo s).sk = s.sk := rfl
@[simp] theorem afterIo_inLen (s : State) : (afterIo s).inLen = s.inLen := rfl
@[simp] theorem afterIo_dataLen (s : State) : (afterIo s).dataLen = s.dataLen := rfl
@[simp] theorem afterIo_outLen (s : State) : (afterIo s).outLen = s.outLen := rfl
@[simp] theorem afterIo_doneBytes (s : State) : (afterIo s).doneBytes = s.doneBytes := rfl
@[simp] theorem afterIo_outPos (s : State) : (afterIo s).outPos = s.outPos := rfl
@[simp] theorem afterIo_finalSize (s : State) : (afterIo s).finalSize = s.finalSize := rfl
@[simp] theorem afterIo_elapsed (s : State) : (afterIo s).elapsed = s.elapsed := rfl
@[simp] theorem afterIo_evt (s : State) : (afterIo s).evt = s.evt := rfl
@[simp] theorem afterIo_evtseq (s : State) : (afterIo s).evtseq = s.evtseq := rfl
@[simp] theorem afterIo_chunkBuf (s : State) : (afterIo s).chunkBuf = s.chunkBuf := rfl
@[simp] theorem afterIo_inf (s : State) : (afterIo s).inf = s.inf := rfl
@[simp] theorem afterIo_outf (s : State) : (afterIo s).outf = s.outf := rfl
@[simp] theorem afterIo_bound (s : State) : (afterIo s).bound = s.bound := rfl
@[simp] theorem afterIo_chunkBlocks (s : State) : (afterIo s).chunkBlocks = s.chunkBlocks := rfl
@[simp] theorem afterIo_agenda (s : State) : (afterIo s).agenda = s.agenda := rfl
@[simp] theorem afterIo_ioScript (s : State) : (afterIo s).ioScript = s.ioScript.tail := rfl
@[simp] theorem afterIo_draws (s : State) : (afterIo s).draws = if s.ioScript = [] then s.draws + 1 else s.draws := rfl
@[simp] theorem afterIo_reply (s : State) : (afterIo s).reply = s.reply := rfl

/-! ### loseOutput -/

@[simp] theorem loseOutput_key (s : State) : (loseOutput s).key = s.key := rfl
@[simp] theorem loseOutput_keyv (s : State) : (loseOutput s).keyv = s.keyv := rfl
@[simp] theorem loseOutput_kdidx (s : State) : (loseOutput s).kdidx = s.kdidx := rfl
@[simp] theorem loseOutput_cfg (s : State) : (loseOutput s).cfg = s.cfg := rfl
@[simp] theorem loseOutput_acc (s : State) : (loseOutput s).acc = s.acc := rfl
@[simp] theorem loseOutput_cmderr (s : State) : (loseOutput s).cmderr = s.cmderr := rfl
@[simp] theorem loseOutput_cph (s : State) : (loseOutput s).cph = s.cph := rfl
@[simp] theorem loseOutput_cres (s : State) : (loseOutput s).cres = s.cres := rfl
@[simp] theorem loseOutput_cflags (s : State) : (loseOutput s).cflags = s.cflags := rfl
@[simp] theorem loseOutput_blk (s : State) : (loseOutput s).blk = s.blk := rfl
@[simp] theorem loseOutput_chain (s : State) : (loseOutput s).chain = s.chain := rfl
@[simp] theorem loseOutput_sk (s : State) : (loseOutput s).sk = s.sk := rfl
@[simp] theorem loseOutput_inLen (s : State) : (loseOutput s).inLen = s.inLen := rfl
@[simp] theorem loseOutput_dataLen (s : State) : (loseOutput s).dataLen = s.dataLen := rfl
@[simp] theorem loseOutput_outLen (s : State) : (loseOutput s).outLen = s.outLen := rfl
@[simp] theorem loseOutput_doneBytes (s : State) : (loseOutput s).doneBytes = s.doneBytes := rfl
@[simp] theorem loseOutput_outPos (s : State) : (loseOutput s).outPos = s.outPos := rfl
@[simp] theorem loseOutput_finalSize (s : State) : (loseOutput s).finalSize = s.finalSize := rfl
@[simp] theorem loseOutput_elapsed (s : State) : (loseOutput s).elapsed = s.elapsed := rfl
@[simp] theorem loseOutput_evt (s : State) : (loseOutput s).evt = s.evt := rfl
@[simp] theorem loseOutput_evtseq (s : State) : (loseOutput s).evtseq = s.evtseq := rfl
@[simp] theorem loseOutput_chunkBuf (s : State) : (loseOutput s).chunkBuf = s.chunkBuf := rfl
@[simp] theorem loseOutput_inf (s : State) : (loseOutput s).inf = s.inf := rfl
@[simp] theorem loseOutput_outf (s : State) : (loseOutput s).outf = Memory.ofBytes (Config.fileAfterIoFailure s.draws) := rfl
@[simp] theorem loseOutput_bound (s : State) : (loseOutput s).bound = s.bound := rfl
@[simp] theorem loseOutput_chunkBlocks (s : State) : (loseOutput s).chunkBlocks = s.chunkBlocks := rfl
@[simp] theorem loseOutput_agenda (s : State) : (loseOutput s).agenda = s.agenda := rfl
@[simp] theorem loseOutput_ioScript (s : State) : (loseOutput s).ioScript = s.ioScript := rfl
@[simp] theorem loseOutput_draws (s : State) : (loseOutput s).draws = s.draws + 1 := rfl
@[simp] theorem loseOutput_reply (s : State) : (loseOutput s).reply = s.reply := rfl

/-! ### setAcc -/

@[simp] theorem setAcc_key (v : Word) (s : State) : (setAcc v s).key = s.key := rfl
@[simp] theorem setAcc_keyv (v : Word) (s : State) : (setAcc v s).keyv = s.keyv := rfl
@[simp] theorem setAcc_kdidx (v : Word) (s : State) : (setAcc v s).kdidx = s.kdidx := rfl
@[simp] theorem setAcc_cfg (v : Word) (s : State) : (setAcc v s).cfg = s.cfg := rfl
@[simp] theorem setAcc_acc (v : Word) (s : State) : (setAcc v s).acc = v := rfl
@[simp] theorem setAcc_cmderr (v : Word) (s : State) : (setAcc v s).cmderr = s.cmderr := rfl
@[simp] theorem setAcc_cph (v : Word) (s : State) : (setAcc v s).cph = s.cph := rfl
@[simp] theorem setAcc_cres (v : Word) (s : State) : (setAcc v s).cres = s.cres := rfl
@[simp] theorem setAcc_cflags (v : Word) (s : State) : (setAcc v s).cflags = s.cflags := rfl
@[simp] theorem setAcc_blk (v : Word) (s : State) : (setAcc v s).blk = s.blk := rfl
@[simp] theorem setAcc_chain (v : Word) (s : State) : (setAcc v s).chain = s.chain := rfl
@[simp] theorem setAcc_sk (v : Word) (s : State) : (setAcc v s).sk = s.sk := rfl
@[simp] theorem setAcc_inLen (v : Word) (s : State) : (setAcc v s).inLen = s.inLen := rfl
@[simp] theorem setAcc_dataLen (v : Word) (s : State) : (setAcc v s).dataLen = s.dataLen := rfl
@[simp] theorem setAcc_outLen (v : Word) (s : State) : (setAcc v s).outLen = s.outLen := rfl
@[simp] theorem setAcc_doneBytes (v : Word) (s : State) : (setAcc v s).doneBytes = s.doneBytes := rfl
@[simp] theorem setAcc_outPos (v : Word) (s : State) : (setAcc v s).outPos = s.outPos := rfl
@[simp] theorem setAcc_finalSize (v : Word) (s : State) : (setAcc v s).finalSize = s.finalSize := rfl
@[simp] theorem setAcc_elapsed (v : Word) (s : State) : (setAcc v s).elapsed = s.elapsed := rfl
@[simp] theorem setAcc_evt (v : Word) (s : State) : (setAcc v s).evt = s.evt := rfl
@[simp] theorem setAcc_evtseq (v : Word) (s : State) : (setAcc v s).evtseq = s.evtseq := rfl
@[simp] theorem setAcc_chunkBuf (v : Word) (s : State) : (setAcc v s).chunkBuf = s.chunkBuf := rfl
@[simp] theorem setAcc_inf (v : Word) (s : State) : (setAcc v s).inf = s.inf := rfl
@[simp] theorem setAcc_outf (v : Word) (s : State) : (setAcc v s).outf = s.outf := rfl
@[simp] theorem setAcc_bound (v : Word) (s : State) : (setAcc v s).bound = s.bound := rfl
@[simp] theorem setAcc_chunkBlocks (v : Word) (s : State) : (setAcc v s).chunkBlocks = s.chunkBlocks := rfl
@[simp] theorem setAcc_agenda (v : Word) (s : State) : (setAcc v s).agenda = s.agenda := rfl
@[simp] theorem setAcc_ioScript (v : Word) (s : State) : (setAcc v s).ioScript = s.ioScript := rfl
@[simp] theorem setAcc_draws (v : Word) (s : State) : (setAcc v s).draws = s.draws := rfl
@[simp] theorem setAcc_reply (v : Word) (s : State) : (setAcc v s).reply = s.reply := rfl

/-! ### loadMode -/

@[simp] theorem loadMode_key (d : Dir) (m : Mode) (s : State) : (loadMode d m s).key = s.key := rfl
@[simp] theorem loadMode_keyv (d : Dir) (m : Mode) (s : State) : (loadMode d m s).keyv = s.keyv := rfl
@[simp] theorem loadMode_kdidx (d : Dir) (m : Mode) (s : State) : (loadMode d m s).kdidx = s.kdidx := rfl
@[simp] theorem loadMode_cfg (d : Dir) (m : Mode) (s : State) : (loadMode d m s).cfg = { mode := m, dir := d, modev := true, skdir := scheduleDir d m, skv := true } := rfl
@[simp] theorem loadMode_acc (d : Dir) (m : Mode) (s : State) : (loadMode d m s).acc = s.acc := rfl
@[simp] theorem loadMode_cmderr (d : Dir) (m : Mode) (s : State) : (loadMode d m s).cmderr = s.cmderr := rfl
@[simp] theorem loadMode_cph (d : Dir) (m : Mode) (s : State) : (loadMode d m s).cph = s.cph := rfl
@[simp] theorem loadMode_cres (d : Dir) (m : Mode) (s : State) : (loadMode d m s).cres = s.cres := rfl
@[simp] theorem loadMode_cflags (d : Dir) (m : Mode) (s : State) : (loadMode d m s).cflags = s.cflags := rfl
@[simp] theorem loadMode_blk (d : Dir) (m : Mode) (s : State) : (loadMode d m s).blk = s.blk := rfl
@[simp] theorem loadMode_chain (d : Dir) (m : Mode) (s : State) : (loadMode d m s).chain = ivOf s.key := rfl
@[simp] theorem loadMode_sk (d : Dir) (m : Mode) (s : State) : (loadMode d m s).sk = modeSchedule d m s.key := rfl
@[simp] theorem loadMode_inLen (d : Dir) (m : Mode) (s : State) : (loadMode d m s).inLen = s.inLen := rfl
@[simp] theorem loadMode_dataLen (d : Dir) (m : Mode) (s : State) : (loadMode d m s).dataLen = s.dataLen := rfl
@[simp] theorem loadMode_outLen (d : Dir) (m : Mode) (s : State) : (loadMode d m s).outLen = s.outLen := rfl
@[simp] theorem loadMode_doneBytes (d : Dir) (m : Mode) (s : State) : (loadMode d m s).doneBytes = s.doneBytes := rfl
@[simp] theorem loadMode_outPos (d : Dir) (m : Mode) (s : State) : (loadMode d m s).outPos = s.outPos := rfl
@[simp] theorem loadMode_finalSize (d : Dir) (m : Mode) (s : State) : (loadMode d m s).finalSize = s.finalSize := rfl
@[simp] theorem loadMode_elapsed (d : Dir) (m : Mode) (s : State) : (loadMode d m s).elapsed = s.elapsed := rfl
@[simp] theorem loadMode_evt (d : Dir) (m : Mode) (s : State) : (loadMode d m s).evt = s.evt := rfl
@[simp] theorem loadMode_evtseq (d : Dir) (m : Mode) (s : State) : (loadMode d m s).evtseq = s.evtseq := rfl
@[simp] theorem loadMode_chunkBuf (d : Dir) (m : Mode) (s : State) : (loadMode d m s).chunkBuf = s.chunkBuf := rfl
@[simp] theorem loadMode_inf (d : Dir) (m : Mode) (s : State) : (loadMode d m s).inf = s.inf := rfl
@[simp] theorem loadMode_outf (d : Dir) (m : Mode) (s : State) : (loadMode d m s).outf = s.outf := rfl
@[simp] theorem loadMode_bound (d : Dir) (m : Mode) (s : State) : (loadMode d m s).bound = s.bound := rfl
@[simp] theorem loadMode_chunkBlocks (d : Dir) (m : Mode) (s : State) : (loadMode d m s).chunkBlocks = s.chunkBlocks := rfl
@[simp] theorem loadMode_agenda (d : Dir) (m : Mode) (s : State) : (loadMode d m s).agenda = s.agenda := rfl
@[simp] theorem loadMode_ioScript (d : Dir) (m : Mode) (s : State) : (loadMode d m s).ioScript = s.ioScript := rfl
@[simp] theorem loadMode_draws (d : Dir) (m : Mode) (s : State) : (loadMode d m s).draws = s.draws := rfl
@[simp] theorem loadMode_reply (d : Dir) (m : Mode) (s : State) : (loadMode d m s).reply = s.reply := rfl

/-! ### clearRun -/

@[simp] theorem clearRun_key (d : Dir) (m : Mode) (s : State) : (clearRun d m s).key = s.key := rfl
@[simp] theorem clearRun_keyv (d : Dir) (m : Mode) (s : State) : (clearRun d m s).keyv = s.keyv := rfl
@[simp] theorem clearRun_kdidx (d : Dir) (m : Mode) (s : State) : (clearRun d m s).kdidx = s.kdidx := rfl
@[simp] theorem clearRun_cfg (d : Dir) (m : Mode) (s : State) : (clearRun d m s).cfg = s.cfg := rfl
@[simp] theorem clearRun_acc (d : Dir) (m : Mode) (s : State) : (clearRun d m s).acc = s.acc := rfl
@[simp] theorem clearRun_cmderr (d : Dir) (m : Mode) (s : State) : (clearRun d m s).cmderr = s.cmderr := rfl
@[simp] theorem clearRun_cph (d : Dir) (m : Mode) (s : State) : (clearRun d m s).cph = s.cph := rfl
@[simp] theorem clearRun_cres (d : Dir) (m : Mode) (s : State) : (clearRun d m s).cres = .none := rfl
@[simp] theorem clearRun_cflags (d : Dir) (m : Mode) (s : State) : (clearRun d m s).cflags = { cancelReq := false, cdir := d, cmode := m } := rfl
@[simp] theorem clearRun_blk (d : Dir) (m : Mode) (s : State) : (clearRun d m s).blk = s.blk := rfl
@[simp] theorem clearRun_chain (d : Dir) (m : Mode) (s : State) : (clearRun d m s).chain = s.chain := rfl
@[simp] theorem clearRun_sk (d : Dir) (m : Mode) (s : State) : (clearRun d m s).sk = s.sk := rfl
@[simp] theorem clearRun_inLen (d : Dir) (m : Mode) (s : State) : (clearRun d m s).inLen = 0 := rfl
@[simp] theorem clearRun_dataLen (d : Dir) (m : Mode) (s : State) : (clearRun d m s).dataLen = 0 := rfl
@[simp] theorem clearRun_outLen (d : Dir) (m : Mode) (s : State) : (clearRun d m s).outLen = 0 := rfl
@[simp] theorem clearRun_doneBytes (d : Dir) (m : Mode) (s : State) : (clearRun d m s).doneBytes = 0 := rfl
@[simp] theorem clearRun_outPos (d : Dir) (m : Mode) (s : State) : (clearRun d m s).outPos = 0 := rfl
@[simp] theorem clearRun_finalSize (d : Dir) (m : Mode) (s : State) : (clearRun d m s).finalSize = 0 := rfl
@[simp] theorem clearRun_elapsed (d : Dir) (m : Mode) (s : State) : (clearRun d m s).elapsed = 0 := rfl
@[simp] theorem clearRun_evt (d : Dir) (m : Mode) (s : State) : (clearRun d m s).evt = s.evt := rfl
@[simp] theorem clearRun_evtseq (d : Dir) (m : Mode) (s : State) : (clearRun d m s).evtseq = s.evtseq := rfl
@[simp] theorem clearRun_chunkBuf (d : Dir) (m : Mode) (s : State) : (clearRun d m s).chunkBuf = s.chunkBuf := rfl
@[simp] theorem clearRun_inf (d : Dir) (m : Mode) (s : State) : (clearRun d m s).inf = s.inf := rfl
@[simp] theorem clearRun_outf (d : Dir) (m : Mode) (s : State) : (clearRun d m s).outf = s.outf := rfl
@[simp] theorem clearRun_bound (d : Dir) (m : Mode) (s : State) : (clearRun d m s).bound = s.bound := rfl
@[simp] theorem clearRun_chunkBlocks (d : Dir) (m : Mode) (s : State) : (clearRun d m s).chunkBlocks = s.chunkBlocks := rfl
@[simp] theorem clearRun_agenda (d : Dir) (m : Mode) (s : State) : (clearRun d m s).agenda = s.agenda := rfl
@[simp] theorem clearRun_ioScript (d : Dir) (m : Mode) (s : State) : (clearRun d m s).ioScript = s.ioScript := rfl
@[simp] theorem clearRun_draws (d : Dir) (m : Mode) (s : State) : (clearRun d m s).draws = s.draws := rfl
@[simp] theorem clearRun_reply (d : Dir) (m : Mode) (s : State) : (clearRun d m s).reply = s.reply := rfl

/-! ### startRun -/

@[simp] theorem startRun_key (s : State) : (startRun s).key = s.key := rfl
@[simp] theorem startRun_keyv (s : State) : (startRun s).keyv = s.keyv := rfl
@[simp] theorem startRun_kdidx (s : State) : (startRun s).kdidx = s.kdidx := rfl
@[simp] theorem startRun_cfg (s : State) : (startRun s).cfg = s.cfg := rfl
@[simp] theorem startRun_acc (s : State) : (startRun s).acc = s.acc := rfl
@[simp] theorem startRun_cmderr (s : State) : (startRun s).cmderr = s.cmderr := rfl
@[simp] theorem startRun_cph (s : State) : (startRun s).cph = .running := rfl
@[simp] theorem startRun_cres (s : State) : (startRun s).cres = s.cres := rfl
@[simp] theorem startRun_cflags (s : State) : (startRun s).cflags = s.cflags := rfl
@[simp] theorem startRun_blk (s : State) : (startRun s).blk = s.blk := rfl
@[simp] theorem startRun_chain (s : State) : (startRun s).chain = s.chain := rfl
@[simp] theorem startRun_sk (s : State) : (startRun s).sk = s.sk := rfl
@[simp] theorem startRun_inLen (s : State) : (startRun s).inLen = s.inLen := rfl
@[simp] theorem startRun_dataLen (s : State) : (startRun s).dataLen = s.dataLen := rfl
@[simp] theorem startRun_outLen (s : State) : (startRun s).outLen = s.outLen := rfl
@[simp] theorem startRun_doneBytes (s : State) : (startRun s).doneBytes = s.doneBytes := rfl
@[simp] theorem startRun_outPos (s : State) : (startRun s).outPos = s.outPos := rfl
@[simp] theorem startRun_finalSize (s : State) : (startRun s).finalSize = s.finalSize := rfl
@[simp] theorem startRun_elapsed (s : State) : (startRun s).elapsed = s.elapsed := rfl
@[simp] theorem startRun_evt (s : State) : (startRun s).evt = .started := rfl
@[simp] theorem startRun_evtseq (s : State) : (startRun s).evtseq = s.evtseq + 1 := rfl
@[simp] theorem startRun_chunkBuf (s : State) : (startRun s).chunkBuf = s.chunkBuf := rfl
@[simp] theorem startRun_inf (s : State) : (startRun s).inf = s.inf := rfl
@[simp] theorem startRun_outf (s : State) : (startRun s).outf = s.outf := rfl
@[simp] theorem startRun_bound (s : State) : (startRun s).bound = s.bound := rfl
@[simp] theorem startRun_chunkBlocks (s : State) : (startRun s).chunkBlocks = s.chunkBlocks := rfl
@[simp] theorem startRun_agenda (s : State) : (startRun s).agenda = s.agenda := rfl
@[simp] theorem startRun_ioScript (s : State) : (startRun s).ioScript = s.ioScript := rfl
@[simp] theorem startRun_draws (s : State) : (startRun s).draws = s.draws := rfl
@[simp] theorem startRun_reply (s : State) : (startRun s).reply = s.reply := rfl

/-! ### loadChunk -/

@[simp] theorem loadChunk_key (b : List Byte) (s : State) : (loadChunk b s).key = s.key := rfl
@[simp] theorem loadChunk_keyv (b : List Byte) (s : State) : (loadChunk b s).keyv = s.keyv := rfl
@[simp] theorem loadChunk_kdidx (b : List Byte) (s : State) : (loadChunk b s).kdidx = s.kdidx := rfl
@[simp] theorem loadChunk_cfg (b : List Byte) (s : State) : (loadChunk b s).cfg = s.cfg := rfl
@[simp] theorem loadChunk_acc (b : List Byte) (s : State) : (loadChunk b s).acc = s.acc := rfl
@[simp] theorem loadChunk_cmderr (b : List Byte) (s : State) : (loadChunk b s).cmderr = s.cmderr := rfl
@[simp] theorem loadChunk_cph (b : List Byte) (s : State) : (loadChunk b s).cph = s.cph := rfl
@[simp] theorem loadChunk_cres (b : List Byte) (s : State) : (loadChunk b s).cres = s.cres := rfl
@[simp] theorem loadChunk_cflags (b : List Byte) (s : State) : (loadChunk b s).cflags = s.cflags := rfl
@[simp] theorem loadChunk_blk (b : List Byte) (s : State) : (loadChunk b s).blk = s.blk := rfl
@[simp] theorem loadChunk_chain (b : List Byte) (s : State) : (loadChunk b s).chain = (chunkTransform b s).2 := rfl
@[simp] theorem loadChunk_sk (b : List Byte) (s : State) : (loadChunk b s).sk = s.sk := rfl
@[simp] theorem loadChunk_inLen (b : List Byte) (s : State) : (loadChunk b s).inLen = s.inLen := rfl
@[simp] theorem loadChunk_dataLen (b : List Byte) (s : State) : (loadChunk b s).dataLen = s.dataLen := rfl
@[simp] theorem loadChunk_outLen (b : List Byte) (s : State) : (loadChunk b s).outLen = s.outLen := rfl
@[simp] theorem loadChunk_doneBytes (b : List Byte) (s : State) : (loadChunk b s).doneBytes = s.doneBytes := rfl
@[simp] theorem loadChunk_outPos (b : List Byte) (s : State) : (loadChunk b s).outPos = s.outPos := rfl
@[simp] theorem loadChunk_finalSize (b : List Byte) (s : State) : (loadChunk b s).finalSize = s.finalSize := rfl
@[simp] theorem loadChunk_elapsed (b : List Byte) (s : State) : (loadChunk b s).elapsed = s.elapsed := rfl
@[simp] theorem loadChunk_evt (b : List Byte) (s : State) : (loadChunk b s).evt = s.evt := rfl
@[simp] theorem loadChunk_evtseq (b : List Byte) (s : State) : (loadChunk b s).evtseq = s.evtseq := rfl
@[simp] theorem loadChunk_chunkBuf (b : List Byte) (s : State) : (loadChunk b s).chunkBuf = writeBuffer (bytesOf (chunkTransform b s).1) s.chunkBuf := rfl
@[simp] theorem loadChunk_inf (b : List Byte) (s : State) : (loadChunk b s).inf = s.inf := rfl
@[simp] theorem loadChunk_outf (b : List Byte) (s : State) : (loadChunk b s).outf = s.outf := rfl
@[simp] theorem loadChunk_bound (b : List Byte) (s : State) : (loadChunk b s).bound = s.bound := rfl
@[simp] theorem loadChunk_chunkBlocks (b : List Byte) (s : State) : (loadChunk b s).chunkBlocks = s.chunkBlocks := rfl
@[simp] theorem loadChunk_agenda (b : List Byte) (s : State) : (loadChunk b s).agenda = s.agenda := rfl
@[simp] theorem loadChunk_ioScript (b : List Byte) (s : State) : (loadChunk b s).ioScript = s.ioScript := rfl
@[simp] theorem loadChunk_draws (b : List Byte) (s : State) : (loadChunk b s).draws = s.draws := rfl
@[simp] theorem loadChunk_reply (b : List Byte) (s : State) : (loadChunk b s).reply = s.reply := rfl

/-! ### advance -/

@[simp] theorem advance_key (n w : Nat) (s : State) : (advance n w s).key = s.key := rfl
@[simp] theorem advance_keyv (n w : Nat) (s : State) : (advance n w s).keyv = s.keyv := rfl
@[simp] theorem advance_kdidx (n w : Nat) (s : State) : (advance n w s).kdidx = s.kdidx := rfl
@[simp] theorem advance_cfg (n w : Nat) (s : State) : (advance n w s).cfg = s.cfg := rfl
@[simp] theorem advance_acc (n w : Nat) (s : State) : (advance n w s).acc = s.acc := rfl
@[simp] theorem advance_cmderr (n w : Nat) (s : State) : (advance n w s).cmderr = s.cmderr := rfl
@[simp] theorem advance_cph (n w : Nat) (s : State) : (advance n w s).cph = s.cph := rfl
@[simp] theorem advance_cres (n w : Nat) (s : State) : (advance n w s).cres = s.cres := rfl
@[simp] theorem advance_cflags (n w : Nat) (s : State) : (advance n w s).cflags = s.cflags := rfl
@[simp] theorem advance_blk (n w : Nat) (s : State) : (advance n w s).blk = s.blk := rfl
@[simp] theorem advance_chain (n w : Nat) (s : State) : (advance n w s).chain = s.chain := rfl
@[simp] theorem advance_sk (n w : Nat) (s : State) : (advance n w s).sk = s.sk := rfl
@[simp] theorem advance_inLen (n w : Nat) (s : State) : (advance n w s).inLen = s.inLen := rfl
@[simp] theorem advance_dataLen (n w : Nat) (s : State) : (advance n w s).dataLen = s.dataLen := rfl
@[simp] theorem advance_outLen (n w : Nat) (s : State) : (advance n w s).outLen = s.outLen := rfl
@[simp] theorem advance_doneBytes (n w : Nat) (s : State) : (advance n w s).doneBytes = s.doneBytes + BitVec.ofNat 64 n := rfl
@[simp] theorem advance_outPos (n w : Nat) (s : State) : (advance n w s).outPos = s.outPos + BitVec.ofNat 64 w := rfl
@[simp] theorem advance_finalSize (n w : Nat) (s : State) : (advance n w s).finalSize = s.finalSize := rfl
@[simp] theorem advance_elapsed (n w : Nat) (s : State) : (advance n w s).elapsed = s.elapsed := rfl
@[simp] theorem advance_evt (n w : Nat) (s : State) : (advance n w s).evt = .progress := rfl
@[simp] theorem advance_evtseq (n w : Nat) (s : State) : (advance n w s).evtseq = s.evtseq + 1 := rfl
@[simp] theorem advance_chunkBuf (n w : Nat) (s : State) : (advance n w s).chunkBuf = s.chunkBuf := rfl
@[simp] theorem advance_inf (n w : Nat) (s : State) : (advance n w s).inf = s.inf := rfl
@[simp] theorem advance_outf (n w : Nat) (s : State) : (advance n w s).outf = s.outf := rfl
@[simp] theorem advance_bound (n w : Nat) (s : State) : (advance n w s).bound = s.bound := rfl
@[simp] theorem advance_chunkBlocks (n w : Nat) (s : State) : (advance n w s).chunkBlocks = s.chunkBlocks := rfl
@[simp] theorem advance_agenda (n w : Nat) (s : State) : (advance n w s).agenda = s.agenda := rfl
@[simp] theorem advance_ioScript (n w : Nat) (s : State) : (advance n w s).ioScript = s.ioScript := rfl
@[simp] theorem advance_draws (n w : Nat) (s : State) : (advance n w s).draws = s.draws := rfl
@[simp] theorem advance_reply (n w : Nat) (s : State) : (advance n w s).reply = s.reply := rfl

/-! ### succeed -/

@[simp] theorem succeed_key (s : State) : (succeed s).key = s.key := rfl
@[simp] theorem succeed_keyv (s : State) : (succeed s).keyv = s.keyv := rfl
@[simp] theorem succeed_kdidx (s : State) : (succeed s).kdidx = s.kdidx := rfl
@[simp] theorem succeed_cfg (s : State) : (succeed s).cfg = s.cfg := rfl
@[simp] theorem succeed_acc (s : State) : (succeed s).acc = s.acc := rfl
@[simp] theorem succeed_cmderr (s : State) : (succeed s).cmderr = s.cmderr := rfl
@[simp] theorem succeed_cph (s : State) : (succeed s).cph = .succeeded := rfl
@[simp] theorem succeed_cres (s : State) : (succeed s).cres = .none := rfl
@[simp] theorem succeed_cflags (s : State) : (succeed s).cflags = s.cflags := rfl
@[simp] theorem succeed_blk (s : State) : (succeed s).blk = s.blk := rfl
@[simp] theorem succeed_chain (s : State) : (succeed s).chain = s.chain := rfl
@[simp] theorem succeed_sk (s : State) : (succeed s).sk = s.sk := rfl
@[simp] theorem succeed_inLen (s : State) : (succeed s).inLen = s.inLen := rfl
@[simp] theorem succeed_dataLen (s : State) : (succeed s).dataLen = s.dataLen := rfl
@[simp] theorem succeed_outLen (s : State) : (succeed s).outLen = s.outLen := rfl
@[simp] theorem succeed_doneBytes (s : State) : (succeed s).doneBytes = s.doneBytes := rfl
@[simp] theorem succeed_outPos (s : State) : (succeed s).outPos = s.outPos := rfl
@[simp] theorem succeed_finalSize (s : State) : (succeed s).finalSize = s.finalSize := rfl
@[simp] theorem succeed_elapsed (s : State) : (succeed s).elapsed = Config.timeOracle s.draws := rfl
@[simp] theorem succeed_evt (s : State) : (succeed s).evt = .succeeded := rfl
@[simp] theorem succeed_evtseq (s : State) : (succeed s).evtseq = s.evtseq + 1 := rfl
@[simp] theorem succeed_chunkBuf (s : State) : (succeed s).chunkBuf = s.chunkBuf := rfl
@[simp] theorem succeed_inf (s : State) : (succeed s).inf = s.inf := rfl
@[simp] theorem succeed_outf (s : State) : (succeed s).outf = s.outf := rfl
@[simp] theorem succeed_bound (s : State) : (succeed s).bound = s.bound := rfl
@[simp] theorem succeed_chunkBlocks (s : State) : (succeed s).chunkBlocks = s.chunkBlocks := rfl
@[simp] theorem succeed_agenda (s : State) : (succeed s).agenda = s.agenda := rfl
@[simp] theorem succeed_ioScript (s : State) : (succeed s).ioScript = s.ioScript := rfl
@[simp] theorem succeed_draws (s : State) : (succeed s).draws = s.draws + 1 := rfl
@[simp] theorem succeed_reply (s : State) : (succeed s).reply = s.reply := rfl

/-! ### cancelStep -/

@[simp] theorem cancelStep_key (s : State) : (cancelStep s).key = s.key := rfl
@[simp] theorem cancelStep_keyv (s : State) : (cancelStep s).keyv = s.keyv := rfl
@[simp] theorem cancelStep_kdidx (s : State) : (cancelStep s).kdidx = s.kdidx := rfl
@[simp] theorem cancelStep_cfg (s : State) : (cancelStep s).cfg = s.cfg := rfl
@[simp] theorem cancelStep_acc (s : State) : (cancelStep s).acc = s.acc := rfl
@[simp] theorem cancelStep_cmderr (s : State) : (cancelStep s).cmderr = s.cmderr := rfl
@[simp] theorem cancelStep_cph (s : State) : (cancelStep s).cph = .cancelled := rfl
@[simp] theorem cancelStep_cres (s : State) : (cancelStep s).cres = .cancelled := rfl
@[simp] theorem cancelStep_cflags (s : State) : (cancelStep s).cflags = s.cflags := rfl
@[simp] theorem cancelStep_blk (s : State) : (cancelStep s).blk = s.blk := rfl
@[simp] theorem cancelStep_chain (s : State) : (cancelStep s).chain = s.chain := rfl
@[simp] theorem cancelStep_sk (s : State) : (cancelStep s).sk = s.sk := rfl
@[simp] theorem cancelStep_inLen (s : State) : (cancelStep s).inLen = s.inLen := rfl
@[simp] theorem cancelStep_dataLen (s : State) : (cancelStep s).dataLen = s.dataLen := rfl
@[simp] theorem cancelStep_outLen (s : State) : (cancelStep s).outLen = s.outLen := rfl
@[simp] theorem cancelStep_doneBytes (s : State) : (cancelStep s).doneBytes = s.doneBytes := rfl
@[simp] theorem cancelStep_outPos (s : State) : (cancelStep s).outPos = s.outPos := rfl
@[simp] theorem cancelStep_finalSize (s : State) : (cancelStep s).finalSize = s.finalSize := rfl
@[simp] theorem cancelStep_elapsed (s : State) : (cancelStep s).elapsed = s.elapsed := rfl
@[simp] theorem cancelStep_evt (s : State) : (cancelStep s).evt = .cancelled := rfl
@[simp] theorem cancelStep_evtseq (s : State) : (cancelStep s).evtseq = s.evtseq + 1 := rfl
@[simp] theorem cancelStep_chunkBuf (s : State) : (cancelStep s).chunkBuf = s.chunkBuf := rfl
@[simp] theorem cancelStep_inf (s : State) : (cancelStep s).inf = s.inf := rfl
@[simp] theorem cancelStep_outf (s : State) : (cancelStep s).outf = s.outf := rfl
@[simp] theorem cancelStep_bound (s : State) : (cancelStep s).bound = s.bound := rfl
@[simp] theorem cancelStep_chunkBlocks (s : State) : (cancelStep s).chunkBlocks = s.chunkBlocks := rfl
@[simp] theorem cancelStep_agenda (s : State) : (cancelStep s).agenda = s.agenda := rfl
@[simp] theorem cancelStep_ioScript (s : State) : (cancelStep s).ioScript = s.ioScript := rfl
@[simp] theorem cancelStep_draws (s : State) : (cancelStep s).draws = s.draws := rfl
@[simp] theorem cancelStep_reply (s : State) : (cancelStep s).reply = s.reply := rfl

/-! ### resetRegisters -/

@[simp] theorem resetRegisters_key (s : State) : (resetRegisters s).key = State.reset.key := rfl
@[simp] theorem resetRegisters_keyv (s : State) : (resetRegisters s).keyv = State.reset.keyv := rfl
@[simp] theorem resetRegisters_kdidx (s : State) : (resetRegisters s).kdidx = State.reset.kdidx := rfl
@[simp] theorem resetRegisters_cfg (s : State) : (resetRegisters s).cfg = State.reset.cfg := rfl
@[simp] theorem resetRegisters_acc (s : State) : (resetRegisters s).acc = State.reset.acc := rfl
@[simp] theorem resetRegisters_cmderr (s : State) : (resetRegisters s).cmderr = State.reset.cmderr := rfl
@[simp] theorem resetRegisters_cph (s : State) : (resetRegisters s).cph = State.reset.cph := rfl
@[simp] theorem resetRegisters_cres (s : State) : (resetRegisters s).cres = State.reset.cres := rfl
@[simp] theorem resetRegisters_cflags (s : State) : (resetRegisters s).cflags = State.reset.cflags := rfl
@[simp] theorem resetRegisters_blk (s : State) : (resetRegisters s).blk = State.reset.blk := rfl
@[simp] theorem resetRegisters_chain (s : State) : (resetRegisters s).chain = State.reset.chain := rfl
@[simp] theorem resetRegisters_sk (s : State) : (resetRegisters s).sk = State.reset.sk := rfl
@[simp] theorem resetRegisters_inLen (s : State) : (resetRegisters s).inLen = State.reset.inLen := rfl
@[simp] theorem resetRegisters_dataLen (s : State) : (resetRegisters s).dataLen = State.reset.dataLen := rfl
@[simp] theorem resetRegisters_outLen (s : State) : (resetRegisters s).outLen = State.reset.outLen := rfl
@[simp] theorem resetRegisters_doneBytes (s : State) : (resetRegisters s).doneBytes = State.reset.doneBytes := rfl
@[simp] theorem resetRegisters_outPos (s : State) : (resetRegisters s).outPos = State.reset.outPos := rfl
@[simp] theorem resetRegisters_finalSize (s : State) : (resetRegisters s).finalSize = State.reset.finalSize := rfl
@[simp] theorem resetRegisters_elapsed (s : State) : (resetRegisters s).elapsed = State.reset.elapsed := rfl
@[simp] theorem resetRegisters_evt (s : State) : (resetRegisters s).evt = State.reset.evt := rfl
@[simp] theorem resetRegisters_evtseq (s : State) : (resetRegisters s).evtseq = State.reset.evtseq := rfl
@[simp] theorem resetRegisters_chunkBuf (s : State) : (resetRegisters s).chunkBuf = { filled := [], resets := s.chunkBuf.resets + 1 } := rfl
@[simp] theorem resetRegisters_inf (s : State) : (resetRegisters s).inf = s.inf := rfl
@[simp] theorem resetRegisters_outf (s : State) : (resetRegisters s).outf = s.outf := rfl
@[simp] theorem resetRegisters_bound (s : State) : (resetRegisters s).bound = s.bound := rfl
@[simp] theorem resetRegisters_chunkBlocks (s : State) : (resetRegisters s).chunkBlocks = s.chunkBlocks := rfl
@[simp] theorem resetRegisters_agenda (s : State) : (resetRegisters s).agenda = s.agenda := rfl
@[simp] theorem resetRegisters_ioScript (s : State) : (resetRegisters s).ioScript = s.ioScript := rfl
@[simp] theorem resetRegisters_draws (s : State) : (resetRegisters s).draws = s.draws := rfl
@[simp] theorem resetRegisters_reply (s : State) : (resetRegisters s).reply = s.reply := rfl

end Sys2Proof.Machine
end

