-- ==== Sys2Proof/Laws/Ops.lean ====
section
/-! SUPPORT. For each shared operation, once, everything it can answer; and what a register read depends on. -/

namespace Sys2Proof.Machine

/-! ## The command guards (60 R303, R305, R306) -/

theorem busy_iff (s : State) : s.busy = true ↔ s.cph = .running := by simp [State.busy]

theorem keyComplete_iff (s : State) : s.keyComplete = true ↔ s.keyv = 0xFF := by simp [State.keyComplete]

theorem whenReady_of_running (s : State) (k : State → Result) (h : s.cph = .running) :
    whenReady s k = .next (raiseCmd .busy s) := by simp [whenReady, State.busy, h]

theorem whenReady_of_ready (s : State) (k : State → Result) (h : s.cph ≠ .running) : whenReady s k = k s := by
  simp [whenReady, State.busy, h]

theorem whenReady_next (s t : State) (k : State → Result) (h : whenReady s k = .next t) :
    (s.cph = .running ∧ t = raiseCmd .busy s) ∨ (s.cph ≠ .running ∧ k s = .next t) := by
  by_cases hr : s.cph = .running
  · rw [whenReady_of_running s k hr] at h
    exact .inl ⟨hr, by simpa using h.symm⟩
  · exact .inr ⟨hr, whenReady_of_ready s k hr ▸ h⟩

theorem require_next (ok : Bool) (c : ErrorCode) (s t : State) (k : State → Result) (h : require ok c s k = .next t) :
    (ok = false ∧ t = raiseCmd c s) ∨ (ok = true ∧ k s = .next t) := by
  cases ok with
  | false => exact .inl ⟨rfl, by simpa [require] using h.symm⟩
  | true => exact .inr ⟨rfl, by simpa [require] using h⟩

/-- The first error is kept (60 R302). -/
theorem raiseCmd_keeps_first (c : ErrorCode) (s : State) (h : s.cmderr ≠ .none) : raiseCmd c s = s := by
  simp [raiseCmd, setCmderr, h]

/-! ## The environment -/

theorem chunkBytes_pos (s : State) : 0 < s.chunkBytes := by simp [State.chunkBytes]

theorem chunkBytes_mod (s : State) : s.chunkBytes % 8 = 0 := by simp [State.chunkBytes]

theorem ioAnswer_cons (s : State) (b : Bool) (rest : List Bool) (h : s.ioScript = b :: rest) : ioAnswer s = b := by
  simp [ioAnswer, h]

/-- The oracle's answer depends on the script and the counter alone. -/
theorem ioAnswer_congr (s t : State) (h1 : t.ioScript = s.ioScript) (h2 : t.draws = s.draws) :
    ioAnswer t = ioAnswer s := by simp [ioAnswer, h1, h2]

/-! ## The chunk buffer (20 R85) -/

/-- The buffer holds CHUNK_BYTES bytes in every state. -/
@[simp] theorem chunkContent_length (s : State) : (chunkContent s).length = s.chunkBytes := by simp [chunkContent]

/-- The content depends on the buffer and on CHUNK_BYTES alone. -/
theorem chunkContent_congr (s t : State) (h1 : t.chunkBuf = s.chunkBuf) (h2 : t.chunkBlocks = s.chunkBlocks) :
    chunkContent t = chunkContent s := by simp [chunkContent, State.chunkBytes, h1, h2]

@[simp] theorem writeBuffer_resets (v : List Byte) (b : ChunkBuffer) : (writeBuffer v b).resets = b.resets := rfl

/-- A written byte reads as written, and every other byte as before. -/
theorem bufferByte_writeBuffer (v : List Byte) (b : ChunkBuffer) (i : Nat) :
    bufferByte (writeBuffer v b) i = if h : i < v.length then v[i] else bufferByte b i := by
  split
  · next h => simp [bufferByte, writeBuffer, List.getElem?_append, h]
  · next h =>
    have e : v.length + (i - v.length) = i := by omega
    simp [bufferByte, writeBuffer, List.getElem?_append, h, e]

/-- The first bytes of the buffer are the ones written last. -/
theorem chunkContent_take (v : List Byte) (b : ChunkBuffer) (s : State) (hb : s.chunkBuf = writeBuffer v b)
    (hv : v.length ≤ s.chunkBytes) : (chunkContent s).take v.length = v := by
  apply List.ext_getElem
  · simp [hv]
  · intro i h1 h2
    simp [chunkContent, hb, bufferByte_writeBuffer, h2]

/-! ## Every answer of each file primitive, as an equation -/

theorem inRead_cases (pos n : Nat) (s : State) (k : List Byte → State → Result) :
    (pos + n ≤ s.inf.length ∧ ioAnswer s = true ∧ inRead pos n s k = k (Memory.slice s.inf pos n) (afterIo s)) ∨
      (pos + n ≤ s.inf.length ∧ ioAnswer s = false ∧ inRead pos n s k = .next (codecFail .ioFailure (loseOutput (afterIo s)))) ∨
      (s.inf.length < pos + n ∧ inRead pos n s k = .fault .inReadOutsideFile) := by
  by_cases hl : pos + n ≤ s.inf.length
  · cases ha : ioAnswer s with
    | true => exact .inl ⟨hl, rfl, by simp [inRead, hl, ha]⟩
    | false => exact .inr (.inl ⟨hl, rfl, by simp [inRead, ioFailure, hl, ha]⟩)
  · exact .inr (.inr ⟨by omega, by simp [inRead, hl]⟩)

theorem outAppend_cases (v : List Byte) (s : State) (k : State → Result) :
    (ioAnswer s = true ∧ outAppend v s k = k (setOutput (Memory.append s.outf v) (afterIo s))) ∨
      (ioAnswer s = false ∧ outAppend v s k = .next (codecFail .ioFailure (loseOutput (afterIo s)))) := by
  cases ha : ioAnswer s with
  | true => exact .inl ⟨rfl, by simp [outAppend, ha]⟩
  | false => exact .inr ⟨rfl, by simp [outAppend, ioFailure, ha]⟩

theorem outTruncate_cases (l : Nat) (s : State) (k : State → Result) :
    (l ≤ s.outf.length ∧ ioAnswer s = true ∧
        outTruncate l s k = k (setOutput (Memory.truncate s.outf l) (afterIo s))) ∨
      (l ≤ s.outf.length ∧ ioAnswer s = false ∧
        outTruncate l s k = .next (codecFail .ioFailure (loseOutput (afterIo s)))) ∨
      (s.outf.length < l ∧ outTruncate l s k = .fault .truncateBeyondFile) := by
  by_cases hl : l ≤ s.outf.length
  · cases ha : ioAnswer s with
    | true => exact .inl ⟨hl, rfl, by simp [outTruncate, hl, ha]⟩
    | false => exact .inr (.inl ⟨hl, rfl, by simp [outTruncate, ioFailure, hl, ha]⟩)
  · exact .inr (.inr ⟨by omega, by simp [outTruncate, hl]⟩)

theorem openFiles_cases (s : State) (k : State → Result) :
    (s.bound = false ∧ openFiles s k = .next (codecFail .ioFailure (loseOutput s))) ∨
      (s.bound = true ∧ s.inf.length < Config.fileLimit ∧ ioAnswer s = true ∧
        openFiles s k = k (opened (afterIo s))) ∨
      (s.bound = true ∧ s.inf.length < Config.fileLimit ∧ ioAnswer s = false ∧
        openFiles s k = .next (codecFail .ioFailure (loseOutput (afterIo s)))) ∨
      (s.bound = true ∧ Config.fileLimit ≤ s.inf.length ∧ openFiles s k = .refused .fileOverLengthRegisters) := by
  cases hb : s.bound with
  | false => exact .inl ⟨rfl, by simp [openFiles, hb]⟩
  | true =>
    by_cases hl : s.inf.length < Config.fileLimit
    · cases ha : ioAnswer s with
      | true => exact .inr (.inl ⟨rfl, hl, rfl, by simp [openFiles, hb, hl, ha]⟩)
      | false => exact .inr (.inr (.inl ⟨rfl, hl, rfl, by simp [openFiles, ioFailure, hb, hl, ha]⟩))
    · exact .inr (.inr (.inr ⟨rfl, by omega, by simp [openFiles, hb, hl]⟩))

/-! ## What a next state of each file primitive is -/

theorem inRead_next (pos n : Nat) (s t : State) (k : List Byte → State → Result) (h : inRead pos n s k = .next t) :
    pos + n ≤ s.inf.length ∧
      ((ioAnswer s = true ∧ k (Memory.slice s.inf pos n) (afterIo s) = .next t) ∨
        (ioAnswer s = false ∧ t = codecFail .ioFailure (loseOutput (afterIo s)))) := by
  obtain ⟨hl, ha, e⟩ | ⟨hl, ha, e⟩ | ⟨_, e⟩ := inRead_cases pos n s k <;> rw [e] at h
  · exact ⟨hl, .inl ⟨ha, h⟩⟩
  · exact ⟨hl, .inr ⟨ha, by simpa using h.symm⟩⟩
  · cases h

theorem outAppend_next (v : List Byte) (s t : State) (k : State → Result) (h : outAppend v s k = .next t) :
    (ioAnswer s = true ∧ k (setOutput (Memory.append s.outf v) (afterIo s)) = .next t) ∨
      (ioAnswer s = false ∧ t = codecFail .ioFailure (loseOutput (afterIo s))) := by
  obtain ⟨ha, e⟩ | ⟨ha, e⟩ := outAppend_cases v s k <;> rw [e] at h
  · exact .inl ⟨ha, h⟩
  · exact .inr ⟨ha, by simpa using h.symm⟩

theorem outTruncate_next (l : Nat) (s t : State) (k : State → Result) (h : outTruncate l s k = .next t) :
    l ≤ s.outf.length ∧
      ((ioAnswer s = true ∧ k (setOutput (Memory.truncate s.outf l) (afterIo s)) = .next t) ∨
        (ioAnswer s = false ∧ t = codecFail .ioFailure (loseOutput (afterIo s)))) := by
  obtain ⟨hl, ha, e⟩ | ⟨hl, ha, e⟩ | ⟨_, e⟩ := outTruncate_cases l s k <;> rw [e] at h
  · exact ⟨hl, .inl ⟨ha, h⟩⟩
  · exact ⟨hl, .inr ⟨ha, by simpa using h.symm⟩⟩
  · cases h

theorem openFiles_next (s t : State) (k : State → Result) (h : openFiles s k = .next t) :
    (s.bound = false ∧ t = codecFail .ioFailure (loseOutput s)) ∨
      (s.bound = true ∧ s.inf.length < Config.fileLimit ∧
        ((ioAnswer s = true ∧ k (opened (afterIo s)) = .next t) ∨
          (ioAnswer s = false ∧ t = codecFail .ioFailure (loseOutput (afterIo s))))) := by
  obtain ⟨hb, e⟩ | ⟨hb, hl, ha, e⟩ | ⟨hb, hl, ha, e⟩ | ⟨_, _, e⟩ := openFiles_cases s k <;> rw [e] at h
  · exact .inl ⟨hb, by simpa using h.symm⟩
  · exact .inr ⟨hb, hl, .inl ⟨ha, h⟩⟩
  · exact .inr ⟨hb, hl, .inr ⟨ha, by simpa using h.symm⟩⟩
  · cases h

/-! ## The register read (10 R20) -/

/-- A register reads the same in two states that agree on the field its address maps. -/
theorem readReg_congr (a : RegAddr) (s t : State)
    (key : a.toNat < 0x08 → t.key = s.key) (keyv : a.toNat = 0x08 → t.keyv = s.keyv)
    (kdidx : a.toNat = 0x09 → t.kdidx = s.kdidx) (cfg : a.toNat = 0x0A → t.cfg = s.cfg)
    (acc : a.toNat = 0x0B → t.acc = s.acc) (cmderr : a.toNat = 0x0C → t.cmderr = s.cmderr)
    (cph : a.toNat = 0x0D → t.cph = s.cph) (cres : a.toNat = 0x0E → t.cres = s.cres)
    (cflags : a.toNat = 0x0F → t.cflags = s.cflags)
    (blk : 0x10 ≤ a.toNat → a.toNat < 0x14 → t.blk = s.blk)
    (chain : 0x14 ≤ a.toNat → a.toNat < 0x18 → t.chain = s.chain)
    (inLen : 0x18 ≤ a.toNat → a.toNat < 0x1C → t.inLen = s.inLen)
    (dataLen : 0x1C ≤ a.toNat → a.toNat < 0x20 → t.dataLen = s.dataLen)
    (outLen : 0x20 ≤ a.toNat → a.toNat < 0x24 → t.outLen = s.outLen)
    (doneBytes : 0x24 ≤ a.toNat → a.toNat < 0x28 → t.doneBytes = s.doneBytes)
    (outPos : 0x28 ≤ a.toNat → a.toNat < 0x2C → t.outPos = s.outPos)
    (finalSize : 0x2C ≤ a.toNat → a.toNat < 0x30 → t.finalSize = s.finalSize)
    (elapsed : 0x30 ≤ a.toNat → a.toNat < 0x34 → t.elapsed = s.elapsed)
    (evt : a.toNat = 0x34 → t.evt = s.evt) (evtseq : a.toNat = 0x35 → t.evtseq = s.evtseq)
    (sk : 0x40 ≤ a.toNat → a.toNat < 0x74 → t.sk = s.sk) : readReg a t = readReg a s := by
  unfold readReg
  by_cases h1 : a.toNat < 0x08
  · simp [h1, key h1]
  by_cases h2 : a.toNat = 0x08
  · simp [h2, keyv h2]
  by_cases h3 : a.toNat = 0x09
  · simp [h3, kdidx h3]
  by_cases h4 : a.toNat = 0x0A
  · simp [h4, cfg h4]
  by_cases h5 : a.toNat = 0x0B
  · simp [h5, acc h5]
  by_cases h6 : a.toNat = 0x0C
  · simp [h6, cmderr h6]
  by_cases h7 : a.toNat = 0x0D
  · simp [h7, cph h7]
  by_cases h8 : a.toNat = 0x0E
  · simp [h8, cres h8]
  by_cases h9 : a.toNat = 0x0F
  · simp [h9, cflags h9]
  simp only [h1, h2, h3, h4, h5, h6, h7, h8, h9, dite_false, if_false]
  by_cases h10 : a.toNat < 0x14
  · simp [h10, blk (by omega) h10]
  by_cases h11 : a.toNat < 0x18
  · simp [h10, h11, chain (by omega) h11]
  by_cases h12 : a.toNat < 0x34
  · have hl : lengthRegister t ((a.toNat - 0x18) / 4) = lengthRegister s ((a.toNat - 0x18) / 4) := by
      have hj : (a.toNat - 0x18) / 4 < 7 := by omega
      generalize hd : (a.toNat - 0x18) / 4 = j at hj
      interval_cases j
      · exact inLen (by omega) (by omega)
      · exact dataLen (by omega) (by omega)
      · exact outLen (by omega) (by omega)
      · exact doneBytes (by omega) (by omega)
      · exact outPos (by omega) (by omega)
      · exact finalSize (by omega) (by omega)
      · exact elapsed (by omega) (by omega)
    simp [h10, h11, h12, hl]
  by_cases h13 : a.toNat = 0x34
  · simp [h13, evt h13]
  by_cases h14 : a.toNat = 0x35
  · simp [h14, evtseq h14]
  by_cases h15 : a.toNat < 0x40
  · simp [h10, h11, h12, h13, h14, h15]
  by_cases h16 : a.toNat < 0x74
  · simp [h10, h11, h12, h13, h14, h15, h16, sk (by omega) h16]
  · simp [h10, h11, h12, h13, h14, h15, h16]

end Sys2Proof.Machine
end

