-- ==== Sys2Proof/Laws/Blocks.lean ====
section
/-! SUPPORT. Words, blocks and byte sequences: reads after word writes (41 R125, 43 R183), the word views (20 R70), bytewise
XOR (44 R205), padding and the block sequences of the codec (45 R244), and transforms in stream order (44 R211). -/

namespace Sys2Proof.Machine

/-! ## Words of a key and of a block -/

@[simp] theorem hiByte_be16 (a b : Byte) : hiByte (be16 a b) = a := by
  apply BitVec.eq_of_getLsbD_eq
  intro k hk
  rw [hiByte, be16, BitVec.getLsbD_extractLsb', BitVec.getLsbD_append, decide_eq_true hk, Bool.true_and,
    if_neg (by omega)]
  congr 1
  omega

@[simp] theorem loByte_be16 (a b : Byte) : loByte (be16 a b) = b := by
  apply BitVec.eq_of_getLsbD_eq
  intro k hk
  rw [loByte, be16, BitVec.getLsbD_extractLsb', BitVec.getLsbD_append, decide_eq_true hk, Bool.true_and,
    if_pos (by omega)]
  congr 1
  omega

@[simp] theorem be16_hiByte_loByte (v : Word) : be16 (hiByte v) (loByte v) = v := by
  apply BitVec.eq_of_getLsbD_eq
  intro k hk
  rw [be16, BitVec.getLsbD_append, hiByte, loByte, BitVec.getLsbD_extractLsb', BitVec.getLsbD_extractLsb']
  split_ifs with h
  · simp [h]
  · rw [decide_eq_true (by omega), Bool.true_and]
    congr 1
    omega

/-- Every byte of the key after KEYLDW's write (41 R125). -/
theorem Key.setWord_getElem (k : Key) (i : BitVec 3) (v : Word) (j : Nat) (hj : j < 16) :
    (Key.setWord k i v)[j] =
      if j = 2 * i.toNat then hiByte v else if j = 2 * i.toNat + 1 then loByte v else k[j] := by
  simp only [Key.setWord, Vector.getElem_set]
  split_ifs <;> first | rfl | omega

/-- Every byte of the block after BLKLDW's write (43 R183). -/
theorem Block.setWord_getElem (b : Block) (i : Fin 4) (v : Word) (j : Nat) (hj : j < 8) :
    (Block.setWord b i v)[j] =
      if j = 2 * i.val then hiByte v else if j = 2 * i.val + 1 then loByte v else b[j] := by
  simp only [Block.setWord, Vector.getElem_set]
  split_ifs <;> first | rfl | omega

/-- The words of a block made of four words (43 R175). -/
@[simp] theorem Quad.ofBlock_ofWords (a b c d : Word) :
    Quad.ofBlock (Block.ofWords a b c d) = { x1 := a, x2 := b, x3 := c, x4 := d } := by
  simp [Quad.ofBlock, Block.word, Block.ofWords]

/-- A block is made of its four words (20 R70). -/
theorem Block.ofWords_words (b : Block) :
    Block.ofWords (Block.word b 0) (Block.word b 1) (Block.word b 2) (Block.word b 3) = b := by
  apply Vector.ext
  intro i hi
  interval_cases i <;> simp [Block.ofWords, Block.word]

@[simp] theorem Block.xor_getElem (a b : Block) (i : Nat) (h : i < 8) : (Block.xor a b)[i] = a[i] ^^^ b[i] := by
  simp [Block.xor]

/-- XOR with the same block twice gives the block back (44 R205 to R209). -/
@[simp] theorem Block.xor_xor_self (a b : Block) : Block.xor (Block.xor a b) b = a := by
  apply Vector.ext
  intro i hi
  simp

/-! ## Subkeys -/

/-- Word i of the encryption schedule (43 R170). -/
theorem genSchedule_getElem (k : Key) (i : Nat) (h : i < 52) :
    (genSchedule k)[i] = registerWord (rotatedKey (Key.register k) (i / 8)) (i % 8) := by simp [genSchedule]

/-! ## Padding and block sequences -/

theorem roundup8_mod (n : Nat) : roundup8 n % 8 = 0 := by simp [roundup8]

theorem le_roundup8 (n : Nat) : n ≤ roundup8 n := by unfold roundup8; omega

theorem roundup8_of_mod (n : Nat) (h : n % 8 = 0) : roundup8 n = n := by unfold roundup8; omega

/-- A chunk of at most CHUNK_BYTES bytes still fits when it is padded (20 R85). -/
theorem roundup8_le_chunkBytes (s : State) (n : Nat) (h : n ≤ s.chunkBytes) : roundup8 n ≤ s.chunkBytes := by
  unfold State.chunkBytes at *
  unfold roundup8
  omega

theorem padBlocks_length (l : List Byte) : (padBlocks l).length = roundup8 l.length := by
  have := le_roundup8 l.length
  simp [padBlocks]
  omega

theorem bytesOf_length (bs : List Block) : (bytesOf bs).length = 8 * bs.length := by
  induction bs with
  | nil => rfl
  | cons b bs ih =>
    simp [bytesOf, ih]
    omega

theorem bytesOf_append (as bs : List Block) : bytesOf (as ++ bs) = bytesOf as ++ bytesOf bs := by
  induction as with
  | nil => rfl
  | cons a as ih => simp [bytesOf, ih]

theorem blocksOf_length : ∀ (n : Nat) (l : List Byte), l.length = 8 * n → (blocksOf l).length = n
  | 0, l, h => by
    simp at h
    subst h
    rfl
  | n + 1, l, h => by
    match l, h with
    | _ :: _ :: _ :: _ :: _ :: _ :: _ :: _ :: rest, h =>
      simp only [blocksOf, List.length_cons]
      rw [blocksOf_length n rest (by simp at h; omega)]

/-- Whole blocks of bytes, taken apart and put together (20 R74). -/
theorem bytesOf_blocksOf : ∀ (n : Nat) (l : List Byte), l.length = 8 * n → bytesOf (blocksOf l) = l
  | 0, l, h => by
    simp at h
    subst h
    rfl
  | n + 1, l, h => by
    match l, h with
    | _ :: _ :: _ :: _ :: _ :: _ :: _ :: _ :: rest, h =>
      simp only [blocksOf, bytesOf]
      rw [bytesOf_blocksOf n rest (by simp at h; omega)]
      rfl

theorem blocksOf_cons (b : Block) (l : List Byte) : blocksOf (b.toList ++ l) = b :: blocksOf l := by
  obtain ⟨⟨l8⟩, h⟩ := b
  match l8, h with
  | [_, _, _, _, _, _, _, _], _ => rfl

@[simp] theorem blocksOf_bytesOf (bs : List Block) : blocksOf (bytesOf bs) = bs := by
  induction bs with
  | nil => rfl
  | cons b bs ih => rw [bytesOf, blocksOf_cons, ih]

/-- Whole blocks followed by more bytes (45 R244). -/
theorem blocksOf_append : ∀ (n : Nat) (l r : List Byte), l.length = 8 * n → blocksOf (l ++ r) = blocksOf l ++ blocksOf r
  | 0, l, r, h => by
    simp at h
    subst h
    rfl
  | n + 1, l, r, h => by
    match l, h with
    | _ :: _ :: _ :: _ :: _ :: _ :: _ :: _ :: rest, h =>
      simp only [List.cons_append, blocksOf]
      rw [blocksOf_append n rest r (by simp at h; omega)]

/-! ## Transforms in stream order (44 R211) -/

@[simp] theorem transformBlocks_length (m : Mode) (d : Dir) (sk : Schedule) (bs : List Block) :
    ∀ c, (transformBlocks m d sk c bs).1.length = bs.length := by
  induction bs with
  | nil => intro; rfl
  | cons b bs ih => intro c; simp [transformBlocks, ih]

/-- A stream in two parts: the second part starts from the CHAIN the first leaves (44 R211, 45 R261). -/
theorem transformBlocks_append (m : Mode) (d : Dir) (sk : Schedule) (as bs : List Block) :
    ∀ c, transformBlocks m d sk c (as ++ bs) =
      ((transformBlocks m d sk c as).1 ++ (transformBlocks m d sk (transformBlocks m d sk c as).2 bs).1,
        (transformBlocks m d sk (transformBlocks m d sk c as).2 bs).2) := by
  induction as with
  | nil => intro; rfl
  | cons a as ih => intro c; simp [transformBlocks, ih]

/-- A chunk's transformed bytes are as many as its padded bytes (45 R245). -/
theorem chunkTransform_length (l : List Byte) (s : State) : (bytesOf (chunkTransform l s).1).length = roundup8 l.length := by
  rw [bytesOf_length, chunkTransform, transformBlocks_length, blocksOf_length ((l.length + 7) / 8)]
  · rfl
  · rw [padBlocks_length]
    rfl

/-- Once a chunk is loaded, the buffer starts with its transformed blocks (20 R85). -/
theorem chunkContent_loadChunk (l : List Byte) (s : State) (h : l.length ≤ s.chunkBytes) :
    (chunkContent (loadChunk l s)).take (roundup8 l.length) = bytesOf (chunkTransform l s).1 := by
  have e := chunkTransform_length l s
  have := chunkContent_take _ s.chunkBuf (loadChunk l s) (loadChunk_chunkBuf l s)
    (by rw [e]; exact roundup8_le_chunkBytes s _ h)
  rwa [e] at this

end Sys2Proof.Machine
end

