-- ==== Sys2Proof/Laws/Frames.lean ====
section
/-! SUPPORT. How a frame is shown: a frame over registers follows from which fields agree (10 R20), and the frame of a failing
command is said once (60 R302). -/

namespace Sys2Proof.Machine

@[refl] theorem sameRegs_refl (w : RegAddr → Bool) (s : State) : SameRegs w s s := fun _ _ => rfl

@[refl] theorem sameFiles_refl (s : State) : SameFiles s s := ⟨rfl, fun _ => rfl, fun _ => rfl⟩

@[refl] theorem sameEnv_refl (s : State) : SameEnv s s := ⟨rfl, rfl, rfl, rfl, rfl⟩

@[refl] theorem onlyRegs_refl (w : RegAddr → Bool) (s : State) : OnlyRegs w s s :=
  ⟨sameRegs_refl w s, sameFiles_refl s, sameEnv_refl s, rfl⟩

theorem sameRegs_trans {w : RegAddr → Bool} {s t u : State} (h : SameRegs w s t) (h' : SameRegs w t u) : SameRegs w s u :=
  fun a ha => (h' a ha).trans (h a ha)

/-- A frame over a larger set of written registers is weaker. -/
theorem sameRegs_mono {w v : RegAddr → Bool} {s t : State} (h : SameRegs w s t) (hv : ∀ a, v a = false → w a = false) :
    SameRegs v s t := fun a ha => h a (hv a ha)

theorem onlyRegs_trans {w : RegAddr → Bool} {s t u : State} (h : OnlyRegs w s t) (h' : OnlyRegs w t u) :
    OnlyRegs w s u := by
  obtain ⟨r, ⟨b, i, o⟩, ⟨e1, e2, e3, e4, e5⟩, c⟩ := h
  obtain ⟨r', ⟨b', i', o'⟩, ⟨f1, f2, f3, f4, f5⟩, c'⟩ := h'
  exact ⟨sameRegs_trans r r', ⟨b'.trans b, fun a => (i' a).trans (i a), fun a => (o' a).trans (o a)⟩,
    ⟨f1.trans e1, f2.trans e2, f3.trans e3, f4.trans e4, f5.trans e5⟩, c'.trans c⟩

/-- A written set that leaves an address out differs from it. -/
theorem oneReg_false {n a : RegAddr} (h : oneReg n a = false) : a.toNat ≠ n.toNat := by
  intro e
  simp [oneReg] at h
  exact h (BitVec.eq_of_toNat_eq e)

/-- A frame over registers, from the fields: outside the written set, the field that an address maps is the same. -/
theorem sameRegs_of {w : RegAddr → Bool} {s t : State}
    (h : ∀ a, w a = false →
      (a.toNat < 0x08 → t.key = s.key) ∧ (a.toNat = 0x08 → t.keyv = s.keyv) ∧
      (a.toNat = 0x09 → t.kdidx = s.kdidx) ∧ (a.toNat = 0x0A → t.cfg = s.cfg) ∧
      (a.toNat = 0x0B → t.acc = s.acc) ∧ (a.toNat = 0x0C → t.cmderr = s.cmderr) ∧
      (a.toNat = 0x0D → t.cph = s.cph) ∧ (a.toNat = 0x0E → t.cres = s.cres) ∧
      (a.toNat = 0x0F → t.cflags = s.cflags) ∧
      (0x10 ≤ a.toNat → a.toNat < 0x14 → t.blk = s.blk) ∧
      (0x14 ≤ a.toNat → a.toNat < 0x18 → t.chain = s.chain) ∧
      (0x18 ≤ a.toNat → a.toNat < 0x1C → t.inLen = s.inLen) ∧
      (0x1C ≤ a.toNat → a.toNat < 0x20 → t.dataLen = s.dataLen) ∧
      (0x20 ≤ a.toNat → a.toNat < 0x24 → t.outLen = s.outLen) ∧
      (0x24 ≤ a.toNat → a.toNat < 0x28 → t.doneBytes = s.doneBytes) ∧
      (0x28 ≤ a.toNat → a.toNat < 0x2C → t.outPos = s.outPos) ∧
      (0x2C ≤ a.toNat → a.toNat < 0x30 → t.finalSize = s.finalSize) ∧
      (0x30 ≤ a.toNat → a.toNat < 0x34 → t.elapsed = s.elapsed) ∧
      (a.toNat = 0x34 → t.evt = s.evt) ∧ (a.toNat = 0x35 → t.evtseq = s.evtseq) ∧
      (0x40 ≤ a.toNat → a.toNat < 0x74 → t.sk = s.sk)) : SameRegs w s t := by
  intro a ha
  obtain ⟨h1, h2, h3, h4, h5, h6, h7, h8, h9, h10, h11, l1, l2, l3, l4, l5, l6, l7, h13, h14, h15⟩ := h a ha
  exact readReg_congr a s t h1 h2 h3 h4 h5 h6 h7 h8 h9 h10 h11 l1 l2 l3 l4 l5 l6 l7 h13 h14 h15

/-- A command's frame from its register frame, when the files, the environment and the buffer are the same fields. -/
theorem onlyRegs_of {w : RegAddr → Bool} {s t : State} (hr : SameRegs w s t) (bound : t.bound = s.bound)
    (inf : t.inf = s.inf) (outf : t.outf = s.outf) (agenda : t.agenda = s.agenda) (io : t.ioScript = s.ioScript)
    (draws : t.draws = s.draws) (blocks : t.chunkBlocks = s.chunkBlocks) (reply : t.reply = s.reply)
    (buf : t.chunkBuf = s.chunkBuf) : OnlyRegs w s t :=
  ⟨hr, ⟨bound, fun _ => by rw [inf], fun _ => by rw [outf]⟩, ⟨agenda, io, draws, blocks, reply⟩, buf⟩

/-- A failing command changes CMDERR alone (60 R302). -/
theorem onlyRegs_raiseCmd (c : ErrorCode) (s : State) : OnlyRegs (oneReg 0x0C) s (raiseCmd c s) := by
  refine onlyRegs_of (sameRegs_of fun a ha => ?_) rfl rfl rfl rfl rfl rfl rfl rfl rfl
  have := oneReg_false ha
  simp_all

/-- An accumulator command changes ACC alone (10 R26). -/
theorem onlyRegs_setAcc (v : Word) (s : State) : OnlyRegs (oneReg 0x0B) s (setAcc v s) := by
  refine onlyRegs_of (sameRegs_of fun a ha => ?_) rfl rfl rfl rfl rfl rfl rfl rfl rfl
  have := oneReg_false ha
  simp_all

end Sys2Proof.Machine
end

