-- ==== Sys2Proof/Laws/Codec.lean ====
section
/-! SUPPORT. Everything a sequencer step can do (45 R242 to R252), one lemma per step, each case with its condition; and
what a step is (20 R79). -/

namespace Sys2Proof.Machine

/-- The four steps of 45 R242. -/
theorem seqStep_cases (s : State) :
    (s.cflags.cancelReq = true ∧ seqStep s = .next (cancelStep s)) ∨
      (s.cflags.cancelReq = false ∧ s.doneBytes.toNat < s.dataLen.toNat ∧ seqStep s = chunkStep s) ∨
      (s.cflags.cancelReq = false ∧ s.dataLen.toNat ≤ s.doneBytes.toNat ∧ s.cflags.cdir = .enc ∧
        seqStep s = suffixStepEnc s) ∨
      (s.cflags.cancelReq = false ∧ s.dataLen.toNat ≤ s.doneBytes.toNat ∧ s.cflags.cdir = .dec ∧
        seqStep s = suffixStepDec s) := by
  cases hc : s.cflags.cancelReq with
  | true => exact .inl ⟨rfl, by simp [seqStep, hc]⟩
  | false =>
    by_cases hl : s.doneBytes.toNat < s.dataLen.toNat
    · exact .inr (.inl ⟨rfl, hl, by simp [seqStep, hc, hl]⟩)
    · cases hd : s.cflags.cdir with
      | enc => exact .inr (.inr (.inl ⟨rfl, by omega, rfl, by simp [seqStep, hc, hl, hd]⟩))
      | dec => exact .inr (.inr (.inr ⟨rfl, by omega, rfl, by simp [seqStep, hc, hl, hd]⟩))

/-- A turn of the sequencer: nothing, or one of the four steps. -/
theorem runSequencer_cases (s : State) :
    (s.cph ≠ .running ∧ runSequencer s = .next s) ∨ (s.cph = .running ∧ runSequencer s = seqStep s) := by
  by_cases h : s.cph = .running
  · exact .inr ⟨h, by simp [runSequencer, State.busy, h]⟩
  · exact .inl ⟨h, by simp [runSequencer, State.busy, h]⟩

/-- The state a chunk step hands to its append: the chunk read and transformed (45 R244). -/
abbrev afterChunkRead (s : State) : State :=
  loadChunk (Memory.slice s.inf s.doneBytes.toNat (chunkCount s)) (afterIo s)

/-- What a chunk step appends (45 R244, R246). -/
abbrev chunkOutput (s : State) : List Byte :=
  (bytesOf (chunkTransform (Memory.slice s.inf s.doneBytes.toNat (chunkCount s)) (afterIo s)).1).take
    (writeCount (chunkCount s) s)

/-- The four outcomes of a chunk step (45 R244). -/
theorem chunkStep_cases (s : State) :
    (s.doneBytes.toNat + chunkCount s ≤ s.inf.length ∧ ioAnswer s = true ∧ ioAnswer (afterIo s) = true ∧
        chunkStep s = .next (advance (chunkCount s) (writeCount (chunkCount s) s)
          (setOutput (Memory.append s.outf (chunkOutput s)) (afterIo (afterChunkRead s))))) ∨
      (s.doneBytes.toNat + chunkCount s ≤ s.inf.length ∧ ioAnswer s = true ∧ ioAnswer (afterIo s) = false ∧
        chunkStep s = .next (codecFail .ioFailure (loseOutput (afterIo (afterChunkRead s))))) ∨
      (s.doneBytes.toNat + chunkCount s ≤ s.inf.length ∧ ioAnswer s = false ∧
        chunkStep s = .next (codecFail .ioFailure (loseOutput (afterIo s)))) ∨
      (s.inf.length < s.doneBytes.toNat + chunkCount s ∧ chunkStep s = .fault .inReadOutsideFile) := by
  unfold chunkStep
  obtain ⟨hl, ha, e⟩ | ⟨hl, ha, e⟩ | ⟨hl, e⟩ := inRead_cases s.doneBytes.toNat (chunkCount s) s
    (fun bytes s1 => outAppend ((bytesOf (chunkTransform bytes s1).1).take (writeCount (chunkCount s) s))
      (loadChunk bytes s1) fun s2 => .next (advance (chunkCount s) (writeCount (chunkCount s) s) s2))
  · rw [e]
    have hi : ioAnswer (afterChunkRead s) = ioAnswer (afterIo s) := ioAnswer_congr _ _ rfl rfl
    obtain ⟨hb, e'⟩ | ⟨hb, e'⟩ := outAppend_cases (chunkOutput s) (afterChunkRead s)
      (fun s2 => .next (advance (chunkCount s) (writeCount (chunkCount s) s) s2))
    · exact .inl ⟨hl, ha, hi ▸ hb, e'⟩
    · exact .inr (.inl ⟨hl, ha, hi ▸ hb, e'⟩)
  · exact .inr (.inr (.inl ⟨hl, ha, e⟩))
  · exact .inr (.inr (.inr ⟨hl, e⟩))

/-- The outcomes of the encrypt suffix step (45 R248). -/
theorem suffixStepEnc_cases (s : State) :
    (Config.maxPlainLen < s.inLen.toNat ∧ suffixStepEnc s = .next (codecFail .fileTooLarge s)) ∨
      (s.inLen.toNat ≤ Config.maxPlainLen ∧ ioAnswer s = true ∧
        suffixStepEnc s = .next (succeed (countSuffix
          (setOutput (Memory.append s.outf (runXform (packLen s.inLen.toNat) s).1.toList)
            (afterIo (setChain (runXform (packLen s.inLen.toNat) s).2 s)))))) ∨
      (s.inLen.toNat ≤ Config.maxPlainLen ∧ ioAnswer s = false ∧
        suffixStepEnc s = .next (codecFail .ioFailure (loseOutput (afterIo
          (setChain (runXform (packLen s.inLen.toNat) s).2 s))))) := by
  unfold suffixStepEnc
  by_cases hl : s.inLen.toNat > Config.maxPlainLen
  · exact .inl ⟨hl, by simp [hl]⟩
  · rw [if_neg hl]
    have hi : ioAnswer (setChain (runXform (packLen s.inLen.toNat) s).2 s) = ioAnswer s :=
      ioAnswer_congr _ _ rfl rfl
    obtain ⟨hb, e⟩ | ⟨hb, e⟩ := outAppend_cases (runXform (packLen s.inLen.toNat) s).1.toList
      (setChain (runXform (packLen s.inLen.toNat) s).2 s)
      (fun s1 => .next (succeed (countSuffix s1)))
    · exact .inr (.inl ⟨by omega, hi ▸ hb, e⟩)
    · exact .inr (.inr ⟨by omega, hi ▸ hb, e⟩)

/-- The outcomes of a decrypt once the length is recovered (45 R249 to R251). -/
theorem finishDecrypt_cases (l : Nat) (s : State) :
    (lengthAccepted l s.dataLen.toNat = false ∧ finishDecrypt l s = .next (codecFail .malformedCryptogram s)) ∨
      (lengthAccepted l s.dataLen.toNat = true ∧ s.outLen.toNat ≤ l ∧
        finishDecrypt l s = .next (succeed (setFinalSize (BitVec.ofNat 64 l) s))) ∨
      (lengthAccepted l s.dataLen.toNat = true ∧ l < s.outLen.toNat ∧ l ≤ s.outf.length ∧ ioAnswer s = true ∧
        finishDecrypt l s = .next (succeed (setFinalSize (BitVec.ofNat 64 l)
          (setOutput (Memory.truncate s.outf l) (afterIo s))))) ∨
      (lengthAccepted l s.dataLen.toNat = true ∧ l < s.outLen.toNat ∧ l ≤ s.outf.length ∧ ioAnswer s = false ∧
        finishDecrypt l s = .next (codecFail .ioFailure (loseOutput (afterIo s)))) ∨
      (lengthAccepted l s.dataLen.toNat = true ∧ l < s.outLen.toNat ∧ s.outf.length < l ∧
        finishDecrypt l s = .fault .truncateBeyondFile) := by
  unfold finishDecrypt
  cases hacc : lengthAccepted l s.dataLen.toNat with
  | false => exact .inl ⟨rfl, rfl⟩
  | true =>
    by_cases hl : l < s.outLen.toNat
    · simp only [hl, if_true]
      obtain ⟨hb, hi, e⟩ | ⟨hb, hi, e⟩ | ⟨hb, e⟩ := outTruncate_cases l s
        (fun s1 => .next (succeed (setFinalSize (BitVec.ofNat 64 l) s1))) <;> rw [e]
      · exact .inr (.inr (.inl ⟨trivial, trivial, hb, hi, rfl⟩))
      · exact .inr (.inr (.inr (.inl ⟨trivial, trivial, hb, hi, rfl⟩)))
      · exact .inr (.inr (.inr (.inr ⟨trivial, trivial, hb, rfl⟩)))
    · exact .inr (.inl ⟨rfl, by omega, by simp [hl]⟩)

/-- The outcomes of the decrypt suffix step before the length is checked (45 R249). -/
theorem suffixStepDec_cases (s : State) :
    (s.dataLen.toNat + 8 ≤ s.inf.length ∧ ioAnswer s = true ∧
        suffixStepDec s = checkSuffix (blockOfBytes (Memory.slice s.inf s.dataLen.toNat 8)) (afterIo s)) ∨
      (s.dataLen.toNat + 8 ≤ s.inf.length ∧ ioAnswer s = false ∧
        suffixStepDec s = .next (codecFail .ioFailure (loseOutput (afterIo s)))) ∨
      (s.inf.length < s.dataLen.toNat + 8 ∧ suffixStepDec s = .fault .inReadOutsideFile) :=
  inRead_cases s.dataLen.toNat 8 s fun bytes s1 => checkSuffix (blockOfBytes bytes) s1

/-- A suffix block either does not unpack, or gives a length (45 R249). -/
theorem checkSuffix_cases (b : Block) (s : State) :
    (unpackLen (runXform b s).1 = none ∧
        checkSuffix b s = .next (codecFail .malformedCryptogram (setChain (runXform b s).2 s))) ∨
      ∃ l, unpackLen (runXform b s).1 = some l ∧
        checkSuffix b s = finishDecrypt l (setChain (runXform b s).2 s) := by
  unfold checkSuffix
  cases h : unpackLen (runXform b s).1 with
  | none => exact .inl ⟨rfl, rfl⟩
  | some l => exact .inr ⟨l, rfl, rfl⟩

/-! ## The oracle's answers over a run -/

/-- The oracle's next `n` answers are successes when the script says so (D19). -/
theorem ioSucceeds_of_script (n : Nat) : ∀ s : State, s.ioScript = List.replicate n true → ioSucceeds n s := by
  induction n with
  | zero => intro s _; trivial
  | succ n ih =>
    intro s h
    rw [List.replicate_succ] at h
    exact ⟨ioAnswer_cons s true _ h, ih (afterIo s) (by simp [h])⟩

end Sys2Proof.Machine
end

