-- ==== Sys2Proof/Laws/Decode.lean ====
section
/-! SUPPORT. The fields of a command word (30 R90): each field reads what was laid in it, and the rows of the opcode map are
told apart by their OPC (30 R97, R98). -/

namespace Sys2Proof

/-- Every bit of a word laid out from its fields (30 R90). -/
theorem layFields_getLsbD (o : BitVec 8) (d : BitVec 1) (m : BitVec 2) (i : BitVec 3) (v : BitVec 16) (k : Nat) :
    (layFields o d m i v).getLsbD k =
      if k < 16 then v.getLsbD k else if k < 19 then i.getLsbD (k - 16) else if k < 21 then false
        else if k < 23 then m.getLsbD (k - 21) else if k < 24 then d.getLsbD (k - 23) else o.getLsbD (k - 24) := by
  have h : (layFields o d m i v).getLsbD k = (o ++ (d ++ (m ++ (0#2 ++ (i ++ v))))).getLsbD k := rfl
  rw [h]
  simp only [BitVec.getLsbD_append]
  split_ifs <;> first | rfl | omega | simp

theorem opcField_layFields (o : BitVec 8) (d : BitVec 1) (m : BitVec 2) (i : BitVec 3) (v : BitVec 16) :
    opcField (layFields o d m i v) = o := by
  apply BitVec.eq_of_getLsbD_eq
  intro k hk
  rw [opcField, BitVec.getLsbD_extractLsb', layFields_getLsbD, decide_eq_true hk, Bool.true_and]
  split_ifs <;> first | omega | (congr 1; omega)

theorem dField_layFields (o : BitVec 8) (d : BitVec 1) (m : BitVec 2) (i : BitVec 3) (v : BitVec 16) :
    dField (layFields o d m i v) = d := by
  apply BitVec.eq_of_getLsbD_eq
  intro k hk
  rw [dField, BitVec.getLsbD_extractLsb', layFields_getLsbD, decide_eq_true hk, Bool.true_and]
  split_ifs <;> first | omega | (congr 1; omega)

theorem mField_layFields (o : BitVec 8) (d : BitVec 1) (m : BitVec 2) (i : BitVec 3) (v : BitVec 16) :
    mField (layFields o d m i v) = m := by
  apply BitVec.eq_of_getLsbD_eq
  intro k hk
  rw [mField, BitVec.getLsbD_extractLsb', layFields_getLsbD, decide_eq_true hk, Bool.true_and]
  split_ifs <;> first | omega | (congr 1; omega)

theorem idxField_layFields (o : BitVec 8) (d : BitVec 1) (m : BitVec 2) (i : BitVec 3) (v : BitVec 16) :
    idxField (layFields o d m i v) = i := by
  apply BitVec.eq_of_getLsbD_eq
  intro k hk
  rw [idxField, BitVec.getLsbD_extractLsb', layFields_getLsbD, decide_eq_true hk, Bool.true_and]
  split_ifs <;> first | omega | (congr 1; omega)

theorem immField_layFields (o : BitVec 8) (d : BitVec 1) (m : BitVec 2) (i : BitVec 3) (v : BitVec 16) :
    immField (layFields o d m i v) = v := by
  apply BitVec.eq_of_getLsbD_eq
  intro k hk
  rw [immField, BitVec.getLsbD_extractLsb', layFields_getLsbD, decide_eq_true hk, Bool.true_and]
  split_ifs <;> first | omega | (congr 1; omega)

/-- A word whose RSV bits are 0 is its fields laid out again. -/
theorem layFields_fields (w : CmdWord) (h19 : w.getLsbD 19 = false) (h20 : w.getLsbD 20 = false) :
    layFields (opcField w) (dField w) (mField w) (idxField w) (immField w) = w := by
  apply BitVec.eq_of_getLsbD_eq
  intro k hk
  rw [layFields_getLsbD]
  simp only [opcField, dField, mField, idxField, immField, BitVec.getLsbD_extractLsb']
  interval_cases k <;> first | exact h19.symm | exact h20.symm | simp

@[simp] theorem dirOfBits_dirBits (d : Dir) : dirOfBits (dirBits d) = d := by cases d <;> rfl

@[simp] theorem dirBits_dirOfBits (d : BitVec 1) : dirBits (dirOfBits d) = d := by revert d; decide

@[simp] theorem modeOfBits_modeBits (m : Mode) : modeOfBits (modeBits m) = m := by cases m <;> rfl

@[simp] theorem modeBits_modeOfBits (m : BitVec 2) : modeBits (modeOfBits m) = m := by revert m; decide

/-- No two rows share an OPC: a row is found by its own. -/
@[simp] theorem rowOf_opc (r : Mnemonic) : rowOf r.opc = some r := by cases r <;> rfl

theorem rowOf_eq_some (o : BitVec 8) (r : Mnemonic) : rowOf o = some r ↔ o = r.opc := by
  constructor
  · intro h
    have := List.find?_some h
    simp only [beq_iff_eq] at this
    exact this.symm
  · rintro rfl
    exact rowOf_opc r

@[simp] theorem assemble_mnemonic (r : Mnemonic) (w : CmdWord) : (r.assemble w).mnemonic = r := by cases r <;> rfl

/-- Everything the decoder answers with success (30 R98). -/
theorem decode_eq_ok (w : CmdWord) (i : Instr) :
    decode w = .ok i ↔ ∃ r : Mnemonic, opcField w = r.opc ∧ w &&& r.format.mustBeZero = 0 ∧ r.assemble w = i := by
  unfold decode
  cases h : rowOf (opcField w) with
  | none =>
    simp only [reduceCtorEq, false_iff]
    rintro ⟨r, hr, -, -⟩
    rw [hr, rowOf_opc] at h
    cases h
  | some r =>
    have hr := (rowOf_eq_some _ _).1 h
    by_cases hz : w &&& r.format.mustBeZero = 0
    · simp only [hz, if_true, Except.ok.injEq]
      constructor
      · intro e
        exact ⟨r, hr, hz, e⟩
      · rintro ⟨q, hq, -, e⟩
        have : r = q := by
          have := rowOf_opc q
          rw [← hq, h] at this
          simpa using this
        rw [this, e]
    · simp only [hz, if_false, reduceCtorEq, false_iff]
      rintro ⟨q, hq, hz', -⟩
      have : r = q := by
        have := rowOf_opc q
        rw [← hq, h] at this
        simpa using this
      exact hz (this ▸ hz')

end Sys2Proof
end

