-- ==== Sys2Proof/Laws/PerInstr.lean ====
section
/-! SUPPORT. A statement for every command, one lemma per constructor: the word of a well-formed command carries its row's
bits (30 R97). -/

namespace Sys2Proof.Laws.MatchesRow

/-- The word of a well-formed command agrees with its row's match on every bit of its row's mask. -/
def Statement (i : Instr) : Prop := i.wellFormed = true → encode i &&& i.mnemonic.mask = i.mnemonic.matchWord

/-- Masking the operand fields of format I away. -/
theorem mask_imm (o : BitVec 8) (v : Word) : layFields o 0 0 0 v &&& 0xFFFF0000 = o ++ 0#24 := by
  apply BitVec.eq_of_getLsbD_eq
  intro k hk
  rw [BitVec.getLsbD_and, layFields_getLsbD, BitVec.getLsbD_append]
  interval_cases k <;> simp

/-- Masking the operand fields of format X away. -/
theorem mask_idx (o : BitVec 8) (i : BitVec 3) (v : Word) : layFields o 0 0 i v &&& 0xFFF80000 = o ++ 0#24 := by
  apply BitVec.eq_of_getLsbD_eq
  intro k hk
  rw [BitVec.getLsbD_and, layFields_getLsbD, BitVec.getLsbD_append]
  interval_cases k <;> simp

/-- Masking the operand fields of format X4 away: IDX[2] stays, and is 0. -/
theorem mask_idx4 (o : BitVec 8) (i : BitVec 3) (v : Word) (h : i.toNat < 4) :
    layFields o 0 0 i v &&& 0xFFFC0000 = o ++ 0#24 := by
  have top : i.getLsbD 2 = false := by revert i; decide
  apply BitVec.eq_of_getLsbD_eq
  intro k hk
  rw [BitVec.getLsbD_and, layFields_getLsbD, BitVec.getLsbD_append]
  interval_cases k <;> first | (simp; done) | simpa using top

theorem nop : Statement .nop := by intro; rfl

theorem reset : Statement .reset := by intro; rfl

theorem errclr : Statement .errclr := by intro; rfl

theorem cancel : Statement .cancel := by intro; rfl

theorem kdclr : Statement .kdclr := by intro; rfl

theorem kdbyte (b : Byte) : Statement (.kdbyte b) := by
  intro
  revert b
  decide +kernel

theorem keyldw (i : BitVec 3) (v : Word) : Statement (.keyldw i v) := by
  intro
  have hm : Mnemonic.keyldw.mask = 0xFFF80000 := by decide
  show layFields 0x12 0 0 i v &&& Mnemonic.keyldw.mask = (0x12 : BitVec 8) ++ 0#24
  rw [hm]
  exact mask_idx 0x12 i v

theorem schedgen : Statement .schedgen := by intro; rfl

theorem schedinv : Statement .schedinv := by intro; rfl

theorem crypt : Statement .crypt := by intro; rfl

theorem blkldw (i : BitVec 3) (v : Word) : Statement (.blkldw i v) := by
  intro h
  have hm : Mnemonic.blkldw.mask = 0xFFFC0000 := by decide
  show layFields 0x23 0 0 i v &&& Mnemonic.blkldw.mask = (0x23 : BitVec 8) ++ 0#24
  rw [hm]
  exact mask_idx4 0x23 i v (by simpa [Instr.wellFormed] using h)

theorem modeinit (d : Dir) (m : Mode) : Statement (.modeinit d m) := by
  intro
  cases d <;> cases m <;> rfl

theorem xform : Statement .xform := by intro; rfl

theorem accld (v : Word) : Statement (.accld v) := by
  intro
  have hm : Mnemonic.accld.mask = 0xFFFF0000 := by decide
  show layFields 0x40 0 0 0 v &&& Mnemonic.accld.mask = (0x40 : BitVec 8) ++ 0#24
  rw [hm]
  exact mask_imm 0x40 v

theorem muli (v : Word) : Statement (.muli v) := by
  intro
  have hm : Mnemonic.muli.mask = 0xFFFF0000 := by decide
  show layFields 0x41 0 0 0 v &&& Mnemonic.muli.mask = (0x41 : BitVec 8) ++ 0#24
  rw [hm]
  exact mask_imm 0x41 v

theorem addi (v : Word) : Statement (.addi v) := by
  intro
  have hm : Mnemonic.addi.mask = 0xFFFF0000 := by decide
  show layFields 0x42 0 0 0 v &&& Mnemonic.addi.mask = (0x42 : BitVec 8) ++ 0#24
  rw [hm]
  exact mask_imm 0x42 v

theorem mulinv : Statement .mulinv := by intro; rfl

theorem addinv : Statement .addinv := by intro; rfl

theorem cstart (d : Dir) (m : Mode) : Statement (.cstart d m) := by
  intro
  cases d <;> cases m <;> rfl

end Sys2Proof.Laws.MatchesRow
end

