-- ==== Sys2Proof/Tests/Slice0.lean ====
section
/-! SUPPORT. Tests on values the spec writes out (30 R104, 95 parts 2 to 4; the rules govern where a vector differs), the
ill-formed terms WellFormed refuses, and for each obligation with hypotheses a witness that meets them. -/

namespace Sys2Proof.Machine

-- One kernel evaluation at a time: side by side they would fill the memory limit with thread stacks.
set_option Elab.async false

/-! ## Helpers -/

/-- A step's answer is a next state with this property. -/
def holds (r : Result) (p : State → Bool) : Bool :=
  match r with
  | .next t => p t
  | .fault _ => false
  | .refused _ => false

theorem exists_next (r : Result) (h : holds r (fun _ => true) = true) : ∃ t, r = .next t := by
  cases r with
  | next t => exact ⟨t, rfl⟩
  | fault _ => cases h
  | refused _ => cases h

/-- KEY of `KDSTR "secret"` (V1.2). -/
def secretKey : Key := #v[0x73, 0x65, 0x63, 0x72, 0x65, 0x74, 0, 0, 0, 0, 0, 0, 0, 0, 0, 0]

/-- KEY words 0001 to 0008 (V3). -/
def referenceKey : Key := #v[0, 1, 0, 2, 0, 3, 0, 4, 0, 5, 0, 6, 0, 7, 0, 8]

/-- "HELLO". -/
def hello : List Byte := [0x48, 0x45, 0x4C, 0x4C, 0x4F]

/-- A complete key, the "HELLO" file bound, and an oracle that will answer four times with success. -/
def ready : State :=
  { State.reset with key := secretKey, keyv := 0xFF, kdidx := 6, inf := Memory.ofBytes hello, bound := true,
                     ioScript := [true, true, true, true] }

/-- `ready` with the zero schedule in SK and every valid bit set, ECB encryption configured. -/
def configured : State :=
  { ready with cfg := { mode := .ecb, dir := .enc, modev := true, skdir := .enc, skv := true } }

/-- An OFB encrypt run in progress on "HELLO", just started (45 R237). -/
def runningEnc : State :=
  { ready with cph := .running, sk := genSchedule secretKey, chain := ivOf secretKey
               cfg := { mode := .ofb, dir := .enc, modev := true, skdir := .enc, skv := true }
               cflags := { cancelReq := false, cdir := .enc, cmode := .ofb }
               inLen := 5, dataLen := 5, outLen := 8, evt := .started, evtseq := 1 }

/-- The same run once its chunk step is done (the eight bytes of V7.7). -/
def suffixEnc : State :=
  { runningEnc with doneBytes := 5, outPos := 8, evt := .progress, evtseq := 2
                    outf := Memory.ofBytes [0xF9, 0x4C, 0x79, 0xA3, 0x1A, 0xFF, 0x55, 0x73] }

/-- An OFB decrypt run whose one chunk step is done and whose trailing block is `last`, with the oracle's next answers. -/
def suffixDecWith (answers : List Bool) (last : Block) : State :=
  { runningEnc with ioScript := answers
                    cfg := { mode := .ofb, dir := .dec, modev := true, skdir := .enc, skv := true }
                    cflags := { cancelReq := false, cdir := .dec, cmode := .ofb }
                    inf := Memory.ofBytes ([1, 2, 3, 4, 5, 6, 7, 8] ++ last.toList)
                    outf := Memory.ofBytes [8, 7, 6, 5, 4, 3, 2, 1]
                    inLen := 16, dataLen := 8, outLen := 8, doneBytes := 8, outPos := 8 }

/-- That run when every primitive succeeds. -/
def suffixDec (last : Block) : State := suffixDecWith [true, true, true, true] last

/-- The trailing block that an OFB decrypt from the IV reads as pack_len(n). -/
def suffixOf (n : Nat) : Block := Block.xor (packLen n) (cryptBlock (ivOf secretKey) (genSchedule secretKey))

/-! ## WellFormed and Decode (30 R90 to R104) -/

/-- The one check of WellFormed refuses block word 4 and 7 and accepts 0 and 3 (30 R91, R99). -/
theorem test_wellFormed :
    (Instr.blkldw 4 0).wellFormed = false ∧ (Instr.blkldw 7 0xFFFF).wellFormed = false ∧
      (Instr.blkldw 0 0).wellFormed = true ∧ (Instr.blkldw 3 0xFFFF).wellFormed = true := by decide

/-- The words of the control commands: OPC 0x00 to 0x03, all else 0 (30 R97). -/
theorem test_decode_control :
    decode 0b00000000000000000000000000000000 = .ok .nop ∧ decode 0b00000001000000000000000000000000 = .ok .reset ∧
      decode 0b00000010000000000000000000000000 = .ok .errclr ∧
      decode 0b00000011000000000000000000000000 = .ok .cancel := by decide

/-- The words of the key commands: 's' = 0x73; IDX = 7, IMM = 0x0008 (30 R90, R97, R104). -/
theorem test_decode_key :
    decode 0b00010000000000000000000000000000 = .ok .kdclr ∧
      decode 0b00010001000000000000000001110011 = .ok (.kdbyte 0x73) ∧
      decode 0b00010010000001110000000000001000 = .ok (.keyldw 7 0x0008) := by decide

/-- The words of the cipher commands: IDX = 3, IMM = 0x0003 (30 R90, R97, R104). -/
theorem test_decode_cipher :
    decode 0b00100000000000000000000000000000 = .ok .schedgen ∧
      decode 0b00100001000000000000000000000000 = .ok .schedinv ∧
      decode 0b00100010000000000000000000000000 = .ok .crypt ∧
      decode 0b00100011000000110000000000000011 = .ok (.blkldw 3 0x0003) := by decide

/-- The words of the mode commands: D = 1, M = 01 in bits 23 to 21 (30 R90, R93, R94, R97). -/
theorem test_decode_mode :
    decode 0b00110000101000000000000000000000 = .ok (.modeinit .dec .cbc) ∧
      decode 0b00110000000000000000000000000000 = .ok (.modeinit .enc .ecb) ∧
      decode 0b00110001000000000000000000000000 = .ok .xform := by decide

/-- The words of the arithmetic commands: OPC 0x40 to 0x44, IMM (30 R97). -/
theorem test_decode_arith :
    decode 0b01000000000000000001001000110100 = .ok (.accld 0x1234) ∧
      decode 0b01000001000000001000000000000000 = .ok (.muli 0x8000) ∧
      decode 0b01000010000000001111111111111111 = .ok (.addi 0xFFFF) ∧
      decode 0b01000011000000000000000000000000 = .ok .mulinv ∧
      decode 0b01000100000000000000000000000000 = .ok .addinv := by decide

/-- The words of CSTART: D = 0, M = 11 and D = 1, M = 10 (30 R104). -/
theorem test_decode_cstart :
    decode 0b01010000011000000000000000000000 = .ok (.cstart .enc .ofb) ∧
      decode 0b01010000110000000000000000000000 = .ok (.cstart .dec .cfb) := by decide

/-- V8.2 to V8.7: a 1 in a must-be-zero bit, and unassigned opcodes. -/
theorem test_decode_illegal :
    decode 0x00000001 = .error .mustBeZeroBitSet ∧ decode 0x23040000 = .error .mustBeZeroBitSet ∧
      decode 0x11000100 = .error .mustBeZeroBitSet ∧ decode 0x12080000 = .error .mustBeZeroBitSet ∧
      decode 0x30100000 = .error .mustBeZeroBitSet ∧ decode 0xFF000000 = .error .unassignedOpcode ∧
      decode 0x04000000 = .error .unassignedOpcode ∧ decode 0x51000000 = .error .unassignedOpcode := by decide

/-- The host's view of the decoder reads the same words. -/
theorem test_decodeTableWord :
    decodeTableWord 32 0x11000073 = some (.kdbyte 0x73) ∧ decodeTableWord 32 0x23040000 = none := by decide

/-- A word placed on the port is the first command after reset: ACCLD 0x1234 (P4). -/
theorem test_withFetchWord :
    holds (step (State.reset.withFetchWord 32 0x40001234)) (fun t => t.acc == 0x1234 && t.agenda == []) = true := by
  decide +kernel

/-- 30 R102: the syntax of three commands. -/
theorem test_assemblyText :
    assemblyText (.kdbyte 115) = "KDBYTE 115" ∧ assemblyText (.modeinit .dec .cbc) = "MODEINIT DEC, CBC" ∧
      assemblyText .crypt = "CRYPT" := by decide +kernel

/-- 30 R103: KEYLD and BLKLD take their words from the top, in order. -/
theorem test_pseudo :
    (blkld 0x0000000100020003).map encode = [0x23000000, 0x23010001, 0x23020002, 0x23030003] ∧
      (keyld 0x00010002000300040005000600070008).map encode = [0x12000001, 0x12010002, 0x12020003, 0x12030004,
        0x12040005, 0x12050006, 0x12060007, 0x12070008] ∧
      (submit .enc .ecb [0x6B]).map encode = [0x10000000, 0x1100006B, 0x50000000] := by decide +kernel

/-! ## One step each, on the vectors of 95 -/

/-- V1.2 after V1.1's KDCLR: byte 's' into KEY[0]. -/
theorem test_kdbyte :
    holds (exec (.kdbyte 0x73) { State.reset with keyv := 0xFF }) (fun t => t.key[0] == 0x73 && t.kdidx == 1) = true := by
  decide +kernel

/-- V1.7: the byte at KDIDX 15 is folded there and KDIDX wraps to 0. -/
theorem test_kdbyte_wraps :
    holds (exec (.kdbyte 0x61) { State.reset with kdidx := 15 }) (fun t => t.key[15] == 0x61 && t.kdidx == 0) = true := by
  decide +kernel

/-- V1.1: KDCLR. -/
theorem test_kdclr :
    holds (exec .kdclr ready) (fun t => t.key == Key.zero && t.keyv == 0xFF && t.kdidx == 0) = true := by decide +kernel

/-- V1.10's last load: KEYLDW 7, 0x0008. -/
theorem test_keyldw :
    holds (exec (.keyldw 7 0x0008) { State.reset with keyv := 0x7F })
      (fun t => t.key[14] == 0 && t.key[15] == 8 && t.keyv == 0xFF) = true := by decide +kernel

/-- V1.4: the IV of "abcdefghijklmnopqrst", and the fold of its bytes. -/
theorem test_derive_wraps :
    (derive 16 [0x61, 0x62, 0x63, 0x64, 0x65, 0x66, 0x67, 0x68, 0x69, 0x6A, 0x6B, 0x6C, 0x6D, 0x6E, 0x6F, 0x70, 0x71,
        0x72, 0x73, 0x74]).toList =
      [0x10, 0x10, 0x10, 0x10, 0x65, 0x66, 0x67, 0x68, 0x69, 0x6A, 0x6B, 0x6C, 0x6D, 0x6E, 0x6F, 0x70] ∧
    (ivOf referenceKey).toList = [0, 4, 0, 4, 0, 4, 0, 0x0C] := by decide +kernel

/-- V2.1. -/
theorem test_mul :
    mul 0 0 = 1 ∧ mul 0 1 = 0 ∧ mul 0 2 = 0xFFFF ∧ mul 2 0x8000 = 0 ∧ mul 0xFFFF 0xFFFF = 4 ∧ mul 0x8000 0x8000 = 0xC001 ∧
      mul 0x1234 0x5678 = 0xFA3B := by decide +kernel

/-- V2.2, V2.3. -/
theorem test_inverses :
    mulInv 0 = 0 ∧ mulInv 1 = 1 ∧ mulInv 2 = 0x8001 ∧ mulInv 3 = 0x5556 ∧ mulInv 0x8000 = 0xFFFF ∧
      mulInv 0xFFFF = 0x8000 ∧ mulInv 0x1234 = 0x9E9A ∧ addInv 0 = 0 ∧ addInv 1 = 0xFFFF ∧ addInv 0x1234 = 0xEDCC := by
  decide +kernel

/-- V2.5: MULI and ADDI. -/
theorem test_muli_addi :
    holds (exec (.muli 0x5678) { State.reset with acc := 0x1234 }) (fun t => t.acc == 0xFA3B) = true ∧
      holds (exec (.addi 0xEDCC) { State.reset with acc := 0x1234 }) (fun t => t.acc == 0) = true := by decide +kernel

/-- V2.5: MULINV, ADDINV; P4: ACCLD. -/
theorem test_mulinv_addinv_accld :
    holds (exec .mulinv { State.reset with acc := 3 }) (fun t => t.acc == 0x5556) = true ∧
      holds (exec .addinv { State.reset with acc := 0x1234 }) (fun t => t.acc == 0xEDCC) = true ∧
      holds (exec (.accld 0x8000) State.reset) (fun t => t.acc == 0x8000) = true := by decide +kernel

/-- V3, V4: SCHEDGEN on the reference key. -/
theorem test_schedgen :
    holds (exec .schedgen { State.reset with key := referenceKey, keyv := 0xFF })
      (fun t => t.sk[8] == 0x0400 && t.sk[15] == 0x0200 && t.sk[47] == 0xE001 && t.sk[51] == 0x0140 &&
        Cfg.word t.cfg == 0x0020) = true := by decide +kernel

/-- V3, V4: SCHEDINV of the reference schedule. -/
theorem test_schedinv :
    holds (exec .schedinv { State.reset with sk := genSchedule referenceKey, cfg := { Cfg.reset with skv := true } })
      (fun t => t.sk[0] == 0xFE01 && t.sk[1] == 0xFF40 && t.sk[2] == 0xFF00 && t.sk[3] == 0x659A && t.sk[6] == 0xFFFD &&
        t.sk[49] == 0xFFFE && t.sk[51] == 0xC001 && Cfg.word t.cfg == 0x0030) = true := by decide +kernel

/-- V3: the reference vector. -/
theorem test_crypt :
    holds (exec .crypt { State.reset with blk := #v[0, 0, 0, 1, 0, 2, 0, 3], sk := genSchedule referenceKey
                                          cfg := { Cfg.reset with skv := true } })
      (fun t => t.blk.toList == [0x11, 0xFB, 0xED, 0x2B, 0x01, 0x98, 0x6D, 0xE5]) = true := by decide +kernel

/-- V4.5: the all-ones key. -/
theorem test_crypt_ones :
    (cryptBlock Block.zero (Vector.replicate 52 0xFFFF)).toList = [0xDB, 0xAA, 0xB1, 0x5D, 0x54, 0x84, 0x4F, 0xE7] := by
  decide +kernel

/-- V4: BLKLDW 3, 0x0003, and the ill-formed term (log 12). -/
theorem test_blkldw :
    holds (exec (.blkldw 3 0x0003) State.reset) (fun t => t.blk.toList == [0, 0, 0, 0, 0, 0, 0, 3]) = true ∧
      holds (exec (.blkldw 4 0) State.reset) (fun t => t.cmderr == .illegalCommand) = true := by decide +kernel

/-- V6.2: CFG and CHAIN after MODEINIT DEC, CBC. -/
theorem test_modeinit :
    holds (exec (.modeinit .dec .cbc) ready)
      (fun t => Cfg.word t.cfg == 0x003D && t.chain.toList == [0x73, 0x65, 0x63, 0x72, 0x65, 0x74, 0, 0]) = true ∧
      holds (exec (.modeinit .dec .ofb) ready) (fun t => Cfg.word t.cfg == 0x002F) = true := by decide +kernel

/-- V6.1: XFORM on P1 in CBC. -/
theorem test_xform_cbc :
    holds (exec .xform { ready with blk := #v[0, 0, 0, 1, 0, 2, 0, 3], sk := genSchedule secretKey, chain := ivOf secretKey
                                    cfg := { mode := .cbc, dir := .enc, modev := true, skdir := .enc, skv := true } })
      (fun t => t.blk.toList == [0x43, 0x8D, 0x39, 0x12, 0x9A, 0xFF, 0x06, 0xB1] && t.chain == t.blk) = true := by
  decide +kernel

/-- V6.1: XFORM on P1 in OFB. -/
theorem test_xform_ofb :
    holds (exec .xform { ready with blk := #v[0, 0, 0, 1, 0, 2, 0, 3], sk := genSchedule secretKey, chain := ivOf secretKey
                                    cfg := { mode := .ofb, dir := .enc, modev := true, skdir := .enc, skv := true } })
      (fun t => t.blk.toList == [0xB1, 0x09, 0x35, 0xEE, 0x55, 0xFD, 0x55, 0x70] &&
        t.chain.toList == [0xB1, 0x09, 0x35, 0xEF, 0x55, 0xFF, 0x55, 0x73]) = true := by decide +kernel

/-- V5. -/
theorem test_suffix :
    (packLen 5).toList = [0, 0, 0, 0, 0, 0, 0, 0x28] ∧
      (packLen 35184372088831).toList = [0, 0, 0xFF, 0xFF, 0xFF, 0xFF, 0xFF, 0xF8] ∧
      unpackLen #v[0, 0, 0xFF, 0xFF, 0xFF, 0xFF, 0xFF, 0xF8] = some 35184372088831 ∧
      unpackLen #v[0, 1, 0, 0, 0, 0, 0, 0] = none ∧ unpackLen #v[1, 0, 0, 0, 0, 0, 0, 0] = none ∧
      unpackLen #v[0, 0, 0, 0, 0, 0, 0, 0x29] = none := by decide +kernel

/-- V5: the accepted window for DATA_LEN = 8. -/
theorem test_window :
    lengthAccepted 0 8 = false ∧ lengthAccepted 1 8 = true ∧ lengthAccepted 8 8 = true ∧ lengthAccepted 9 8 = false ∧
      lengthAccepted 0 0 = true ∧ lengthAccepted 1 0 = false := by decide

/-- P3 step 2: CSTART ENC, ECB on "HELLO". -/
theorem test_cstart_enc :
    holds (exec (.cstart .enc .ecb) ready)
      (fun t => t.cph == .running && t.inLen == 5 && t.dataLen == 5 && t.outLen == 8 && Cfg.word t.cfg == 0x0028 &&
        Cflags.word t.cflags == 0 && t.evt == .started && t.evtseq == 1) = true := by decide +kernel

/-- V7.10: CSTART DEC, ECB on five bytes. -/
theorem test_cstart_dec :
    holds (exec (.cstart .dec .ecb) ready)
      (fun t => t.cph == .failed && t.cres == .unalignedInput && t.inLen == 5 && t.dataLen == 0 &&
        Cfg.word t.cfg == 0x003C && t.evtseq == 1) = true := by decide +kernel

/-- V7.7: the chunk step of the OFB run on "HELLO". -/
theorem test_chunk_step :
    holds (runSequencer runningEnc)
      (fun t => Memory.bytes t.outf == [0xF9, 0x4C, 0x79, 0xA3, 0x1A, 0xFF, 0x55, 0x73] && t.doneBytes == 5 &&
        t.outPos == 8 && t.evt == .progress && t.chain.toList == [0xB1, 0x09, 0x35, 0xEF, 0x55, 0xFF, 0x55, 0x73]) =
      true := by decide +kernel

/-- V7.7: the suffix step of the OFB run on "HELLO". -/
theorem test_suffix_step :
    holds (runSequencer { suffixEnc with chain := #v[0xB1, 0x09, 0x35, 0xEF, 0x55, 0xFF, 0x55, 0x73] })
      (fun t => (Memory.bytes t.outf).drop 8 == [0x07, 0x7E, 0x4A, 0x39, 0xF8, 0x71, 0x2B, 0xDF] &&
        t.finalSize == 16 && t.cph == .succeeded && t.evtseq == 3) = true := by decide +kernel

/-- 45 R249 to R251: a recovered length of 5 truncates the eight bytes. -/
theorem test_suffix_step_dec :
    holds (runSequencer (suffixDec (suffixOf 5)))
      (fun t => Memory.bytes t.outf == [8, 7, 6, 5, 4] && t.finalSize == 5 && t.cph == .succeeded) = true := by
  decide +kernel

/-- 20 R85: the chunk buffer holds CHUNK_BYTES bytes, the transformed chunk first (one block here, CHUNK_BYTES = 8). -/
theorem test_chunk_buffer :
    holds (runSequencer { runningEnc with chunkBlocks := 0 })
      (fun t => chunkContent t == [0xF9, 0x4C, 0x79, 0xA3, 0x1A, 0xFF, 0x55, 0x73]) = true := by decide +kernel

/-- V8.1, V8.11, V8.12: NOP, ERRCLR, and CANCEL while idle. -/
theorem test_control :
    exec .nop State.reset = .next State.reset ∧
      holds (exec .errclr { State.reset with cmderr := .busy }) (fun t => t == State.reset) = true ∧
      exec .cancel State.reset = .next State.reset := by
  refine ⟨rfl, by decide +kernel, rfl⟩

/-- P5 step 11: CANCEL while RUNNING; P5 step 12: the cancel step. -/
theorem test_cancel :
    holds (exec .cancel runningEnc) (fun t => Cflags.word t.cflags == 0x000D && t.cph == .running) = true ∧
      holds (runSequencer (requestCancel runningEnc))
        (fun t => t.cph == .cancelled && t.cres == .cancelled && t.evt == .cancelled && t.evtseq == 2) = true := by
  decide +kernel

/-- V8.13: RESET while RUNNING keeps the files and clears the registers. -/
theorem test_reset :
    holds (exec .reset runningEnc) (fun t => t.cph == .idle && t.key == Key.zero && t.inf == Memory.ofBytes hello) = true := by
  decide +kernel

/-- V8.8 to V8.10: Busy, IllegalCommand before Busy, and the first error kept. -/
theorem test_errors :
    holds (step { runningEnc with agenda := [.command 0x10000000] }) (fun t => t.cmderr == .busy && t.key == secretKey) =
        true ∧
      holds (step { runningEnc with agenda := [.command 0x23040000] }) (fun t => t.cmderr == .illegalCommand) = true ∧
      holds (exec .crypt { State.reset with cmderr := .invalidKeySize }) (fun t => t.cmderr == .invalidKeySize) = true := by
  decide +kernel

/-- V8.14, V8.15 and 10 R44: reads through the port. -/
theorem test_read :
    holds (step { State.reset with agenda := [.read 0x0D] }) (fun t => t.reply == some 0) = true ∧
      holds (step { State.reset with agenda := [.read 0x80] }) (fun t => t.reply == some 0) = true ∧
      holds (step { suffixEnc with agenda := [.read 0x1B] }) (fun t => t.reply == some 5) = true ∧
      holds (step { suffixEnc with agenda := [.read 0x18] }) (fun t => t.reply == some 0) = true := by decide +kernel

/-- 20 R65, R84: a binding, and a binding during a run. -/
theorem test_bind :
    holds (step { State.reset with agenda := [.bind hello [1]] })
        (fun t => t.bound && Memory.bytes t.inf == hello && Memory.bytes t.outf == [1]) = true ∧
      step { runningEnc with agenda := [.unbind] } = .refused .hostDutyBroken := by
  refine ⟨by decide +kernel, rfl⟩

/-- 10 R45: the progress fraction of an empty run before and after its success; 46 R284: the outcomes. -/
theorem test_hostView :
    progressFraction { State.reset with cph := .running } = 0 ∧ progressFraction { State.reset with cph := .succeeded } = 1 ∧
      runOutcome { State.reset with cph := .failed, cres := .ioFailure } = some (.failure .ioFailure) ∧
      doneLevel runningEnc = false ∧ doneLevel { State.reset with cph := .cancelled } = true := by
  refine ⟨rfl, rfl, rfl, rfl, rfl⟩

/-! ## Witnesses: for each obligation with hypotheses, a state and operands that meet them together -/

theorem test_meets_DecodeOfEncode : (Instr.blkldw 3 0xFFFF).wellFormed = true := by decide

theorem test_meets_EncodeOfDecode : decode 0x11000073 = .ok (.kdbyte 0x73) := by decide

theorem test_meets_DecodeFollowsMatchAndMask :
    (Mnemonic.nop, 0x00000000, 0xFFFFFFFF) ∈ opcodeMap ∧ (Mnemonic.cstart, 0x50000000, 0xFF1FFFFF) ∈ opcodeMap := by
  decide

theorem test_meets_StepExecutesDecodedCommand :
    (State.reset.withFetchWord 32 0x40001234).agenda = .command 0x40001234 :: [] ∧
      decode 0x40001234 = .ok (.accld 0x1234) := by decide

theorem test_meets_IllegalWordOnlySetsCmderr :
    (State.reset.withFetchWord 32 0xFF000000).agenda = .command 0xFF000000 :: [] ∧
      decode 0xFF000000 = .error .unassignedOpcode ∧ decode 0x00000001 = .error .mustBeZeroBitSet ∧
      4 ≤ (4 : BitVec 3).toNat := by decide

/-- One state for each of the seven clauses. -/
theorem test_meets_SequencerTurns :
    (setAgenda [.sequencer] runningEnc).agenda = .sequencer :: [] ∧ State.reset.agenda = [] ∧ State.reset.cph ≠ .running ∧
      ((requestCancel runningEnc).cph = .running ∧ (requestCancel runningEnc).cflags.cancelReq = true) ∧
      (runningEnc.cph = .running ∧ runningEnc.cflags.cancelReq = false ∧
        runningEnc.doneBytes.toNat < runningEnc.dataLen.toNat) ∧
      (suffixEnc.cph = .running ∧ suffixEnc.cflags.cancelReq = false ∧
        suffixEnc.dataLen.toNat ≤ suffixEnc.doneBytes.toNat ∧ suffixEnc.cflags.cdir = .enc) ∧
      ((suffixDec Block.zero).cph = .running ∧ (suffixDec Block.zero).cflags.cancelReq = false ∧
        (suffixDec Block.zero).dataLen.toNat ≤ (suffixDec Block.zero).doneBytes.toNat ∧
        (suffixDec Block.zero).cflags.cdir = .dec) := by decide +kernel

theorem test_meets_BusyCommandsOnlySetCmderr :
    runningEnc.cph = .running ∧ (Instr.blkldw 0 0).wellFormed = true ∧ Instr.blkldw 0 0 ≠ .nop ∧
      Instr.blkldw 0 0 ≠ .reset ∧ Instr.blkldw 0 0 ≠ .errclr ∧ Instr.blkldw 0 0 ≠ .cancel := by decide

/-- For the failing clauses of SchedgenLoadsSchedule, ModeinitConstructsMode, SchedinvInvertsSchedule, CryptTransformsBlock and XformFollowsMode. -/
theorem test_meets_FailsWith :
    State.reset.cph ≠ .running ∧ State.reset.keyv ≠ 0xFF ∧ State.reset.cfg.skv = false ∧ State.reset.cfg.modev = false := by
  decide

theorem test_meets_NopErrclrCancelComplete : runningEnc.cph = .running ∧ ready.cph ≠ .running := by decide

theorem test_meets_ResetClearsEveryRegister : (setAgenda [.resetInput] runningEnc).agenda = .resetInput :: [] := rfl

/-- The last code of each table. -/
theorem test_meets_RegisterMap :
    ((Mode.ofb, 0b11) ∈ modeTable ∧ runningEnc.cfg.mode = .ofb ∧ runningEnc.cflags.cmode = .ofb) ∧
      ((ErrorCode.unconfigured, 0x12) ∈ errorCodeTable ∧ (setCmderr .unconfigured ready).cmderr = .unconfigured) ∧
      ((ErrorCode.cancelled, 0x07) ∈ errorCodeTable ∧ (cancelStep runningEnc).cres = .cancelled) ∧
      ((Phase.cancelled, 4) ∈ phaseTable ∧ (cancelStep runningEnc).cph = .cancelled) ∧
      ((Event.cancelled, 5) ∈ eventTable ∧ (cancelStep runningEnc).evt = .cancelled) := by decide

theorem test_meets_LengthRegistersReadBigEndian :
    (0x18, suffixEnc.inLen) ∈ [(0x18, suffixEnc.inLen), (0x1C, suffixEnc.dataLen), (0x20, suffixEnc.outLen),
      (0x24, suffixEnc.doneBytes), (0x28, suffixEnc.outPos), (0x2C, suffixEnc.finalSize), (0x30, suffixEnc.elapsed)] ∧
    (0x30, suffixEnc.elapsed) ∈ [(0x18, suffixEnc.inLen), (0x1C, suffixEnc.dataLen), (0x20, suffixEnc.outLen),
      (0x24, suffixEnc.doneBytes), (0x28, suffixEnc.outPos), (0x2C, suffixEnc.finalSize), (0x30, suffixEnc.elapsed)] := by
  simp

/-- The ends of the two unmapped ranges. -/
theorem test_meets_ReservedBitsReadZero :
    (0x36 ≤ (0x36 : RegAddr).toNat ∧ (0x36 : RegAddr).toNat < 0x40) ∧
      (0x36 ≤ (0x3F : RegAddr).toNat ∧ (0x3F : RegAddr).toNat < 0x40) ∧ 0x74 ≤ (0x74 : RegAddr).toNat ∧
      0x74 ≤ (0xFF : RegAddr).toNat := by decide

theorem test_meets_ReadHasNoSideEffect : (setAgenda [.read 0x0D] State.reset).agenda = .read 0x0D :: [] := by decide

/-- For KdclrStartsDerivation, KdbyteFoldsOneByte (KDIDX 6, and the byte at 7 beside it), KeyldwLoadsOneWord, KdstrDerivesKey and
AccumulatorCommandsWriteAcc. -/
theorem test_meets_KeyAndAccumulatorCommands : ready.cph ≠ .running ∧ (7 : Fin 16) ≠ ready.kdidx := by decide

/-- For SchedgenLoadsSchedule and ModeinitConstructsMode, whose two schedule clauses exclude each other. -/
theorem test_meets_ScheduleLoads :
    (ready.cph ≠ .running ∧ ready.keyv = 0xFF) ∧ ((Mode.cbc = .ecb ∨ Mode.cbc = .cbc) ∧ Dir.dec = .dec) ∧
      ¬((Mode.ofb = .ecb ∨ Mode.ofb = .cbc) ∧ Dir.dec = .dec) := by decide

/-- For SchedinvInvertsSchedule, CryptTransformsBlock and XformFollowsMode, in every mode and direction. -/
theorem test_meets_ScheduleUses :
    (configured.cph ≠ .running ∧ configured.cfg.skv = true ∧ configured.cfg.modev = true ∧ configured.cfg.mode = .ecb) ∧
      ∀ (m : Mode) (d : Dir),
        let s := setSchedule configured.sk { mode := m, dir := d, modev := true, skdir := .enc, skv := true } configured
        s.cph ≠ .running ∧ s.cfg.modev = true ∧ s.cfg.skv = true ∧ s.cfg.mode = m ∧ s.cfg.dir = d := by
  refine ⟨by decide, fun m d => ⟨?_, rfl, rfl, rfl, rfl⟩⟩
  exact (by decide : Phase.idle ≠ Phase.running)

/-- The last block word. -/
theorem test_meets_BlkldwLoadsOneWord : (3 : BitVec 3).toNat < 4 ∧ State.reset.cph ≠ .running := by decide

/-- Word 8, the first rotated one; word 55 does not exist, word 51 is the last. -/
theorem test_meets_GenScheduleShiftForm :
    (8 ≤ (8 : Fin 52).val ∧ (1 : Fin 52).val = (if (8 : Fin 52).val % 8 ≠ 7 then 8 - 7 else 8 - 15) ∧
        (2 : Fin 52).val = (if (8 : Fin 52).val % 8 < 6 then 8 - 6 else 8 - 14)) ∧
      (8 ≤ (15 : Fin 52).val ∧ (0 : Fin 52).val = (if (15 : Fin 52).val % 8 ≠ 7 then 15 - 7 else 15 - 15) ∧
        (1 : Fin 52).val = (if (15 : Fin 52).val % 8 < 6 then 15 - 6 else 15 - 14)) := by decide

/-- The first and the last of the middle rounds. -/
theorem test_meets_InvertSchedulePositions :
    (2 ≤ 2 ∧ 2 ≤ 8 ∧ 2 ≤ 8 ∧ 8 ≤ 8) ∧
      ∃ z d : Schedule, d = invertSchedule z ∧ subkey z 1 2 = 0x0002 ∧ subkey d 9 2 = 0xFFFE :=
  ⟨by decide, genSchedule referenceKey, _, rfl, by decide +kernel, by decide +kernel⟩

theorem test_meets_OfbKeystreamIndependence :
    ([Block.zero, Block.zero] : List Block).length = [Block.zero, packLen 5].length := by simp

theorem test_meets_ScheduleAndModeChangeOnlyThrough :
    holds (exec (.accld 1) ready) (fun _ => true) = true ∧ holds (exec .xform configured) (fun _ => true) = true ∧
      holds (exec .schedinv configured) (fun _ => true) = true ∧
      (holds (runSequencer (requestCancel runningEnc)) (fun _ => true) = true ∧
        (requestCancel runningEnc).cflags.cancelReq = true) ∧
      holds (runAction (.read 0x0D) runningEnc) (fun _ => true) = true ∧
      (holds (runAction (.command 0x00000001) ready) (fun _ => true) = true ∧
        decode 0x00000001 = .error .mustBeZeroBitSet) := by decide +kernel

/-- The longest length. -/
theorem test_meets_PackUnpackRoundTrip :
    (35184372088831 : Nat) ≤ 2 ^ 45 - 1 ∧ unpackLen #v[0, 0, 0, 0, 0, 0, 0, 0x28] = some 5 :=
  ⟨by norm_num, by decide +kernel⟩

theorem test_meets_MulInvIsUniqueInverse : mul 3 0x5556 = 1 ∧ 2 ≤ (3 : Word).toNat := by decide +kernel

theorem test_meets_CstartEncryptStartsRun :
    ready.cph ≠ .running ∧ ready.bound = true ∧ ready.inf.length < 2 ^ 63 ∧ ioAnswer ready = true ∧ ready.keyv = 0xFF := by
  decide +kernel

theorem test_meets_CstartDecryptStartsRun :
    let s := bindFiles (hello ++ [1, 2, 3]) [] ready
    s.cph ≠ .running ∧ s.bound = true ∧ s.inf.length < 2 ^ 63 ∧ ioAnswer s = true ∧ s.keyv = 0xFF ∧ s.inf.length ≠ 0 ∧
      s.inf.length % 8 = 0 := by decide +kernel

/-- Nothing bound; a failed open; an incomplete key; an empty and an unaligned file. -/
theorem test_meets_CstartFailuresInOrder :
    (State.reset.cph ≠ .running ∧ State.reset.inf.length < 2 ^ 63 ∧ State.reset.bound = false) ∧
      ioAnswer { ready with ioScript := [false] } = false ∧
      (let s := setKey secretKey 0x7F 0 ready;
        s.bound = true ∧ ioAnswer s = true ∧ s.keyv ≠ 0xFF) ∧
      (let s := bindFiles [] [] ready;
        s.bound = true ∧ ioAnswer s = true ∧ s.keyv = 0xFF ∧ s.inf.length = 0) ∧
      (ready.bound = true ∧ ioAnswer ready = true ∧ ready.inf.length % 8 ≠ 0) := by decide +kernel

theorem test_meets_CancelStepEndsRun :
    (requestCancel runningEnc).cph = .running ∧ (requestCancel runningEnc).cflags.cancelReq = true := by decide

theorem runningEnc_inv : Inv runningEnc where
  infWf := Memory.wf_ofBytes _
  outfWf := Memory.wf_nil
  bufferFits := by decide
  doneLe := by decide
  inLenBound := by decide
  cmderr := by decide
  outcome := by decide
  event := by decide
  idle h := by cases h
  unfinished _ := ⟨rfl, rfl⟩
  cancelReq h := by cases h
  modeNeedsSchedule _ := rfl
  noMode h := by cases h
  noSchedule h := by cases h
  running _ :=
    { keyComplete := rfl, modeLoaded := rfl, schedule := rfl, bound := rfl, inLen := rfl, dataLenEnc := fun _ => rfl
      dataLenDec := fun h => by cases h
      outLen := by decide, outPos := by decide, outFile := rfl, aligned := .inr (by decide) }

/-- The trailing block does not enter the invariant. -/
theorem suffixDecWith_inv (answers : List Bool) (last : Block) : Inv (suffixDecWith answers last) where
  infWf := Memory.wf_ofBytes _
  outfWf := Memory.wf_ofBytes _
  bufferFits := Nat.zero_le _
  doneLe := Nat.le_refl _
  inLenBound := by
    show (16 : Len).toNat < Config.fileLimit
    decide
  cmderr := by
    show ErrorCode.none ∈ commandErrors
    decide
  outcome := rfl
  event := rfl
  idle h := by cases h
  unfinished _ := ⟨rfl, rfl⟩
  cancelReq h := by cases h
  modeNeedsSchedule _ := rfl
  noMode h := by cases h
  noSchedule h := by cases h
  running _ :=
    { keyComplete := rfl, modeLoaded := rfl, schedule := rfl, bound := rfl
      inLen := by simp [suffixDecWith]
      dataLenEnc := fun h => by cases h
      dataLenDec := fun _ => (by decide : 0 < (16 : Len).toNat ∧ (16 : Len).toNat % 8 = 0 ∧ (8 : Len).toNat + 8 = (16 : Len).toNat)
      outLen := (by decide : (8 : Len).toNat = roundup8 (8 : Len).toNat)
      outPos := (by decide : (8 : Len).toNat = roundup8 (8 : Len).toNat)
      outFile := rfl, aligned := .inl rfl }

theorem suffixDec_inv (last : Block) : Inv (suffixDec last) := suffixDecWith_inv _ last

theorem test_meets_ChunkStepTransformsChunk :
    Inv runningEnc ∧ runningEnc.cph = .running ∧ runningEnc.cflags.cancelReq = false ∧
      runningEnc.doneBytes.toNat < runningEnc.dataLen.toNat ∧
      5 = min runningEnc.chunkBytes (runningEnc.dataLen.toNat - runningEnc.doneBytes.toNat) ∧
      ioAnswer runningEnc = true ∧ ioAnswer (afterIo runningEnc) = true :=
  ⟨runningEnc_inv, rfl, rfl, by decide, by decide, rfl, rfl⟩

/-- The read fails; the read succeeds and the append fails. -/
theorem test_meets_ChunkStepFailures :
    let s := { runningEnc with ioScript := [false] }
    let t := { runningEnc with ioScript := [true, false] }
    (s.cph = .running ∧ s.cflags.cancelReq = false ∧ s.doneBytes.toNat < s.dataLen.toNat ∧
      s.doneBytes.toNat + min s.chunkBytes (s.dataLen.toNat - s.doneBytes.toNat) ≤ s.inf.length ∧ ioAnswer s = false) ∧
    (t.cph = .running ∧ t.cflags.cancelReq = false ∧ t.doneBytes.toNat < t.dataLen.toNat ∧
      t.doneBytes.toNat + min t.chunkBytes (t.dataLen.toNat - t.doneBytes.toNat) ≤ t.inf.length ∧ ioAnswer t = true ∧
      ioAnswer (afterIo t) = false) := by decide +kernel

/-- One byte above the longest plaintext; the longest; a failing append. -/
theorem test_meets_EncryptSuffixStep :
    (suffixEnc.cph = .running ∧ suffixEnc.cflags.cancelReq = false ∧
        suffixEnc.dataLen.toNat ≤ suffixEnc.doneBytes.toNat ∧ suffixEnc.cflags.cdir = .enc) ∧
      2 ^ 45 - 1 < { suffixEnc with inLen := 0x200000000000 }.inLen.toNat ∧
      ({ suffixEnc with inLen := 0x1FFFFFFFFFFF }.inLen.toNat ≤ 2 ^ 45 - 1 ∧ ioAnswer suffixEnc = true) ∧
      (suffixEnc.inLen.toNat ≤ 2 ^ 45 - 1 ∧ ioAnswer { suffixEnc with ioScript := [false] } = false) := by decide +kernel

theorem suffixDecWith_slice (answers : List Bool) (last : Block) : last.toList =
    ((Memory.bytes (suffixDecWith answers last).inf).drop (suffixDecWith answers last).dataLen.toNat).take 8 := by
  have h : last.toList.length = 8 := by simp
  show last.toList = ((Memory.bytes (Memory.ofBytes ([1, 2, 3, 4, 5, 6, 7, 8] ++ last.toList))).drop 8).take 8
  rw [Memory.bytes_ofBytes]
  simp

/-- The hypotheses that every clause of DecryptSuffixStep shares, for any trailing block and any answers of the oracle. -/
theorem test_meets_DecryptSuffixStep (answers : List Bool) (last : Block) :
    let s := suffixDecWith answers last
    Inv s ∧ s.cph = .running ∧ s.cflags.cancelReq = false ∧ s.dataLen.toNat ≤ s.doneBytes.toNat ∧ s.cflags.cdir = .dec ∧
      last.toList = ((Memory.bytes s.inf).drop s.dataLen.toNat).take 8 :=
  ⟨suffixDecWith_inv answers last, rfl, rfl, Nat.le_refl _, rfl, suffixDecWith_slice answers last⟩

/-- The answers each clause of DecryptSuffixStep needs: all successes, a failed read, a failed truncate. -/
theorem test_meets_DecryptSuffixStep_answers (last : Block) :
    (ioAnswer (suffixDec last) = true ∧ ioAnswer (afterIo (suffixDec last)) = true) ∧
      ioAnswer (suffixDecWith [false] last) = false ∧
      (ioAnswer (suffixDecWith [true, false] last) = true ∧ ioAnswer (afterIo (suffixDecWith [true, false] last)) = false) :=
  ⟨⟨rfl, rfl⟩, rfl, rfl, rfl⟩

/-- The ends of the accepted window, 1 and 8 for DATA_LEN = 8 = OUT_LEN; the lengths beside them; 7, the longest that truncates; a
block that does not unpack. -/
theorem test_meets_DecryptSuffixStep_lengths :
    (∀ n ∈ [0, 1, 7, 8, 9], unpackLen (modeXform (suffixDec (suffixOf n)).cfg.mode (suffixDec (suffixOf n)).cfg.dir
        (suffixDec (suffixOf n)).sk (suffixDec (suffixOf n)).chain (suffixOf n)).1 = some n) ∧
      unpackLen (modeXform .ofb .dec (genSchedule secretKey) (ivOf secretKey) Block.zero).1 = none := by decide +kernel

theorem test_meets_RunNeverWritesHostRegisters :
    holds (runSequencer runningEnc) (fun _ => true) = true ∧
      ready.cph ≠ .running ∧ holds (exec (.cstart .enc .cfb) ready) (fun _ => true) = true := by decide +kernel

/-- Outside a run OUTF may hold anything. -/
theorem idle_inv (o : List Byte) : Inv (setOutput (Memory.ofBytes o) ready) where
  infWf := Memory.wf_ofBytes _
  outfWf := Memory.wf_ofBytes _
  bufferFits := Nat.zero_le _
  doneLe := Nat.le_refl _
  inLenBound := by
    show (0 : Len).toNat < Config.fileLimit
    decide
  cmderr := by
    show ErrorCode.none ∈ commandErrors
    decide
  outcome := rfl
  event := rfl
  idle _ := ⟨rfl, rfl, rfl, rfl, rfl, rfl, rfl, rfl, rfl⟩
  unfinished _ := ⟨rfl, rfl⟩
  cancelReq h := by cases h
  modeNeedsSchedule h := by cases h
  noMode _ := ⟨rfl, rfl⟩
  noSchedule _ := ⟨rfl, rfl⟩
  running h := by cases h

/-- Two output files that differ, before a step. -/
theorem test_meets_OutputFileIsNeverRead :
    let s := setOutput (Memory.ofBytes [1]) ready
    Inv s ∧ Inv (setOutput (Memory.ofBytes [2, 3]) s) ∧ (setOutput (Memory.ofBytes [2, 3]) s).outf ≠ s.outf ∧
      ∃ t, step s = .next t :=
  ⟨idle_inv [1], idle_inv [2, 3], by decide, exists_next _ rfl⟩

theorem test_meets_StepKeepsInvariant : Inv runningEnc ∧ ∃ t, step runningEnc = .next t :=
  ⟨runningEnc_inv, exists_next _ (by decide +kernel)⟩

theorem test_meets_StepNeverFaults : Inv runningEnc ∧ Inv (suffixDec Block.zero) := ⟨runningEnc_inv, suffixDec_inv _⟩

theorem test_meets_StepRefusesOnlyOutsideTheModel :
    step (setAgenda [.bind [] []] runningEnc) = .refused .hostDutyBroken ∧
      step (setAgenda [.unbind] runningEnc) = .refused .hostDutyBroken := ⟨rfl, rfl⟩

theorem test_meets_RunEndsWithinStepCount : Inv runningEnc ∧ runningEnc.cph = .running := ⟨runningEnc_inv, rfl⟩

theorem test_meets_EncryptRunWritesCryptogram :
    ready.cph ≠ .running ∧ ready.bound = true ∧ ready.keyv = 0xFF ∧ ready.inf.length ≤ 2 ^ 45 - 1 ∧
      ioSucceeds (2 * chunkSteps ready ready.inf.length + 2) ready :=
  ⟨by decide, rfl, rfl, by decide, ioSucceeds_of_script 4 ready rfl⟩

/-- An encrypted empty file, the shortest cryptogram. -/
def shortest : State := { ready with inf := Memory.ofBytes (suffixOf 0).toList, ioScript := [true, true, true] }

theorem test_meets_DecryptRunRecoversPlaintext :
    shortest.cph ≠ .running ∧ shortest.bound = true ∧ shortest.keyv = 0xFF ∧ shortest.inf.length < 2 ^ 63 ∧
      shortest.inf.length ≠ 0 ∧ shortest.inf.length % 8 = 0 ∧
      ioSucceeds (2 * chunkSteps shortest (shortest.inf.length - 8) + 3) shortest := by
  have h : shortest.inf.length = 8 := by simp [shortest]
  rw [h]
  exact ⟨by decide, rfl, rfl, by decide, by decide, rfl, ioSucceeds_of_script 3 shortest rfl⟩

/-- The recovered plaintext is the empty file; a file of eight zero bytes has none (V7.11's kind). -/
theorem test_meets_DecryptRunRecoversPlaintext_both :
    plaintextOf .ofb secretKey (suffixOf 0).toList = some [] ∧
      plaintextOf .ofb secretKey [0, 0, 0, 0, 0, 0, 0, 0] = none := by decide +kernel

theorem test_meets_CryptogramRoundTrip : ([] : List Byte).length ≤ 2 ^ 45 - 1 ∧ hello.length ≤ 2 ^ 45 - 1 := by decide

/-- The empty file bound, and two answers of the oracle. -/
def emptyRun : State := { ready with inf := [], ioScript := [true, true] }

theorem emptyRun_meets :
    emptyRun.cph ≠ .running ∧ emptyRun.bound = true ∧ emptyRun.keyv = 0xFF ∧ emptyRun.inf.length ≤ 2 ^ 45 - 1 ∧
      ioSucceeds (2 * chunkSteps emptyRun emptyRun.inf.length + 2) emptyRun :=
  ⟨by decide, rfl, rfl, by decide, ioSucceeds_of_script 2 emptyRun rfl⟩

theorem emptyRun_runs : ∃ t, codecRun .enc .ofb (chunkSteps emptyRun emptyRun.inf.length + 1) emptyRun = .next t ∧
    t.outf.length = 8 := by
  have h : holds (codecRun .enc .ofb (chunkSteps emptyRun emptyRun.inf.length + 1) emptyRun)
      (fun t => t.outf.length == 8) = true := by decide +kernel
  obtain ⟨t, e⟩ : ∃ t, codecRun .enc .ofb (chunkSteps emptyRun emptyRun.inf.length + 1) emptyRun = .next t := by
    refine exists_next _ ?_
    revert h
    cases codecRun .enc .ofb (chunkSteps emptyRun emptyRun.inf.length + 1) emptyRun <;> simp [holds]
  rw [e] at h
  exact ⟨t, e, by simpa [holds] using h⟩

theorem test_meets_FileRoundTrip :
    ∃ (m : Mode) (s t u : State), s.cph ≠ .running ∧ s.bound = true ∧ s.keyv = 0xFF ∧ s.inf.length ≤ 2 ^ 45 - 1 ∧
      ioSucceeds (2 * chunkSteps s s.inf.length + 2) s ∧
      codecRun .enc m (chunkSteps s s.inf.length + 1) s = .next t ∧
      u.cph ≠ .running ∧ u.bound = true ∧ u.keyv = 0xFF ∧ u.key = s.key ∧ u.inf = t.outf ∧
      ioSucceeds (2 * chunkSteps u (u.inf.length - 8) + 3) u := by
  obtain ⟨t, e, hl⟩ := emptyRun_runs
  obtain ⟨h1, h2, h3, h4, h5⟩ := emptyRun_meets
  refine ⟨.ofb, emptyRun, t, { ready with inf := t.outf, ioScript := [true, true, true] }, h1, h2, h3, h4, h5, e,
    (by decide : Phase.idle ≠ Phase.running), rfl, rfl, rfl, rfl, ?_⟩
  refine ioSucceeds_of_script _ _ ?_
  show [true, true, true] =
    List.replicate (2 * ((t.outf.length - 8 + (8 * (262143 + 1) - 1)) / (8 * (262143 + 1))) + 3) true
  rw [hl]
  rfl

/-- V7.7's file, "HELLO" encrypted in OFB, bound for a decrypt run with five answers of the oracle. -/
def helloFile : State :=
  { ready with
    inf := Memory.ofBytes
      [0xF9, 0x4C, 0x79, 0xA3, 0x1A, 0xFF, 0x55, 0x73, 0x07, 0x7E, 0x4A, 0x39, 0xF8, 0x71, 0x2B, 0xDF]
    ioScript := [true, true, true, true, true] }

/-- The encrypt clause: the empty file in chunks of 2 MiB and of 8 bytes. -/
theorem test_meets_ChunkSizeDoesNotMatter :
    ∃ (m : Mode) (s s' t t' : State), s' = { s with chunkBlocks := s'.chunkBlocks, ioScript := s'.ioScript } ∧
      s.chunkBlocks ≠ s'.chunkBlocks ∧ s.cph ≠ .running ∧ s.bound = true ∧ s.keyv = 0xFF ∧
      s.inf.length ≤ 2 ^ 45 - 1 ∧ ioSucceeds (2 * chunkSteps s s.inf.length + 2) s ∧
      ioSucceeds (2 * chunkSteps s' s'.inf.length + 2) s' ∧
      codecRun .enc m (chunkSteps s s.inf.length + 1) s = .next t ∧
      codecRun .enc m (chunkSteps s' s'.inf.length + 1) s' = .next t' := by
  obtain ⟨t, e, -⟩ := emptyRun_runs
  obtain ⟨h1, h2, h3, h4, h5⟩ := emptyRun_meets
  have h : holds (codecRun .enc .ofb (chunkSteps { emptyRun with chunkBlocks := 0 } 0 + 1) { emptyRun with chunkBlocks := 0 })
      (fun _ => true) = true := by decide +kernel
  obtain ⟨t', e'⟩ := exists_next _ h
  exact ⟨.ofb, emptyRun, { emptyRun with chunkBlocks := 0 }, t, t', rfl, by decide, h1, h2, h3, h4, h5,
    ioSucceeds_of_script 2 _ rfl, e, e'⟩

/-- The decrypt clause: a file of one data block and its suffix, in chunks of 2 MiB and of 8 bytes. -/
theorem test_meets_ChunkSizeDoesNotMatter_dec :
    ∃ (m : Mode) (s s' t t' : State), s' = { s with chunkBlocks := s'.chunkBlocks, ioScript := s'.ioScript } ∧
      s.chunkBlocks ≠ s'.chunkBlocks ∧ s.cph ≠ .running ∧ s.bound = true ∧ s.keyv = 0xFF ∧
      s.inf.length < 2 ^ 63 ∧ s.inf.length ≠ 0 ∧ s.inf.length % 8 = 0 ∧
      ioSucceeds (2 * chunkSteps s (s.inf.length - 8) + 3) s ∧
      ioSucceeds (2 * chunkSteps s' (s'.inf.length - 8) + 3) s' ∧
      codecRun .dec m (chunkSteps s (s.inf.length - 8) + 1) s = .next t ∧
      codecRun .dec m (chunkSteps s' (s'.inf.length - 8) + 1) s' = .next t' := by
  have h (n : Nat) : ioSucceeds 5 { helloFile with chunkBlocks := n } := ioSucceeds_of_script 5 _ rfl
  have h1 : holds (codecRun .dec .ofb 2 helloFile) (fun _ => true) = true := by decide +kernel
  have h2 : holds (codecRun .dec .ofb 2 { helloFile with chunkBlocks := 0 }) (fun _ => true) = true := by decide +kernel
  obtain ⟨t, e⟩ := exists_next _ h1
  obtain ⟨t', e'⟩ := exists_next _ h2
  exact ⟨.ofb, helloFile, { helloFile with chunkBlocks := 0 }, t, t', rfl, by decide, by decide, rfl, rfl, by decide,
    by decide, by decide, h 262143, h 0, e, e'⟩

end Sys2Proof.Machine
end

section
/-! The match and mask columns of the opcode map (30 R97): a word meets them exactly when it carries the row's OPC and has
the row's must-be-zero bits at 0, which is what the decoder asks (30 R98). -/

namespace Sys2Proof.Machine

/-- The printed columns are the row's OPC and the row's OPC and must-be-zero bits (30 R97). -/
theorem opcodeMap_columns {r : Mnemonic} {matchWord mask : CmdWord} (h : (r, matchWord, mask) ∈ opcodeMap) :
    matchWord = r.matchWord ∧ mask = r.mask := by
  have rows : ∀ p ∈ opcodeMap, p.2.1 = p.1.matchWord ∧ p.2.2 = p.1.mask := by decide
  exact rows _ h

/-- The OPC bits of a word, alone (30 R90). -/
theorem and_opcMask (w : CmdWord) : w &&& 0xFF000000 = opcField w ++ 0#24 := by
  have split : opcField w ++ w.extractLsb' 0 24 = w := BitVec.extractLsb'_append_extractLsb' (w := 8)
  calc w &&& 0xFF000000
      = (opcField w ++ w.extractLsb' 0 24) &&& (BitVec.allOnes 8 ++ 0#24) := by rw [split]; rfl
    _ = opcField w ++ 0#24 := by
      rw [BitVec.and_append, BitVec.and_allOnes, BitVec.and_zero]

theorem opcField_and (v w : CmdWord) : opcField (v &&& w) = opcField v &&& opcField w := BitVec.extractLsb'_and

theorem opcField_matchWord (r : Mnemonic) : opcField r.matchWord = r.opc := BitVec.extractLsb'_append_eq_left

theorem opcField_mask (r : Mnemonic) : opcField r.mask = BitVec.allOnes 8 := by cases r <;> rfl

theorem mask_and_mustBeZero (r : Mnemonic) : r.mask &&& r.format.mustBeZero = r.format.mustBeZero := by
  cases r <;> rfl

theorem matchWord_and_mustBeZero (r : Mnemonic) : r.matchWord &&& r.format.mustBeZero = 0 := by cases r <;> rfl

/-- A word meets a row's match and mask exactly when it has the row's OPC and the row's must-be-zero bits are 0. -/
theorem and_mask_eq_matchWord_iff (r : Mnemonic) (w : CmdWord) :
    w &&& r.mask = r.matchWord ↔ opcField w = r.opc ∧ w &&& r.format.mustBeZero = 0 := by
  constructor
  · intro h
    constructor
    · calc opcField w = opcField (w &&& r.mask) := by rw [opcField_and, opcField_mask, BitVec.and_allOnes]
        _ = r.opc := by rw [h, opcField_matchWord]
    · calc w &&& r.format.mustBeZero = (w &&& r.mask) &&& r.format.mustBeZero := by
            rw [BitVec.and_assoc, mask_and_mustBeZero]
        _ = 0 := by rw [h, matchWord_and_mustBeZero]
  · rintro ⟨hopc, hzero⟩
    calc w &&& r.mask = (w &&& 0xFF000000) ||| (w &&& r.format.mustBeZero) := BitVec.and_or_distrib_left
      _ = r.matchWord := by rw [and_opcMask, hopc, hzero]; exact BitVec.or_zero

/-- The words that decode to a command of a row (30 R98). -/
theorem exists_decode_of_row_iff (r : Mnemonic) (w : CmdWord) :
    (∃ i, decode w = .ok i ∧ i.mnemonic = r) ↔ opcField w = r.opc ∧ w &&& r.format.mustBeZero = 0 := by
  constructor
  · rintro ⟨i, hdec, rfl⟩
    obtain ⟨q, hopc, hzero, rfl⟩ := (decode_eq_ok w i).1 hdec
    rw [assemble_mnemonic]
    exact ⟨hopc, hzero⟩
  · rintro ⟨hopc, hzero⟩
    exact ⟨r.assemble w, (decode_eq_ok _ _).2 ⟨r, hopc, hzero, rfl⟩, assemble_mnemonic r w⟩

/-- Settles O3: both sides say that the word has the row's OPC and that the row's must-be-zero bits are 0. -/
theorem decodeFollowsMatchAndMask : Obligations.DecodeFollowsMatchAndMask := by
  intro r matchWord mask hrow w
  obtain ⟨rfl, rfl⟩ := opcodeMap_columns hrow
  rw [exists_decode_of_row_iff, and_mask_eq_matchWord_iff]

end Sys2Proof.Machine
end

section
/-! The word of a command (30 R90, R97, R98): a word decodes to a command exactly when it is the word the encoder lays out for
it, and the laid-out word is the OPC and the operands ORed together at their offsets. -/

namespace Sys2Proof

/-- A field reads 0 when every bit of it is a 1 of a mask that the word meets nowhere. -/
theorem extractLsb'_eq_zero_of_and {w m : CmdWord} {start len : Nat} (h : w &&& m = 0)
    (hm : m.extractLsb' start len = BitVec.allOnes len) : w.extractLsb' start len = 0 := by
  calc w.extractLsb' start len
      = w.extractLsb' start len &&& m.extractLsb' start len := by rw [hm, BitVec.and_allOnes]
    _ = (w &&& m).extractLsb' start len := BitVec.extractLsb'_and.symm
    _ = 0 := by rw [h]; exact BitVec.extractLsb'_zero

/-- Field RSV is must-be-zero in every format, so a legal word is its other fields laid out again (30 R91, R92). -/
theorem layFields_fields_of_format (f : Format) {w : CmdWord} (h : w &&& f.mustBeZero = 0) :
    layFields (opcField w) (dField w) (mField w) (idxField w) (immField w) = w := by
  have rsv : w.extractLsb' 19 2 = 0 := extractLsb'_eq_zero_of_and h (by cases f <;> rfl)
  have h19 : (w.extractLsb' 19 2).getLsbD 0 = false := by rw [rsv]; rfl
  have h20 : (w.extractLsb' 19 2).getLsbD 1 = false := by rw [rsv]; rfl
  exact layFields_fields w (by simpa using h19) (by simpa using h20)

/-- A word whose upper byte is 0 is its lower byte. -/
theorem setWidth_extractLsb'_of_upper_zero {v : Word} (h : v.extractLsb' 8 8 = 0) :
    (v.extractLsb' 0 8).setWidth 16 = v := by
  calc (v.extractLsb' 0 8).setWidth 16 = v.extractLsb' 8 8 ++ v.extractLsb' 0 8 := by
        rw [h]; exact BitVec.setWidth_eq_append (by decide)
    _ = v := BitVec.extractLsb'_append_extractLsb' (w := 8)

/-- Encoding the command assembled from a legal word gives the word back: a field the row's format does not use is 0 in it. -/
theorem encode_assemble (r : Mnemonic) {w : CmdWord} (hopc : opcField w = r.opc) (hzero : w &&& r.format.mustBeZero = 0) :
    encode (r.assemble w) = w := by
  have hw := layFields_fields_of_format _ hzero
  rw [hopc] at hw
  cases r with
  | nop | reset | errclr | cancel | kdclr | schedgen | schedinv | crypt | xform | mulinv | addinv =>
    have hd : dField w = 0 := extractLsb'_eq_zero_of_and hzero rfl
    have hm : mField w = 0 := extractLsb'_eq_zero_of_and hzero rfl
    have hi : idxField w = 0 := extractLsb'_eq_zero_of_and hzero rfl
    have hv : immField w = 0 := extractLsb'_eq_zero_of_and hzero rfl
    rwa [hd, hm, hi, hv] at hw
  | kdbyte =>
    have hd : dField w = 0 := extractLsb'_eq_zero_of_and hzero rfl
    have hm : mField w = 0 := extractLsb'_eq_zero_of_and hzero rfl
    have hi : idxField w = 0 := extractLsb'_eq_zero_of_and hzero rfl
    have hv : (immField w).extractLsb' 8 8 = 0 := by
      rw [immField, BitVec.extractLsb'_extractLsb'_of_le (by decide)]
      exact extractLsb'_eq_zero_of_and hzero rfl
    rwa [hd, hm, hi, ← setWidth_extractLsb'_of_upper_zero hv] at hw
  | accld | muli | addi =>
    have hd : dField w = 0 := extractLsb'_eq_zero_of_and hzero rfl
    have hm : mField w = 0 := extractLsb'_eq_zero_of_and hzero rfl
    have hi : idxField w = 0 := extractLsb'_eq_zero_of_and hzero rfl
    rwa [hd, hm, hi] at hw
  | keyldw | blkldw =>
    have hd : dField w = 0 := extractLsb'_eq_zero_of_and hzero rfl
    have hm : mField w = 0 := extractLsb'_eq_zero_of_and hzero rfl
    rwa [hd, hm] at hw
  | modeinit | cstart =>
    have hi : idxField w = 0 := extractLsb'_eq_zero_of_and hzero rfl
    have hv : immField w = 0 := extractLsb'_eq_zero_of_and hzero rfl
    show layFields _ (dirBits (dirOfBits _)) (modeBits (modeOfBits _)) 0 0 = w
    rwa [dirBits_dirOfBits, modeBits_modeOfBits, ← hi, ← hv]

/-- The word of a well-formed command has its row's OPC, and its row's must-be-zero bits at 0. -/
theorem encode_legal (i : Instr) (h : i.wellFormed = true) :
    opcField (encode i) = i.mnemonic.opc ∧ encode i &&& i.mnemonic.format.mustBeZero = 0 := by
  apply (Machine.and_mask_eq_matchWord_iff _ _).1
  cases i with
  | nop => exact Laws.MatchesRow.nop h
  | reset => exact Laws.MatchesRow.reset h
  | errclr => exact Laws.MatchesRow.errclr h
  | cancel => exact Laws.MatchesRow.cancel h
  | kdclr => exact Laws.MatchesRow.kdclr h
  | kdbyte b => exact Laws.MatchesRow.kdbyte b h
  | keyldw i v => exact Laws.MatchesRow.keyldw i v h
  | schedgen => exact Laws.MatchesRow.schedgen h
  | schedinv => exact Laws.MatchesRow.schedinv h
  | crypt => exact Laws.MatchesRow.crypt h
  | blkldw i v => exact Laws.MatchesRow.blkldw i v h
  | modeinit d m => exact Laws.MatchesRow.modeinit d m h
  | xform => exact Laws.MatchesRow.xform h
  | accld v => exact Laws.MatchesRow.accld v h
  | muli v => exact Laws.MatchesRow.muli v h
  | addi v => exact Laws.MatchesRow.addi v h
  | mulinv => exact Laws.MatchesRow.mulinv h
  | addinv => exact Laws.MatchesRow.addinv h
  | cstart d m => exact Laws.MatchesRow.cstart d m h

/-- Assembling from a command's word gives the command back: its row's format reads the fields the encoder laid. -/
theorem assemble_encode (i : Instr) : i.mnemonic.assemble (encode i) = i := by
  cases i <;>
    simp [Instr.mnemonic, Mnemonic.assemble, encode, dField_layFields, mField_layFields, idxField_layFields, immField_layFields,
      BitVec.extractLsb'_setWidth_of_le]

/-- A well-formed command's word is the one the encoder gives. -/
theorem encodedAs_encode {i : Instr} (h : i.wellFormed = true) : Machine.EncodedAs i (encode i) := by
  intro w
  rw [decode_eq_ok]
  constructor
  · rintro ⟨r, hopc, hzero, rfl⟩
    exact (encode_assemble r hopc hzero).symm
  · rintro rfl
    obtain ⟨hopc, hzero⟩ := encode_legal i h
    exact ⟨i.mnemonic, hopc, hzero, assemble_encode i⟩

/-- The word laid out from its fields is the fields ORed together, each shifted to its offset (30 R90). -/
theorem layFields_eq_or (o : BitVec 8) (d : BitVec 1) (m : BitVec 2) (i : BitVec 3) (v : BitVec 16) :
    layFields o d m i v =
      (o ++ 0#24) ||| (d.setWidth 32 <<< 23) ||| (m.setWidth 32 <<< 21) ||| (i.setWidth 32 <<< 16) ||| v.setWidth 32 := by
  apply BitVec.eq_of_getLsbD_eq
  intro k hk
  rw [layFields_getLsbD]
  simp only [BitVec.getLsbD_or, BitVec.getLsbD_append, BitVec.getLsbD_shiftLeft, BitVec.getLsbD_setWidth]
  interval_cases k <;> simp

end Sys2Proof
end

section
/-! Key derivation (41 R120 to R127): what KDCLR, KDBYTE and KEYLDW answer outside a run, what each writes and leaves, and the
bytes of `derive`. -/

namespace Sys2Proof.Machine

/-! ## The commands outside a run -/

theorem exec_kdclr_of_ready {s : State} (h : s.cph ≠ .running) :
    exec .kdclr s = .next (setKey Key.zero 0xFF 0 s) := by
  show execKdclr s = _
  rw [execKdclr, whenReady_of_ready s _ h]

theorem exec_kdbyte_of_ready (b : Byte) {s : State} (h : s.cph ≠ .running) :
    exec (.kdbyte b) s = .next (setKey (s.key.set s.kdidx (s.key[s.kdidx] ^^^ b)) s.keyv (s.kdidx + 1) s) := by
  show execKdbyte b s = _
  rw [execKdbyte, whenReady_of_ready s _ h]

theorem exec_keyldw_of_ready (i : BitVec 3) (v : Word) {s : State} (h : s.cph ≠ .running) :
    exec (.keyldw i v) s = .next (setKey (Key.setWord s.key i v) (setKeyvBit s.keyv i) s.kdidx s) := by
  show execKeyldw i v s = _
  rw [execKeyldw, whenReady_of_ready s _ h]

/-! ## What the commands write, and their frame -/

/-- The frame of a write to KEY, KEYV and KDIDX: it is enough that the new values agree with the old ones wherever the written
set does not reach (10 R22 to R24). -/
theorem onlyRegs_setKey {written : RegAddr → Bool} {k : Key} {keyv : BitVec 8} {kdidx : Fin 16} {s : State}
    (hkey : ∀ (a : RegAddr) (h : a.toNat < 8), written a = false →
      Key.word k ⟨a.toNat, h⟩ = Key.word s.key ⟨a.toNat, h⟩)
    (hkeyv : written 0x08 = false → keyv = s.keyv) (hkdidx : written 0x09 = false → kdidx = s.kdidx) :
    OnlyRegs written s (setKey k keyv kdidx s) := by
  refine onlyRegs_of (fun a ha => ?_) rfl rfl rfl rfl rfl rfl rfl rfl rfl
  by_cases hlow : a.toNat < 8
  · simpa [readReg, hlow] using hkey a hlow ha
  · have at8 (e : a.toNat = 0x08) : a = 0x08 := BitVec.eq_of_toNat_eq e
    have at9 (e : a.toNat = 0x09) : a = 0x09 := BitVec.eq_of_toNat_eq e
    apply readReg_congr (key := fun h => absurd h hlow) (keyv := fun e => hkeyv (at8 e ▸ ha))
      (kdidx := fun e => hkdidx (at9 e ▸ ha)) <;> intros <;> rfl

/-- The key words beside the one KEYLDW writes (41 R125). -/
theorem Key.word_setWord_of_ne (k : Key) (i : BitVec 3) (v : Word) {j : Fin 8} (h : j.val ≠ i.toNat) :
    Key.word (Key.setWord k i v) j = Key.word k j := by
  have := j.isLt
  unfold Key.word
  rw [Key.setWord_getElem, Key.setWord_getElem, if_neg (by omega), if_neg (by omega), if_neg (by omega), if_neg (by omega)]

/-- Every bit of KEYV after KEYLDW (41 R125). -/
theorem setKeyvBit_getLsbD (keyv : BitVec 8) (i : BitVec 3) (j : Nat) :
    (setKeyvBit keyv i).getLsbD j = (keyv.getLsbD j || j == i.toNat) := by
  have hi : i.toNat < 8 := i.isLt
  have hbit : (1#8 <<< i.toNat).getLsbD j = (j == i.toNat) := by
    rw [← BitVec.twoPow_eq, BitVec.getLsbD_twoPow, decide_eq_true hi, Bool.true_and,
      Bool.beq_eq_decide_eq, decide_eq_decide]
    exact eq_comm
  rw [setKeyvBit, BitVec.getLsbD_or, hbit]

/-! ## Derivation -/

/-- The fold of `derive` from passphrase position `i` on: byte j takes up the bytes whose position is j modulo the size (41
R120). -/
theorem deriveFrom_getElem {size : Nat} [NeZero size] (p : List Byte) :
    ∀ (i : Nat) (out : Vector Byte size) (j : Nat) (_ : j < size),
      (deriveFrom i p out)[j] = ((List.range p.length).filter fun k => (i + k) % size == j).foldl
        (fun acc k => acc ^^^ p.getD k 0) out[j] := by
  induction p with
  | nil => intros; rfl
  | cons b bs ih =>
    intro i out j hj
    have hshift : ((fun k => (i + k) % size == j) ∘ Nat.succ) = fun k => (i + 1 + k) % size == j := by
      funext k
      simp [Nat.add_assoc, Nat.add_comm 1 k]
    rw [deriveFrom, ih, List.length_cons, List.range_succ_eq_map, List.filter_cons, List.filter_map, hshift]
    by_cases h : i % size = j
    · simp [h, List.foldl_map]
    · simp [h, List.foldl_map]

/-- Settles O20: `deriveFrom_getElem` at position 0 of the zero-filled output. -/
theorem deriveIsCyclicXor : Obligations.DeriveIsCyclicXor := by
  intro n p j
  have h := deriveFrom_getElem p 0 (Vector.replicate (n + 1) 0) j.val j.isLt
  simpa [derive] using h

/-- Settles O16: KDCLR runs at once when no run is in progress, and writes KEY, KEYV and KDIDX alone. -/
theorem kdclrStartsDerivation : Obligations.KdclrStartsDerivation := by
  refine ⟨encodedAs_encode rfl, fun s hs => ⟨_, exec_kdclr_of_ready hs, ?_, rfl, rfl, ?_⟩⟩
  · exact (by decide : ∀ j : Fin 16, Key.zero[j] = 0)
  · apply onlyRegs_setKey
    · intro a h ha
      simp [keyRegs, h] at ha
    · intro h
      simp [oneReg] at h
    · intro h
      simp [oneReg] at h

/-- Settles O17: KDBYTE writes the key byte at KDIDX, and KDIDX. -/
theorem kdbyteFoldsOneByte : Obligations.KdbyteFoldsOneByte := by
  intro b
  have hword : encode (.kdbyte b) = 0x11000000 ||| b.setWidth 32 := by
    simp [encode, layFields_eq_or, Instr.mnemonic, Mnemonic.opc]
  refine ⟨hword ▸ encodedAs_encode rfl, fun s hs => ⟨_, exec_kdbyte_of_ready b hs, ?_, ?_, ?_, ?_⟩⟩
  · simp
  · intro j hj
    have hne : s.kdidx.val ≠ j.val := fun e => hj (Fin.ext e.symm)
    simp [hne]
  · exact Fin.val_add s.kdidx 1
  · apply onlyRegs_setKey
    · intro a h ha
      simp [keyRegs, h] at ha
    · exact fun _ => rfl
    · intro h
      simp [oneReg] at h

/-- Settles O18: KEYLDW writes one word of KEY and one bit of KEYV. -/
theorem keyldwLoadsOneWord : Obligations.KeyldwLoadsOneWord := by
  intro i v
  have hword : encode (.keyldw i v) = 0x12000000 ||| (i.setWidth 32 <<< 16) ||| v.setWidth 32 := by
    simp [encode, layFields_eq_or, Instr.mnemonic, Mnemonic.opc]
  refine ⟨hword ▸ encodedAs_encode rfl, fun s hs => ⟨_, exec_keyldw_of_ready i v hs, ?_, ?_, ?_⟩⟩
  · exact fun j => Key.setWord_getElem s.key i v j.val j.isLt
  · exact fun j _ => setKeyvBit_getLsbD s.keyv i j
  · apply onlyRegs_setKey
    · intro a h ha
      rw [Bool.or_eq_false_iff] at ha
      have hne := oneReg_false ha.1
      rw [BitVec.toNat_setWidth_of_le (by decide)] at hne
      exact Key.word_setWord_of_ne s.key i v hne
    · intro h
      simp [oneReg] at h
    · exact fun _ => rfl

end Sys2Proof.Machine
end

section
/-! Modular arithmetic (42 R140 to R144): the words as the nonzero elements of the field of 65537, where `mul` is the product and
`mulInv`, by the extended Euclidean algorithm, the inverse. -/

namespace Sys2Proof.Machine

/-- 65537 is prime, so that no product of two group elements is 0 and every group element has an inverse (42 R140, R143). -/
theorem prime_mulModulus : Nat.Prime 65537 := by norm_num

/-! ## The element of a word -/

theorem groupElement_zero : groupElement 0 = 65536 := rfl

theorem groupElement_of_ne_zero {x : Word} (h : x ≠ 0) : groupElement x = x.toNat := if_neg h

theorem groupElement_pos (x : Word) : 0 < groupElement x := by
  by_cases h : x = 0
  · subst h
    decide
  · rw [groupElement_of_ne_zero h]
    exact Nat.pos_of_ne_zero fun e => h (BitVec.eq_of_toNat_eq e)

theorem groupElement_le (x : Word) : groupElement x ≤ 65536 := by
  by_cases h : x = 0
  · subst h
    decide
  · rw [groupElement_of_ne_zero h]
    exact x.isLt.le

/-- A word is its group element modulo 2^16: 65536 is written 0x0000 (42 R140). -/
theorem ofNat_groupElement (x : Word) : BitVec.ofNat 16 (groupElement x) = x := by
  by_cases h : x = 0
  · subst h
    rfl
  · rw [groupElement_of_ne_zero h, BitVec.ofNat_toNat, BitVec.setWidth_eq]

theorem groupElement_ofNat {n : Nat} (hpos : 0 < n) (hle : n ≤ 65536) : groupElement (BitVec.ofNat 16 n) = n := by
  obtain rfl | hlt := Nat.eq_or_lt_of_le hle
  · rfl
  · have htoNat : (BitVec.ofNat 16 n).toNat = n := Nat.mod_eq_of_lt hlt
    rw [groupElement_of_ne_zero, htoNat]
    intro h
    rw [h] at htoNat
    exact hpos.ne htoNat

/-! ## The product -/

theorem mul_comm_word (a b : Word) : mul a b = mul b a := by
  unfold mul
  rw [Nat.mul_comm, BitVec.sub_sub, BitVec.add_comm, ← BitVec.sub_sub]

/-- The zero word is the element 2^16, which is -1 (42 R140). -/
theorem mul_zero_word (x : Word) : mul x 0 = 1 - x := by
  simp [mul]

theorem zero_mul_word (x : Word) : mul 0 x = 1 - x := by
  rw [mul_comm_word, mul_zero_word]

theorem one_sub_eq_ofNat (x : Word) : 1 - x = BitVec.ofNat 16 (groupElement x * 65536 % 65537) := by
  by_cases h : x = 0
  · subst h
    decide
  · have hlt : x.toNat < 65536 := x.isLt
    have hpos : 0 < x.toNat := groupElement_of_ne_zero h ▸ groupElement_pos x
    have hneg : x.toNat * 65536 % 65537 = 65537 - x.toNat := by omega
    rw [groupElement_of_ne_zero h, hneg]
    bv_omega

/-- Both cases of `mul` are one formula over the group elements (42 R140). -/
theorem mul_eq_ofNat (a b : Word) : mul a b = BitVec.ofNat 16 (groupElement a * groupElement b % 65537) := by
  by_cases ha : a = 0
  · rw [ha, zero_mul_word, one_sub_eq_ofNat, groupElement_zero, Nat.mul_comm]
  · by_cases hb : b = 0
    · rw [hb, mul_zero_word, one_sub_eq_ofNat, groupElement_zero]
    · have hne : a.toNat * b.toNat ≠ 0 := by
        rw [← groupElement_of_ne_zero ha, ← groupElement_of_ne_zero hb]
        exact (Nat.mul_pos (groupElement_pos a) (groupElement_pos b)).ne'
      rw [mul, if_pos hne, groupElement_of_ne_zero ha, groupElement_of_ne_zero hb, Config.mulModulus]

theorem not_dvd_groupElement (x : Word) : ¬ 65537 ∣ groupElement x :=
  Nat.not_dvd_of_pos_of_lt (groupElement_pos x) (Nat.lt_succ_of_le (groupElement_le x))

theorem groupElement_mul (a b : Word) : groupElement (mul a b) = groupElement a * groupElement b % 65537 := by
  have hne : groupElement a * groupElement b % 65537 ≠ 0 := fun h =>
    (prime_mulModulus.dvd_mul.1 (Nat.dvd_of_mod_eq_zero h)).elim (not_dvd_groupElement a) (not_dvd_groupElement b)
  have hlt : groupElement a * groupElement b % 65537 < 65537 := Nat.mod_lt _ (by decide)
  rw [mul_eq_ofNat, groupElement_ofNat (Nat.pos_of_ne_zero hne) (Nat.le_of_lt_succ hlt)]

/-- Settles O22: the group elements multiply modulo 65537, and a zero word negates. -/
theorem mulIsGroupMultiplication : Obligations.MulIsGroupMultiplication :=
  ⟨groupElement_mul, rfl, fun x => ⟨mul_zero_word x, zero_mul_word x⟩⟩

/-! ## The words in the field of 65537 -/

/-- The element of a word, in the ring of the integers modulo 65537. -/
def fieldElement (x : Word) : ZMod 65537 := (groupElement x : ZMod 65537)

theorem fieldElement_mul (a b : Word) : fieldElement (mul a b) = fieldElement a * fieldElement b := by
  rw [fieldElement, groupElement_mul, ZMod.natCast_mod, Nat.cast_mul, fieldElement, fieldElement]

theorem fieldElement_one : fieldElement 1 = 1 := Nat.cast_one

theorem fieldElement_injective : Function.Injective fieldElement := by
  intro x y h
  have hmod : groupElement x % 65537 = groupElement y % 65537 := (ZMod.natCast_eq_natCast_iff' _ _ _).1 h
  rw [Nat.mod_eq_of_lt (Nat.lt_succ_of_le (groupElement_le x)),
    Nat.mod_eq_of_lt (Nat.lt_succ_of_le (groupElement_le y))] at hmod
  rw [← ofNat_groupElement x, hmod, ofNat_groupElement]

theorem mul_eq_one_iff (x y : Word) : mul x y = 1 ↔ fieldElement x * fieldElement y = 1 := by
  rw [← fieldElement_mul, ← fieldElement_one, fieldElement_injective.eq_iff]

/-- A number that inverts some element is neither 0 nor 65537, so that its word stands for it. -/
theorem fieldElement_ofNat_of_mul_eq_one {n : Nat} {a : ZMod 65537} (hle : n ≤ 65537)
    (h : (n : ZMod 65537) * a = 1) : fieldElement (BitVec.ofNat 16 n) = n := by
  have hcast : (n : ZMod 65537) ≠ 0 := by
    intro h0
    rw [h0, zero_mul] at h
    exact absurd h (by decide)
  have hpos : n ≠ 0 := by
    rintro rfl
    exact hcast Nat.cast_zero
  have hne : n ≠ 65537 := by
    rintro rfl
    exact hcast (ZMod.natCast_self 65537)
  rw [fieldElement, groupElement_ofNat (by omega) (by omega)]

/-! ## The extended Euclidean algorithm (42 R144) -/

/-- What the algorithm keeps of its remainders `x` and `y` and its coefficients: up to sign, the coefficients give the remainders
as multiples of the word to invert, and crosswise they weigh the remainders to the modulus. -/
structure EuclidInv (a : ZMod 65537) (x y t0 t1 : Nat) : Prop where
  left : (x : ZMod 65537) = t0 * a
  right : (y : ZMod 65537) = -(t1 * a)
  weighted : t0 * y + t1 * x = 65537

/-- The two sides play the same part, for opposite words. -/
theorem EuclidInv.swap {a : ZMod 65537} {x y t0 t1 : Nat} (h : EuclidInv a x y t0 t1) : EuclidInv (-a) y x t1 t0 where
  left := by rw [h.right, mul_neg]
  right := by rw [h.left, mul_neg, neg_neg]
  weighted := by rw [Nat.add_comm, h.weighted]

/-- A division of `y` by `x` keeps the invariant. -/
theorem EuclidInv.divide {a : ZMod 65537} {x y t0 t1 : Nat} (h : EuclidInv a x y t0 t1) :
    EuclidInv a x (y % x) t0 (t1 + y / x * t0) where
  left := h.left
  right := by
    have hcast : (y : ZMod 65537) = (y % x : Nat) + x * (y / x : Nat) := by
      rw [← Nat.cast_mul, ← Nat.cast_add, Nat.mod_add_div]
    rw [eq_sub_of_add_eq hcast.symm, h.left, h.right]
    push_cast
    ring
  weighted := by
    calc t0 * (y % x) + (t1 + y / x * t0) * x = t0 * (y % x + x * (y / x)) + t1 * x := by ring
      _ = 65537 := by rw [Nat.mod_add_div, h.weighted]

/-- A division of `x` by `y` keeps the invariant. -/
theorem EuclidInv.divide_left {a : ZMod 65537} {x y t0 t1 : Nat} (h : EuclidInv a x y t0 t1) :
    EuclidInv a (x % y) y (t0 + x / y * t1) t1 := by
  simpa using h.swap.divide.swap

/-- No division comes out even: the divisor would divide the modulus, which is prime. -/
theorem EuclidInv.mod_ne_zero {a : ZMod 65537} {x y t0 t1 : Nat} (h : EuclidInv a x y t0 t1) (hx : 2 ≤ x)
    (hlt : x < 65537) : y % x ≠ 0 := by
  intro h0
  have hdvd : x ∣ 65537 := h.weighted ▸ Dvd.dvd.linear_comb (Nat.dvd_of_mod_eq_zero h0) dvd_rfl t0 t1
  have := (Nat.dvd_prime prime_mulModulus).1 hdvd
  omega

/-- A remainder 1 on the left: its coefficient is the inverse. -/
theorem EuclidInv.inverse_of_left {a : ZMod 65537} {y t0 t1 : Nat} (h : EuclidInv a 1 y t0 t1) (hy : 2 ≤ y) :
    fieldElement (BitVec.ofNat 16 t0) * a = 1 := by
  have hone : (t0 : ZMod 65537) * a = 1 := by rw [← h.left, Nat.cast_one]
  have hle : t0 ≤ 65537 :=
    calc t0 ≤ t0 * y := Nat.le_mul_of_pos_right t0 (by omega)
      _ ≤ 65537 := h.weighted ▸ Nat.le_add_right _ _
  rw [fieldElement_ofNat_of_mul_eq_one hle hone, hone]

/-- A remainder 1 on the right: the inverse is its coefficient's opposite. -/
theorem EuclidInv.inverse_of_right {a : ZMod 65537} {x t0 t1 : Nat} (h : EuclidInv a x 1 t0 t1) (hx : 2 ≤ x) :
    fieldElement (BitVec.ofNat 16 ((65537 - t1) % 65536)) * a = 1 := by
  have hle : t1 ≤ 65537 :=
    calc t1 ≤ t1 * x := Nat.le_mul_of_pos_right t1 (by omega)
      _ ≤ 65537 := h.weighted ▸ Nat.le_add_left _ _
  have hone : ((65537 - t1 : Nat) : ZMod 65537) * a = 1 := by
    rw [Nat.cast_sub hle, ZMod.natCast_self, zero_sub, neg_mul, ← h.right, Nat.cast_one]
  have hword : BitVec.ofNat 16 ((65537 - t1) % 65536) = BitVec.ofNat 16 (65537 - t1) := by
    bv_omega
  rw [hword, fieldElement_ofNat_of_mul_eq_one (Nat.sub_le _ _) hone, hone]

/-- Two divisions halve the left remainder, so that one turn per bit of it is enough (log 15). -/
theorem mod_mod_lt_half {x r : Nat} (hpos : 0 < r) (hlt : r < x) : 2 * (x % r) < x := by
  have hmod := Nat.mod_lt x hpos
  have hquot : r ≤ r * (x / r) := Nat.le_mul_of_pos_right r (Nat.div_pos hlt.le hpos)
  have := Nat.mod_add_div x r
  omega

/-- From a state of the algorithm, with a turn for every bit of the left remainder, the loop ends at the inverse (42 R144). -/
theorem mulInvLoop_inverse {a : ZMod 65537} (fuel : Nat) {x y t0 t1 : Nat} (h : EuclidInv a x y t0 t1) (hx : 2 ≤ x)
    (hlt : x < 65537) (hfuel : x < 2 ^ fuel) : fieldElement (BitVec.ofNat 16 (mulInvLoop fuel x y t0 t1)) * a = 1 := by
  induction fuel generalizing x y t0 t1 with
  | zero => omega
  | succ fuel ih =>
    have hright := h.divide
    have hmod : y % x < x := Nat.mod_lt y (by omega)
    have hne := h.mod_ne_zero hx hlt
    unfold mulInvLoop
    split_ifs with hr hl
    · rw [hr] at hright
      exact hright.inverse_of_right hx
    · have hleft := hright.divide_left
      rw [hl] at hleft
      exact hleft.inverse_of_left (by omega)
    · have hne' := hright.swap.mod_ne_zero (by omega) (by omega)
      have hhalf := mod_mod_lt_half (Nat.pos_of_ne_zero hne) hmod
      rw [Nat.pow_succ] at hfuel
      exact ih hright.divide_left (by omega) (by omega) (by omega)

/-! ## The inverse (42 R143) -/

theorem mulInv_of_le_one {x : Word} (h : x.toNat ≤ 1) : mulInv x = x := if_pos h

theorem mul_mulInv (x : Word) : mul x (mulInv x) = 1 := by
  by_cases h : x.toNat ≤ 1
  · have hx : x = 0 ∨ x = 1 := by bv_omega
    obtain rfl | rfl := hx
    · rfl
    · rfl
  · have hstart : EuclidInv (fieldElement x) x.toNat 65537 1 0 := {
      left := by
        have hne : x ≠ 0 := by bv_omega
        rw [fieldElement, groupElement_of_ne_zero hne, Nat.cast_one, one_mul]
      right := by rw [ZMod.natCast_self, Nat.cast_zero, zero_mul, neg_zero]
      weighted := by omega }
    have hword : x.toNat < 65536 := x.isLt
    rw [mul_eq_one_iff, mul_comm, mulInv, if_neg h]
    exact mulInvLoop_inverse 32 hstart (by omega) (by omega) (by omega)

theorem eq_mulInv_of_mul_eq_one {x y : Word} (h : mul x y = 1) : y = mulInv x := by
  rw [mul_comm_word, mul_eq_one_iff] at h
  exact fieldElement_injective (left_inv_eq_right_inv h ((mul_eq_one_iff _ _).1 (mul_mulInv x)))

theorem mulInv_mulInv (x : Word) : mulInv (mulInv x) = x :=
  (eq_mulInv_of_mul_eq_one (mul_comm_word x _ ▸ mul_mulInv x)).symm

/-- 0 and 1 are their own inverses, so that no other word's inverse is one of them. -/
theorem two_le_mulInv {x : Word} (h : 2 ≤ x.toNat) : 2 ≤ (mulInv x).toNat := by
  by_contra hlt
  have hself : x = mulInv x := (mulInv_mulInv x).symm.trans (mulInv_of_le_one (by omega))
  rw [← hself] at hlt
  exact hlt h

/-- Settles O23: the Euclidean algorithm ends at an inverse, and inverses in a ring are unique. -/
theorem mulInvIsUniqueInverse : Obligations.MulInvIsUniqueInverse :=
  ⟨fun x => ⟨mul_mulInv x, fun _ => eq_mulInv_of_mul_eq_one⟩, rfl, rfl, fun _ => two_le_mulInv⟩

end Sys2Proof.Machine
end

section
/-! The sum and the additive inverse modulo 65536 (42 R141, R142), and what the accumulator commands answer outside a run (42 R146
to R150). -/

namespace Sys2Proof.Machine

theorem add_toNat (a b : Word) : (add a b).toNat = (a.toNat + b.toNat) % 65536 := by
  simp [add, Config.addModulus]

theorem addInv_toNat (x : Word) : (addInv x).toNat = (65536 - x.toNat) % 65536 := by
  simp [addInv, Config.addModulus]

theorem add_addInv (x : Word) : add x (addInv x) = 0 := by
  apply BitVec.eq_of_toNat_eq
  have hlt : x.toNat < 65536 := x.isLt
  have hzero : (0 : Word).toNat = 0 := rfl
  rw [add_toNat, addInv_toNat, hzero]
  omega

/-- The word of an accumulator command with an immediate: the OPC and the immediate, every other field 0 (30 R91). -/
theorem layFields_imm (o : BitVec 8) (v : Word) : layFields o 0 0 0 v = (o ++ 0#24) ||| v.setWidth 32 := by
  simp [layFields_eq_or]

/-- An accumulator command outside a run writes its value to ACC and leaves the rest (10 R26). -/
theorem whenReady_setAcc {s : State} (h : s.cph ≠ .running) (f : State → Word) :
    ∃ t, whenReady s (fun s => .next (setAcc (f s) s)) = .next t ∧ t.acc = f s ∧ OnlyRegs (oneReg 0x0B) s t :=
  ⟨setAcc (f s) s, whenReady_of_ready s _ h, setAcc_acc _ s, onlyRegs_setAcc _ s⟩

/-- Settles O25: each command is the one write to ACC with its value. -/
theorem accumulatorCommandsWriteAcc : Obligations.AccumulatorCommandsWriteAcc := by
  refine ⟨add_toNat, fun x => ⟨addInv_toNat x, add_addInv x⟩, rfl, encodedAs_encode rfl, encodedAs_encode rfl,
    fun v => ⟨?_, ?_, ?_⟩, fun s v hs => ⟨?_, ?_, ?_, ?_, ?_⟩⟩
  · exact layFields_imm 0x40 v ▸ encodedAs_encode (i := .accld v) rfl
  · exact layFields_imm 0x41 v ▸ encodedAs_encode (i := .muli v) rfl
  · exact layFields_imm 0x42 v ▸ encodedAs_encode (i := .addi v) rfl
  · exact whenReady_setAcc hs fun _ => v
  · exact whenReady_setAcc hs fun s => mul s.acc v
  · exact whenReady_setAcc hs fun s => add s.acc v
  · exact whenReady_setAcc hs fun s => mulInv s.acc
  · exact whenReady_setAcc hs fun s => addInv s.acc

end Sys2Proof.Machine
end

section
/-! The two schedules (43 R170 to R174): the encryption schedule as rotations of the key register, and the inverted schedule in the
spec's own subkeys Z_r,j, through which inverting twice is seen to be the identity. -/

namespace Sys2Proof.Machine

/-! ## The encryption schedule (43 R170) -/

theorem rotateLeft_rotateLeft {w : Nat} (x : BitVec w) (a b : Nat) :
    (x.rotateLeft a).rotateLeft b = x.rotateLeft (a + b) := by
  apply BitVec.eq_of_getMsbD_eq
  intro n hn
  have hpos : 0 < w := by omega
  simp [BitVec.getMsbD_rotateLeft, hn, Nat.mod_lt _ hpos, Nat.add_assoc]

theorem rotate25_eq_rotateLeft (k : BitVec 128) : rotate25 k = k.rotateLeft 25 := by
  rw [BitVec.rotateLeft_def, rotate25]

/-- `g` rotations by 25 bits are one rotation by 25g bits. -/
theorem rotatedKey_eq_rotateLeft (k : BitVec 128) (g : Nat) : rotatedKey k g = k.rotateLeft (25 * g) := by
  induction g with
  | zero => simp [rotatedKey, BitVec.rotateLeft_def, BitVec.ushiftRight_eq_zero]
  | succ g ih => rw [rotatedKey, ih, rotate25_eq_rotateLeft, rotateLeft_rotateLeft, Nat.mul_succ]

/-- The key register holds key word i at bit 16(7 − i) (20 R71, 43 R170). -/
theorem registerWord_register (k : Key) (i : Fin 8) : registerWord (Key.register k) i.val = Key.word k i := by
  unfold registerWord Key.register
  match i with
  | 0 | 1 | 2 | 3 | 4 | 5 | 6 =>
    repeat rw [BitVec.extractLsb'_append_eq_of_add_le (by decide)]
    exact BitVec.extractLsb'_append_eq_left
  | 7 =>
    repeat rw [BitVec.extractLsb'_append_eq_of_add_le (by decide)]
    exact BitVec.extractLsb'_eq_self

/-- Settles O30: the rotations of the model are one rotation of the register. -/
theorem genScheduleRotatesKey : Obligations.GenScheduleRotatesKey := by
  refine fun k => ⟨registerWord_register k, fun i => ?_⟩
  calc (genSchedule k)[i] = registerWord (rotatedKey (Key.register k) (i.val / 8)) (i.val % 8) :=
        genSchedule_getElem k i.val i.isLt
    _ = _ := by rw [rotatedKey_eq_rotateLeft, registerWord]

/-! ## The inverted schedule (43 R173) -/

theorem subkey_eq_getElem (z : Schedule) {r j : Nat} (h : 6 * (r - 1) + (j - 1) < 52) :
    subkey z r j = z[6 * (r - 1) + (j - 1)] := by
  simp [subkey, h]

/-- Word 6g + p stands at position p of round group g (43 R173). -/
theorem index_div_mod (g : Nat) {p : Nat} (hp : p < 6) : (6 * g + p) / 6 = g ∧ (6 * g + p) % 6 = p := by
  omega

/-- Two schedules with the same 52 subkeys are the same. -/
theorem Schedule.ext_subkey {z w : Schedule}
    (h : ∀ r j, 1 ≤ r → 1 ≤ j → j ≤ 6 → 6 * (r - 1) + (j - 1) < 52 → subkey z r j = subkey w r j) : z = w := by
  apply Vector.ext
  intro i hi
  have hindex : 6 * (i / 6 + 1 - 1) + (i % 6 + 1 - 1) = i := by omega
  have := h (i / 6 + 1) (i % 6 + 1) (by omega) (by omega) (by omega) (by omega)
  simpa only [subkey_eq_getElem, hindex, hi] using this

/-- The multiplicative subkeys are inverted, the round groups in reverse order. -/
theorem subkey_invertSchedule_mul (z : Schedule) {r j : Nat} (hr : 1 ≤ r ∧ r ≤ 9) (hj : j = 1 ∨ j = 4) :
    subkey (invertSchedule z) r j = mulInv (subkey z (10 - r) j) := by
  rw [subkey_eq_getElem _ (by omega), subkey_eq_getElem _ (by omega)]
  obtain ⟨hdiv, hmod⟩ := index_div_mod (r - 1) (p := j - 1) (by omega)
  have hcase : j - 1 = 0 ∨ j - 1 = 3 := by omega
  have hgroup : 8 - (r - 1) = 10 - r - 1 := by omega
  simp only [invertSchedule, Vector.getElem_ofFn, hdiv, hmod, hcase, hgroup, dite_true]

/-- The additive subkeys of the first round and of the output transform are inverted in place. -/
theorem subkey_invertSchedule_add_outer (z : Schedule) {r j : Nat} (hr : r = 1 ∨ r = 9) (hj : j = 2 ∨ j = 3) :
    subkey (invertSchedule z) r j = addInv (subkey z (10 - r) j) := by
  rw [subkey_eq_getElem _ (by omega), subkey_eq_getElem _ (by omega)]
  obtain ⟨hdiv, hmod⟩ := index_div_mod (r - 1) (p := j - 1) (by omega)
  have hmul : ¬ (j - 1 = 0 ∨ j - 1 = 3) := by omega
  have hcase : j - 1 = 1 ∨ j - 1 = 2 := by omega
  have houter : ¬ (1 ≤ r - 1 ∧ r - 1 ≤ 7) := by omega
  have hgroup : 8 - (r - 1) = 10 - r - 1 := by omega
  simp only [invertSchedule, Vector.getElem_ofFn, hdiv, hmod, hmul, hcase, houter, hgroup, dite_false, dite_true, if_false]

/-- The additive subkeys of rounds 2 to 8 are inverted and change places. -/
theorem subkey_invertSchedule_add_inner (z : Schedule) {r j : Nat} (hr : 2 ≤ r ∧ r ≤ 8) (hj : j = 2 ∨ j = 3) :
    subkey (invertSchedule z) r j = addInv (subkey z (10 - r) (5 - j)) := by
  rw [subkey_eq_getElem _ (by omega), subkey_eq_getElem _ (by omega)]
  obtain ⟨hdiv, hmod⟩ := index_div_mod (r - 1) (p := j - 1) (by omega)
  have hmul : ¬ (j - 1 = 0 ∨ j - 1 = 3) := by omega
  have hcase : j - 1 = 1 ∨ j - 1 = 2 := by omega
  have hinner : 1 ≤ r - 1 ∧ r - 1 ≤ 7 := by omega
  have hgroup : 8 - (r - 1) = 10 - r - 1 := by omega
  have hswap : 3 - (j - 1) = 5 - j - 1 := by omega
  simp only [invertSchedule, Vector.getElem_ofFn, hdiv, hmod, hmul, hcase, hinner, hgroup, hswap, dite_false, dite_true,
    and_self, if_true]

/-- The MA subkeys are carried over, the rounds in reverse order. -/
theorem subkey_invertSchedule_ma (z : Schedule) {r j : Nat} (hr : 1 ≤ r ∧ r ≤ 8) (hj : j = 5 ∨ j = 6) :
    subkey (invertSchedule z) r j = subkey z (9 - r) j := by
  rw [subkey_eq_getElem _ (by omega), subkey_eq_getElem _ (by omega)]
  obtain ⟨hdiv, hmod⟩ := index_div_mod (r - 1) (p := j - 1) (by omega)
  have hmul : ¬ (j - 1 = 0 ∨ j - 1 = 3) := by omega
  have hadd : ¬ (j - 1 = 1 ∨ j - 1 = 2) := by omega
  have hgroup : 7 - (r - 1) = 9 - r - 1 := by omega
  simp only [invertSchedule, Vector.getElem_ofFn, hdiv, hmod, hmul, hadd, hgroup, dite_false]

/-- Settles O32: the table of 43 R173, row by row. -/
theorem invertSchedulePositions : Obligations.InvertSchedulePositions := by
  rintro z _ rfl
  refine ⟨⟨?_, ?_, ?_, ?_, ?_, ?_⟩, fun r hlow hhigh => ⟨?_, ?_, ?_, ?_, ?_, ?_⟩, ?_, ?_, ?_, ?_⟩
  · exact subkey_invertSchedule_mul z (by decide) (by decide)
  · exact subkey_invertSchedule_add_outer z (by decide) (by decide)
  · exact subkey_invertSchedule_add_outer z (by decide) (by decide)
  · exact subkey_invertSchedule_mul z (by decide) (by decide)
  · exact subkey_invertSchedule_ma z (by decide) (by decide)
  · exact subkey_invertSchedule_ma z (by decide) (by decide)
  · exact subkey_invertSchedule_mul z (by omega) (by decide)
  · exact subkey_invertSchedule_add_inner z ⟨hlow, hhigh⟩ (by decide)
  · exact subkey_invertSchedule_add_inner z ⟨hlow, hhigh⟩ (by decide)
  · exact subkey_invertSchedule_mul z (by omega) (by decide)
  · exact subkey_invertSchedule_ma z (by omega) (by decide)
  · exact subkey_invertSchedule_ma z (by omega) (by decide)
  · exact subkey_invertSchedule_mul z (by decide) (by decide)
  · exact subkey_invertSchedule_add_outer z (by decide) (by decide)
  · exact subkey_invertSchedule_add_outer z (by decide) (by decide)
  · exact subkey_invertSchedule_mul z (by decide) (by decide)

theorem addInv_addInv (x : Word) : addInv (addInv x) = x := by
  apply BitVec.eq_of_toNat_eq
  have hlt : x.toNat < 65536 := x.isLt
  rw [addInv_toNat, addInv_toNat]
  omega

/-- The inversion is its own inverse: each kind of subkey goes back to its round and place, and the two word inverses are
involutions (43 R174). -/
theorem invertSchedule_invertSchedule (z : Schedule) : invertSchedule (invertSchedule z) = z := by
  apply Schedule.ext_subkey
  intro r j hr hj hj' hin
  have hcases : (j = 1 ∨ j = 4) ∨ (j = 2 ∨ j = 3) ∨ (j = 5 ∨ j = 6) := by omega
  rcases hcases with hmul | hadd | hma
  · have hback : 10 - (10 - r) = r := by omega
    rw [subkey_invertSchedule_mul _ (by omega) hmul, subkey_invertSchedule_mul _ (by omega) hmul, hback, mulInv_mulInv]
  · have hback : 10 - (10 - r) = r := by omega
    by_cases houter : r = 1 ∨ r = 9
    · rw [subkey_invertSchedule_add_outer _ houter hadd, subkey_invertSchedule_add_outer _ (by omega) hadd, hback, addInv_addInv]
    · have hplace : 5 - (5 - j) = j := by omega
      rw [subkey_invertSchedule_add_inner _ (by omega) hadd, subkey_invertSchedule_add_inner _ (by omega) (by omega), hback,
        hplace, addInv_addInv]
  · have hback : 9 - (9 - r) = r := by omega
    rw [subkey_invertSchedule_ma _ (by omega) hma, subkey_invertSchedule_ma _ (by omega) hma, hback]

end Sys2Proof.Machine
end

section
/-! The commands of the block cipher (43 R180 to R183): what SCHEDGEN, SCHEDINV, CRYPT and BLKLDW answer outside a run, what each
writes and what it leaves. -/

namespace Sys2Proof.Machine

/-! ## The commands outside a run -/

/-- Outside a run, a command whose own check holds goes on (60 R305, R306). -/
theorem whenReady_require_of_ok {s : State} {ok : State → Bool} (hs : s.cph ≠ .running) (hok : ok s = true)
    (code : ErrorCode) (k : State → Result) : whenReady s (fun s => require (ok s) code s k) = k s := by
  rw [whenReady_of_ready s _ hs, require, if_pos hok]

/-- Outside a run, a command whose own check does not hold raises its error and stops (60 R302, R305, R306). -/
theorem whenReady_require_of_not_ok {s : State} {ok : State → Bool} (hs : s.cph ≠ .running) (hok : ok s = false)
    (code : ErrorCode) (k : State → Result) :
    whenReady s (fun s => require (ok s) code s k) = .next (raiseCmd code s) := by
  rw [whenReady_of_ready s _ hs, require, hok, if_neg Bool.false_ne_true]

/-- A command that raises its error and stops is a failing command (60 R302). -/
theorem failsWith_of_raiseCmd {code : ErrorCode} {i : Instr} {s : State} (h : exec i s = .next (raiseCmd code s)) :
    FailsWith code i s :=
  ⟨raiseCmd code s, h, raiseCmd_cmderr code s, onlyRegs_raiseCmd code s⟩

theorem exec_schedgen_of_complete {s : State} (hs : s.cph ≠ .running) (hkey : s.keyv = 0xFF) :
    exec .schedgen s = .next (setSchedule (genSchedule s.key) { s.cfg with skdir := .enc, skv := true } s) := by
  show execSchedgen s = _
  rw [execSchedgen, whenReady_require_of_ok hs ((keyComplete_iff s).2 hkey)]

theorem exec_schedgen_of_incomplete {s : State} (hs : s.cph ≠ .running) (hkey : s.keyv ≠ 0xFF) :
    exec .schedgen s = .next (raiseCmd .invalidKeySize s) := by
  have hincomplete : s.keyComplete = false := Bool.eq_false_iff.2 (mt (keyComplete_iff s).1 hkey)
  show execSchedgen s = _
  rw [execSchedgen, whenReady_require_of_not_ok hs hincomplete]

theorem exec_schedinv_of_loaded {s : State} (hs : s.cph ≠ .running) (hskv : s.cfg.skv = true) :
    exec .schedinv s = .next (setSchedule (invertSchedule s.sk) { s.cfg with skdir := flipDir s.cfg.skdir } s) := by
  show execSchedinv s = _
  rw [execSchedinv, whenReady_require_of_ok (ok := State.scheduleLoaded) hs hskv]

theorem exec_schedinv_of_unloaded {s : State} (hs : s.cph ≠ .running) (hskv : s.cfg.skv = false) :
    exec .schedinv s = .next (raiseCmd .unconfigured s) := by
  show execSchedinv s = _
  rw [execSchedinv, whenReady_require_of_not_ok (ok := State.scheduleLoaded) hs hskv]

theorem exec_crypt_of_loaded {s : State} (hs : s.cph ≠ .running) (hskv : s.cfg.skv = true) :
    exec .crypt s = .next (setBlk (cryptBlock s.blk s.sk) s) := by
  show execCrypt s = _
  rw [execCrypt, whenReady_require_of_ok (ok := State.scheduleLoaded) hs hskv]

theorem exec_crypt_of_unloaded {s : State} (hs : s.cph ≠ .running) (hskv : s.cfg.skv = false) :
    exec .crypt s = .next (raiseCmd .unconfigured s) := by
  show execCrypt s = _
  rw [execCrypt, whenReady_require_of_not_ok (ok := State.scheduleLoaded) hs hskv]

theorem exec_blkldw_of_ready {i : BitVec 3} (hi : i.toNat < 4) (v : Word) {s : State} (hs : s.cph ≠ .running) :
    exec (.blkldw i v) s = .next (setBlk (Block.setWord s.blk ⟨i.toNat, hi⟩ v) s) := by
  show execBlkldw i v s = _
  rw [execBlkldw, dif_pos hi, whenReady_of_ready s _ hs]

/-! ## What the commands write, and their frame -/

/-- The frame of a write to SK and CFG (10 R25, R33). -/
theorem onlyRegs_setSchedule (z : Schedule) (c : Cfg) (s : State) :
    OnlyRegs (fun a => skRegs a || oneReg 0x0A a) s (setSchedule z c s) := by
  refine onlyRegs_of (fun a ha => ?_) rfl rfl rfl rfl rfl rfl rfl rfl rfl
  rw [Bool.or_eq_false_iff] at ha
  obtain ⟨hsk, hcfg⟩ := ha
  have hnotCfg : a.toNat ≠ 0x0A := oneReg_false hcfg
  have hnotSk : 0x40 ≤ a.toNat → ¬ a.toNat < 0x74 := by simpa [skRegs] using hsk
  apply readReg_congr (cfg := fun h => absurd h hnotCfg) (sk := fun h h' => absurd h' (hnotSk h)) <;> intros <;> rfl

/-- A block register reads the block word it maps (10 R20, R31). -/
theorem readReg_blk {a : RegAddr} (hlow : 0x10 ≤ a.toNat) (hhigh : a.toNat < 0x14) (s : State) :
    readReg a s = Block.word s.blk ⟨a.toNat - 0x10, by omega⟩ := by
  rw [readReg, dif_neg (by omega)]
  iterate 8 rw [if_neg (by omega)]
  rw [dif_pos hhigh]

/-- The frame of a write to BLK: it is enough that the new words agree with the old ones wherever the written set does not
reach (10 R31). -/
theorem onlyRegs_setBlk {written : RegAddr → Bool} {b : Block} {s : State}
    (hblk : ∀ (a : RegAddr) (_ : 0x10 ≤ a.toNat) (_ : a.toNat < 0x14), written a = false →
      Block.word b ⟨a.toNat - 0x10, by omega⟩ = Block.word s.blk ⟨a.toNat - 0x10, by omega⟩) :
    OnlyRegs written s (setBlk b s) := by
  refine onlyRegs_of (fun a ha => ?_) rfl rfl rfl rfl rfl rfl rfl rfl rfl
  by_cases hin : 0x10 ≤ a.toNat ∧ a.toNat < 0x14
  · obtain ⟨hlow, hhigh⟩ := hin
    rw [readReg_blk hlow hhigh, readReg_blk hlow hhigh]
    exact hblk a hlow hhigh ha
  · apply readReg_congr (blk := fun h h' => absurd ⟨h, h'⟩ hin) <;> intros <;> rfl

/-- The block words beside the one BLKLDW writes (43 R183). -/
theorem Block.word_setWord_of_ne (b : Block) {i j : Fin 4} (v : Word) (h : j.val ≠ i.val) :
    Block.word (Block.setWord b i v) j = Block.word b j := by
  have := j.isLt
  unfold Block.word
  rw [Block.setWord_getElem, Block.setWord_getElem, if_neg (by omega), if_neg (by omega), if_neg (by omega), if_neg (by omega)]

theorem flipDir_ne (d : Dir) : flipDir d ≠ d := by cases d <;> decide

theorem flipDir_flipDir (d : Dir) : flipDir (flipDir d) = d := by cases d <;> rfl

/-- A second SCHEDINV undoes the first: the inversions cancel, and so do the flips of SKDIR (43 R174, R181). -/
theorem exec_schedinv_twice {s : State} (hs : s.cph ≠ .running) (hskv : s.cfg.skv = true) :
    execAll [.schedinv, .schedinv] s = .next (setSchedule s.sk s.cfg s) := by
  have hfirst := exec_schedinv_of_loaded hs hskv
  have hsecond := exec_schedinv_of_loaded
    (s := setSchedule (invertSchedule s.sk) { s.cfg with skdir := flipDir s.cfg.skdir } s) hs hskv
  rw [setSchedule_sk, invertSchedule_invertSchedule, setSchedule_cfg, flipDir_flipDir] at hsecond
  simp only [execAll, hfirst, andThen, hsecond]
  rfl

/-- The transform of the zero block under the zero schedule (43 R182). -/
theorem cryptBlock_zero : cryptBlock Block.zero (Vector.replicate 52 0) =
    #v[0x00, 0x01, 0x00, 0x01, 0x00, 0x00, 0x00, 0x00] := by decide +kernel

/-- The transform of the block 0000 0001 0002 0003 under the schedule of the key 0001 to 0008 (43 R182). -/
theorem cryptBlock_reference :
    cryptBlock #v[0x00, 0x00, 0x00, 0x01, 0x00, 0x02, 0x00, 0x03] (genSchedule
      #v[0x00, 0x01, 0x00, 0x02, 0x00, 0x03, 0x00, 0x04, 0x00, 0x05, 0x00, 0x06, 0x00, 0x07, 0x00, 0x08]) =
    #v[0x11, 0xFB, 0xED, 0x2B, 0x01, 0x98, 0x6D, 0xE5] := by decide +kernel

/-! ## The statements -/

/-- Settles O26: the check on KEYV decides between the one write to SK and CFG and the error. -/
theorem schedgenLoadsSchedule : Obligations.SchedgenLoadsSchedule := by
  refine ⟨encodedAs_encode rfl, fun s hs =>
    ⟨fun hkey => ⟨_, exec_schedgen_of_complete hs hkey, ?_⟩,
      fun hkey => failsWith_of_raiseCmd (exec_schedgen_of_incomplete hs hkey)⟩⟩
  exact ⟨rfl, rfl, rfl, rfl, rfl, rfl, onlyRegs_setSchedule _ _ s⟩

/-- Settles O27: one inversion is one write to SK and CFG; of two, the inversions cancel, and so do the flips of SKDIR. -/
theorem schedinvInvertsSchedule : Obligations.SchedinvInvertsSchedule := by
  refine ⟨encodedAs_encode rfl, fun s hs =>
    ⟨fun hskv => ⟨_, exec_schedinv_of_loaded hs hskv, ?_⟩, fun hskv => ⟨_, exec_schedinv_twice hs hskv, ?_⟩,
      fun hskv => failsWith_of_raiseCmd (exec_schedinv_of_unloaded hs hskv)⟩⟩
  · exact ⟨rfl, flipDir_ne _, hskv, rfl, rfl, rfl, onlyRegs_setSchedule _ _ s⟩
  · exact ⟨rfl, rfl⟩

/-- Settles O28: the check on SKV decides between the one write to BLK and the error; the two transforms are evaluated. -/
theorem cryptTransformsBlock : Obligations.CryptTransformsBlock := by
  refine ⟨encodedAs_encode rfl, cryptBlock_zero, cryptBlock_reference, fun s hs =>
    ⟨fun hskv => ⟨_, exec_crypt_of_loaded hs hskv, rfl, onlyRegs_setBlk ?_⟩,
      fun hskv => failsWith_of_raiseCmd (exec_crypt_of_unloaded hs hskv)⟩⟩
  intro a hlow hhigh ha
  simp [blkRegs, hlow, hhigh] at ha

/-- Settles O29: BLKLDW writes one word of BLK. -/
theorem blkldwLoadsOneWord : Obligations.BlkldwLoadsOneWord := by
  intro i v s
  have hword : encode (.blkldw i v) = 0x23000000 ||| (i.setWidth 32 <<< 16) ||| v.setWidth 32 := by
    simp [encode, layFields_eq_or, Instr.mnemonic, Mnemonic.opc]
  refine ⟨fun hi => hword ▸ encodedAs_encode (decide_eq_true hi), fun hi hs =>
    ⟨_, exec_blkldw_of_ready hi v hs, fun j => Block.setWord_getElem s.blk ⟨i.toNat, hi⟩ v j.val j.isLt,
      onlyRegs_setBlk fun a hlow hhigh ha => Block.word_setWord_of_ne s.blk v ?_⟩⟩
  have hne : a.toNat ≠ (0x10 + i.setWidth 8 : RegAddr).toNat := oneReg_false ha
  have hreg : (0x10 + i.setWidth 8 : RegAddr).toNat = 0x10 + i.toNat := by
    have hsmall : 16 + i.toNat < 256 := by omega
    simp [BitVec.toNat_add, Nat.mod_eq_of_lt hsmall]
  show a.toNat - 0x10 ≠ i.toNat
  omega

end Sys2Proof.Machine
end

section
/-! The modes of operation (44 R200 to R210): what MODEINIT and XFORM answer outside a run, the word of a command with a
direction and a mode, what a mode makes of one block, and the frame of a write to CHAIN. -/

namespace Sys2Proof.Machine

/-! ## The commands outside a run -/

theorem exec_modeinit_of_complete (d : Dir) (m : Mode) {s : State} (hs : s.cph ≠ .running) (hkey : s.keyv = 0xFF) :
    exec (.modeinit d m) s = .next (loadMode d m s) := by
  show execModeinit d m s = _
  rw [execModeinit, whenReady_require_of_ok hs ((keyComplete_iff s).2 hkey)]

theorem exec_modeinit_of_incomplete (d : Dir) (m : Mode) {s : State} (hs : s.cph ≠ .running) (hkey : s.keyv ≠ 0xFF) :
    exec (.modeinit d m) s = .next (raiseCmd .invalidKeySize s) := by
  have hincomplete : s.keyComplete = false := Bool.eq_false_iff.2 (mt (keyComplete_iff s).1 hkey)
  show execModeinit d m s = _
  rw [execModeinit, whenReady_require_of_not_ok hs hincomplete]

theorem exec_xform_of_loaded {s : State} (hs : s.cph ≠ .running) (hmodev : s.cfg.modev = true) (hskv : s.cfg.skv = true) :
    exec .xform s = .next (setChain (runXform s.blk s).2 (setBlk (runXform s.blk s).1 s)) := by
  have hloaded : s.modeLoaded = true := Bool.and_eq_true_iff.2 ⟨hmodev, hskv⟩
  show execXform s = _
  rw [execXform, whenReady_require_of_ok hs hloaded]

theorem exec_xform_of_unloaded {s : State} (hs : s.cph ≠ .running) (h : s.cfg.modev = false ∨ s.cfg.skv = false) :
    exec .xform s = .next (raiseCmd .unconfigured s) := by
  have hunloaded : s.modeLoaded = false := Bool.and_eq_false_iff.2 h
  show execXform s = _
  rw [execXform, whenReady_require_of_not_ok hs hunloaded]

/-! ## The word of a command with a direction and a mode -/

/-- Format C lays the direction and the mode at bits 23 and 21, beside the OPC alone (30 R91). -/
theorem layFields_dir_mode (o : BitVec 8) (d : Dir) (m : Mode) :
    layFields o (dirBits d) (modeBits m) 0 0 = dirModeWord (o ++ 0#24) d m := by
  rw [layFields_eq_or, dirModeWord]
  simp

theorem encode_modeinit (d : Dir) (m : Mode) : encode (.modeinit d m) = dirModeWord 0x30000000 d m :=
  layFields_dir_mode 0x30 d m

/-! ## What MODEINIT loads -/

/-- Only ECB and CBC decryption use the inverted schedule (44 R200). -/
theorem scheduleDir_of_inverted {d : Dir} {m : Mode} (h : (m = .ecb ∨ m = .cbc) ∧ d = .dec) : scheduleDir d m = .dec := by
  obtain ⟨rfl | rfl, rfl⟩ := h <;> rfl

theorem scheduleDir_of_not_inverted {d : Dir} {m : Mode} (h : ¬((m = .ecb ∨ m = .cbc) ∧ d = .dec)) :
    scheduleDir d m = .enc := by
  cases m with
  | ecb | cbc =>
    cases d with
    | enc => rfl
    | dec => exact absurd h (by decide)
  | cfb | ofb => rfl

theorem modeSchedule_of_dec {d : Dir} {m : Mode} (h : scheduleDir d m = .dec) (k : Key) :
    modeSchedule d m k = invertSchedule (genSchedule k) := by
  rw [modeSchedule, h]

theorem modeSchedule_of_enc {d : Dir} {m : Mode} (h : scheduleDir d m = .enc) (k : Key) :
    modeSchedule d m k = genSchedule k := by
  rw [modeSchedule, h]

theorem ivOf_getElem (k : Key) (j : Fin 8) : (ivOf k)[j] = k[j.val] ^^^ k[j.val + 8] :=
  Vector.getElem_ofFn j.isLt

/-! ## What a mode makes of one block -/

/-- ECB transforms the block and leaves CHAIN (44 R204). -/
theorem runXform_ecb {s : State} (hm : s.cfg.mode = .ecb) (b : Block) :
    runXform b s = (cryptBlock b s.sk, s.chain) := by
  rw [runXform, hm, modeXform]

/-- CBC encryption feeds its output block back (44 R205). -/
theorem runXform_cbc_enc {s : State} (hm : s.cfg.mode = .cbc) (hd : s.cfg.dir = .enc) (b : Block) :
    runXform b s = (cryptBlock (Block.xor b s.chain) s.sk, cryptBlock (Block.xor b s.chain) s.sk) := by
  rw [runXform, hm, hd, modeXform]

/-- CBC decryption feeds its input block back (44 R206). -/
theorem runXform_cbc_dec {s : State} (hm : s.cfg.mode = .cbc) (hd : s.cfg.dir = .dec) (b : Block) :
    runXform b s = (Block.xor (cryptBlock b s.sk) s.chain, b) := by
  rw [runXform, hm, hd, modeXform]

/-- CFB encryption feeds its output block back (44 R207). -/
theorem runXform_cfb_enc {s : State} (hm : s.cfg.mode = .cfb) (hd : s.cfg.dir = .enc) (b : Block) :
    runXform b s = (Block.xor b (cryptBlock s.chain s.sk), Block.xor b (cryptBlock s.chain s.sk)) := by
  rw [runXform, hm, hd, modeXform]

/-- CFB decryption feeds its input block back (44 R208). -/
theorem runXform_cfb_dec {s : State} (hm : s.cfg.mode = .cfb) (hd : s.cfg.dir = .dec) (b : Block) :
    runXform b s = (Block.xor b (cryptBlock s.chain s.sk), b) := by
  rw [runXform, hm, hd, modeXform]

/-- OFB feeds the transform of CHAIN back, whatever the block (44 R209). -/
theorem runXform_ofb {s : State} (hm : s.cfg.mode = .ofb) (b : Block) :
    runXform b s = (Block.xor b (cryptBlock s.chain s.sk), cryptBlock s.chain s.sk) := by
  rw [runXform, hm, modeXform]

/-! ## Frames -/

/-- A frame over a larger set of written registers is weaker. -/
theorem onlyRegs_mono {w v : RegAddr → Bool} {s t : State} (h : OnlyRegs w s t) (hv : ∀ a, v a = false → w a = false) :
    OnlyRegs v s t := by
  obtain ⟨hregs, hrest⟩ := h
  exact ⟨sameRegs_mono hregs hv, hrest⟩

/-- The frame of a write to CHAIN (10 R32). -/
theorem onlyRegs_setChain (c : Block) (s : State) : OnlyRegs chainRegs s (setChain c s) := by
  refine onlyRegs_of (fun a ha => ?_) rfl rfl rfl rfl rfl rfl rfl rfl rfl
  have hnotChain : 0x14 ≤ a.toNat → ¬ a.toNat < 0x18 := by simpa [chainRegs] using ha
  apply readReg_congr (chain := fun h h' => absurd h' (hnotChain h)) <;> intros <;> rfl

/-- The frame of a write to the whole of BLK (10 R31). -/
theorem onlyRegs_setBlk_all (b : Block) (s : State) : OnlyRegs blkRegs s (setBlk b s) := by
  apply onlyRegs_setBlk
  intro a hlow hhigh ha
  simp [blkRegs, hlow, hhigh] at ha

/-- MODEINIT writes SK and CFG, then CHAIN (44 R201). -/
theorem onlyRegs_loadMode (d : Dir) (m : Mode) (s : State) :
    OnlyRegs (fun a => skRegs a || chainRegs a || oneReg 0x0A a) s (loadMode d m s) := by
  apply onlyRegs_trans (t := setSchedule (modeSchedule d m s.key) (loadMode d m s).cfg s)
  · apply onlyRegs_mono (onlyRegs_setSchedule _ _ s)
    simp +contextual
  · apply onlyRegs_mono (onlyRegs_setChain (ivOf s.key) _)
    simp +contextual

/-- XFORM writes BLK, then CHAIN (44 R210). -/
theorem onlyRegs_setChain_setBlk (c b : Block) (s : State) :
    OnlyRegs (fun a => blkRegs a || chainRegs a) s (setChain c (setBlk b s)) := by
  apply onlyRegs_trans
  · apply onlyRegs_mono (onlyRegs_setBlk_all b s)
    simp +contextual
  · apply onlyRegs_mono (onlyRegs_setChain c _)
    simp +contextual

/-! ## The statements -/

/-- Settles O35: the check on KEYV decides between the error and `loadMode`, whose schedule follows the mode and direction. -/
theorem modeinitConstructsMode : Obligations.ModeinitConstructsMode := by
  refine fun d m => ⟨encode_modeinit d m ▸ encodedAs_encode rfl, fun s hs =>
    ⟨fun hkey => failsWith_of_raiseCmd (exec_modeinit_of_incomplete d m hs hkey),
      fun hkey => ⟨_, exec_modeinit_of_complete d m hs hkey, ?_, ?_, rfl, rfl, rfl, rfl, ?_, ?_⟩⟩⟩
  · intro hinv
    have hdir := scheduleDir_of_inverted hinv
    exact ⟨modeSchedule_of_dec hdir s.key, hdir⟩
  · intro hplain
    have hdir := scheduleDir_of_not_inverted hplain
    exact ⟨modeSchedule_of_enc hdir s.key, hdir⟩
  · exact ivOf_getElem s.key
  · exact onlyRegs_loadMode d m s

/-- Settles O36: the check on MODEV and SKV decides between the error and the pair of blocks the mode and direction give. -/
theorem xformFollowsMode : Obligations.XformFollowsMode := by
  refine ⟨encodedAs_encode rfl, fun s hs =>
    ⟨fun hunloaded => failsWith_of_raiseCmd (exec_xform_of_unloaded hs hunloaded),
      fun hmodev hskv => ⟨_, exec_xform_of_loaded hs hmodev hskv, onlyRegs_setChain_setBlk _ _ s, ?_⟩⟩⟩
  simp only [setChain_blk, setChain_chain, setBlk_blk]
  refine ⟨fun hm => ?_, fun hm hd => ?_, fun hm hd => ?_, fun hm hd => ?_, fun hm hd => ?_, fun hm => ?_⟩
  · rw [runXform_ecb hm]
    exact ⟨rfl, rfl⟩
  · rw [runXform_cbc_enc hm hd]
    exact ⟨rfl, rfl⟩
  · rw [runXform_cbc_dec hm hd]
    exact ⟨rfl, rfl⟩
  · rw [runXform_cfb_enc hm hd]
    exact ⟨rfl, rfl⟩
  · rw [runXform_cfb_dec hm hd]
    exact ⟨rfl, rfl⟩
  · rw [runXform_ofb hm]
    exact ⟨rfl, rfl⟩

end Sys2Proof.Machine
end

section
/-! The stream codec (45 R231 to R252): what CSTART on a ready machine and a turn of the sequencer answer, case by case, and the
frames of the updates they are made of. -/

namespace Sys2Proof.Machine

/-! ## Frames -/

/-- The written sets of two updates in a row add up. -/
theorem sameRegs_or {w v : RegAddr → Bool} {s t u : State} (h : SameRegs w s t) (h' : SameRegs v t u) :
    SameRegs (fun a => w a || v a) s u := by
  intro a ha
  obtain ⟨hw, hv⟩ := Bool.or_eq_false_iff.1 ha
  exact (h' a hv).trans (h a hw)

/-- An address outside the registers an outcome writes is none of the four (60 R304). -/
theorem outcomeRegs_false {a : RegAddr} (h : outcomeRegs a = false) :
    a.toNat ≠ 0x0D ∧ a.toNat ≠ 0x0E ∧ a.toNat ≠ 0x34 ∧ a.toNat ≠ 0x35 := by
  simp only [outcomeRegs, Bool.or_eq_false_iff] at h
  obtain ⟨⟨⟨hcph, hcres⟩, hevt⟩, hevtseq⟩ := h
  exact ⟨oneReg_false hcph, oneReg_false hcres, oneReg_false hevt, oneReg_false hevtseq⟩

/-- The end of a run posts CPH, CRES and one event, whatever the outcome, and nothing else (45 R243, R257, 60 R304). -/
theorem onlyRegs_outcome (e : Event) (p : Phase) (c : ErrorCode) (s : State) :
    OnlyRegs outcomeRegs s (emit e { s with cph := p, cres := c }) := by
  refine onlyRegs_of (fun a ha => ?_) rfl rfl rfl rfl rfl rfl rfl rfl rfl
  obtain ⟨hcph, hcres, hevt, hevtseq⟩ := outcomeRegs_false ha
  apply readReg_congr (cph := (absurd · hcph)) (cres := (absurd · hcres)) (evt := (absurd · hevt))
    (evtseq := (absurd · hevtseq)) <;> intros <;> rfl

theorem onlyRegs_codecFail (c : ErrorCode) (s : State) : OnlyRegs outcomeRegs s (codecFail c s) :=
  onlyRegs_outcome .failed .failed c s

theorem onlyRegs_cancelStep (s : State) : OnlyRegs outcomeRegs s (cancelStep s) :=
  onlyRegs_outcome .cancelled .cancelled .cancelled s

/-- A failed primitive takes an answer and leaves OUTF free, but of the registers only the outcome's change (20 R87). -/
theorem sameRegs_ioFailure (s : State) : SameRegs outcomeRegs s (codecFail .ioFailure (loseOutput (afterIo s))) :=
  (onlyRegs_codecFail .ioFailure (loseOutput (afterIo s))).1

/-- A success writes ELAPSED beside the registers of every outcome (45 R252). -/
theorem sameRegs_succeed (s : State) :
    SameRegs (fun a => outcomeRegs a || (0x30 ≤ a.toNat && a.toNat < 0x34)) s (succeed s) := by
  intro a ha
  obtain ⟨hout, helapsed⟩ := Bool.or_eq_false_iff.1 ha
  obtain ⟨hcph, hcres, hevt, hevtseq⟩ := outcomeRegs_false hout
  have hnotElapsed : 0x30 ≤ a.toNat → ¬ a.toNat < 0x34 := by simpa using helapsed
  apply readReg_congr (cph := (absurd · hcph)) (cres := (absurd · hcres)) (evt := (absurd · hevt))
    (evtseq := (absurd · hevtseq)) (elapsed := fun h h' => absurd h' (hnotElapsed h)) <;> intros <;> rfl

/-- The count of the suffix block writes OUT_POS and FINAL_SIZE (45 R248). -/
theorem sameRegs_countSuffix (s : State) :
    SameRegs (fun a => 0x28 ≤ a.toNat && a.toNat < 0x30) s (countSuffix s) := by
  intro a ha
  have hnot : 0x28 ≤ a.toNat → ¬ a.toNat < 0x30 := by simpa using ha
  apply readReg_congr (outPos := fun h h' => absurd (by omega) (hnot h))
    (finalSize := fun h h' => absurd h' (hnot (by omega))) <;> intros <;> rfl

/-- A run's frame: it is enough that the registers no run ever writes keep their values (45 R232, 10 R31). -/
theorem sameRegs_runRegs {s t : State} (key : t.key = s.key) (keyv : t.keyv = s.keyv) (kdidx : t.kdidx = s.kdidx)
    (acc : t.acc = s.acc) (cmderr : t.cmderr = s.cmderr) (blk : t.blk = s.blk) : SameRegs runRegs s t := by
  intro a ha
  simp only [runRegs, chainRegs, skRegs, Bool.or_eq_false_iff, Bool.and_eq_false_iff, decide_eq_false_iff_not] at ha
  obtain ⟨⟨⟨⟨⟨⟨hcfg, hcph⟩, hcres⟩, hcflags⟩, hchain⟩, hlengths⟩, hsk⟩ := ha
  replace hcfg := oneReg_false hcfg
  replace hcph := oneReg_false hcph
  replace hcres := oneReg_false hcres
  replace hcflags := oneReg_false hcflags
  apply readReg_congr (key := fun _ => key) (keyv := fun _ => keyv) (kdidx := fun _ => kdidx) (acc := fun _ => acc)
    (cmderr := fun _ => cmderr) (blk := fun _ _ => blk) (cfg := (absurd · hcfg)) (cph := (absurd · hcph))
    (cres := (absurd · hcres)) (cflags := (absurd · hcflags)) <;> intros <;> exfalso <;> omega

/-! ## A turn of the sequencer during a run -/

theorem runSequencer_of_running {s : State} (hrun : s.cph = .running) : runSequencer s = seqStep s :=
  if_pos ((busy_iff s).2 hrun)

theorem runSequencer_cancel {s : State} (hrun : s.cph = .running) (hcancel : s.cflags.cancelReq = true) :
    runSequencer s = .next (cancelStep s) := by
  rw [runSequencer_of_running hrun, seqStep, if_pos hcancel]

theorem runSequencer_suffixEnc {s : State} (hrun : s.cph = .running) (hcancel : s.cflags.cancelReq = false)
    (hdone : s.dataLen.toNat ≤ s.doneBytes.toNat) (henc : s.cflags.cdir = .enc) :
    runSequencer s = suffixStepEnc s := by
  rw [runSequencer_of_running hrun, seqStep, hcancel, if_neg Bool.false_ne_true, if_neg (by omega), if_pos henc]

/-! ## CSTART (45 R231 to R237) -/

theorem openFiles_of_success {s : State} (hbound : s.bound = true) (hlimit : s.inf.length < 2 ^ 63)
    (hio : ioAnswer s = true) (k : State → Result) : openFiles s k = k (opened (afterIo s)) := by
  rw [openFiles, if_neg (by simp [hbound]), if_pos (show s.inf.length < Config.fileLimit from hlimit), if_pos hio]

theorem encode_cstart (d : Dir) (m : Mode) : encode (.cstart d m) = dirModeWord 0x50000000 d m :=
  layFields_dir_mode 0x50 d m

/-- The lengths of an encryption and its start, as `setLengths` makes them (45 R235, R237). -/
abbrev startedEnc (s : State) : State :=
  startRun (setDataLen s.inLen (BitVec.ofNat 64 (roundup8 s.inLen.toNat)) s)

/-- CSTART on a ready machine with the files open and a complete key constructs the mode and comes to the lengths. -/
theorem exec_cstart_of_open (d : Dir) (m : Mode) {s : State} (hs : s.cph ≠ .running) (hbound : s.bound = true)
    (hlimit : s.inf.length < 2 ^ 63) (hio : ioAnswer s = true) (hkey : s.keyv = 0xFF) :
    exec (.cstart d m) s = setLengths d (loadMode d m (opened (afterIo (clearRun d m s)))) := by
  have hcomplete : (opened (afterIo (clearRun d m s))).keyComplete = true := (keyComplete_iff _).2 hkey
  show execCstart d m s = _
  rw [execCstart, whenReady_of_ready s _ hs, openFiles_of_success (s := clearRun d m s) hbound hlimit hio, if_pos hcomplete]

/-- When encrypting, no check stands between the mode's construction and the start (45 R235, R237). -/
theorem exec_cstart_enc_of_open (m : Mode) {s : State} (hs : s.cph ≠ .running) (hbound : s.bound = true)
    (hlimit : s.inf.length < 2 ^ 63) (hio : ioAnswer s = true) (hkey : s.keyv = 0xFF) :
    exec (.cstart .enc m) s = .next (startedEnc (loadMode .enc m (opened (afterIo (clearRun .enc m s))))) :=
  exec_cstart_of_open .enc m hs hbound hlimit hio hkey

/-- Every mode encrypts with the encryption schedule (44 R200). -/
theorem scheduleDir_enc (m : Mode) : scheduleDir .enc m = .enc := by cases m <;> rfl

/-- A number that fits a length register is held whole (00 R9). -/
theorem Len.toNat_ofNat {n : Nat} (h : n < 2 ^ 64) : (BitVec.ofNat 64 n).toNat = n :=
  (BitVec.toNat_ofNat n 64).trans (Nat.mod_eq_of_lt h)

/-- The length of a file below the limit, rounded up to a block, fits a length register too (00 R9, R10). -/
theorem roundup8_lt {n : Nat} (h : n < 2 ^ 63) : roundup8 n < 2 ^ 64 := by
  unfold roundup8
  omega

/-! ## The statements -/

/-- Settles O47: of the step's three outcomes the length and the oracle's answer choose one, and the premises of the other two
clauses are then false. -/
theorem encryptSuffixStep : Obligations.EncryptSuffixStep := by
  intro s hrun hcancel hdone henc
  rw [runSequencer_suffixEnc hrun hcancel hdone henc]
  have hchain := (onlyRegs_setChain (runXform (packLen s.inLen.toNat) s).2 s).1
  obtain ⟨hlong, e⟩ | ⟨hfits, hio, e⟩ | ⟨hfits, hio, e⟩ := suffixStepEnc_cases s
  · have hnotFits : ¬ s.inLen.toNat ≤ 2 ^ 45 - 1 := Nat.not_le.2 hlong
    exact ⟨fun _ => ⟨_, e, rfl, rfl, rfl, rfl, onlyRegs_codecFail .fileTooLarge s⟩, (absurd · hnotFits),
      (absurd · hnotFits)⟩
  · refine ⟨(absurd hfits <| Nat.not_le.2 ·), fun _ _ => ⟨_, e, rfl, rfl, rfl, rfl, ?_, rfl, rfl, rfl, rfl, ?_⟩,
      fun _ hfail => absurd (hio.symm.trans hfail) nofun⟩
    · exact Memory.bytes_append s.outf (runXform (packLen s.inLen.toNat) s).1.toList
    · refine sameRegs_mono (sameRegs_or hchain (sameRegs_or (sameRegs_countSuffix _) (sameRegs_succeed _))) fun a ha => ?_
      simp only [outcomeRegs, Bool.or_eq_false_iff, Bool.and_eq_false_iff, decide_eq_false_iff_not] at ha ⊢
      obtain ⟨⟨⟨⟨⟨hnotChain, hnotSizes⟩, hcph⟩, hcres⟩, hevt⟩, hevtseq⟩ := ha
      exact ⟨hnotChain, by omega, ⟨⟨⟨hcph, hcres⟩, hevt⟩, hevtseq⟩, by omega⟩
  · refine ⟨(absurd hfits <| Nat.not_le.2 ·), fun _ hok => absurd (hio.symm.trans hok) Bool.false_ne_true,
      fun _ _ => ⟨_, e, rfl, rfl, rfl, rfl, rfl, rfl, ?_⟩⟩
    refine sameRegs_mono (sameRegs_or hchain (sameRegs_ioFailure _)) fun a ha => ?_
    simpa only [outcomeRegs, Bool.or_assoc] using ha

/-- Settles O41: CSTART ENC comes to the lengths, which it sets from INF's own; every other field is read off the updates. -/
theorem cstartEncryptStartsRun : Obligations.CstartEncryptStartsRun := by
  refine fun m => ⟨encode_cstart .enc m ▸ encodedAs_encode rfl, fun s hs hbound hlimit hio hkey =>
    ⟨_, exec_cstart_enc_of_open m hs hbound hlimit hio hkey, ?_⟩⟩
  have hdir := scheduleDir_enc m
  have hsk := modeSchedule_of_enc hdir s.key
  have hinLen : (BitVec.ofNat 64 s.inf.length).toNat = s.inf.length := Len.toNat_ofNat (by omega)
  have houtLen : (BitVec.ofNat 64 (roundup8 s.inf.length)).toNat = 8 * ((s.inf.length + 7) / 8) :=
    Len.toNat_ofNat (roundup8_lt hlimit)
  have hempty (a : Nat) : Memory.read [] a = none := rfl
  have hframe : SameRegs runRegs s (startedEnc (loadMode .enc m (opened (afterIo (clearRun .enc m s))))) := by
    apply sameRegs_runRegs <;> simp
  simp [-BitVec.toNat_ofNat, hbound, hdir, hsk, hinLen, houtLen, hempty, hframe]

/-- Settles O44: the request is seen before any other work, and the step that ends the run writes the outcome alone. -/
theorem cancelStepEndsRun : Obligations.CancelStepEndsRun :=
  fun s hrun hcancel => ⟨_, runSequencer_cancel hrun hcancel, rfl, rfl, rfl, rfl, onlyRegs_cancelStep s⟩

end Sys2Proof.Machine
end

section
/-! The control commands that are accepted in every phase (46 R280, R282, R283): what ERRCLR and CANCEL answer, and the frames
of their one write each. -/

namespace Sys2Proof.Machine

theorem exec_errclr (s : State) : exec .errclr s = .next (setCmderr .none s) := rfl

theorem exec_cancel_of_running {s : State} (h : s.cph = .running) : exec .cancel s = .next (requestCancel s) := by
  show execCancel s = _
  rw [execCancel, if_pos ((busy_iff s).2 h)]

theorem exec_cancel_of_not_running {s : State} (h : s.cph ≠ .running) : exec .cancel s = .next s := by
  show execCancel s = _
  rw [execCancel, if_neg (mt (busy_iff s).1 h)]

/-- A write to CMDERR reaches one address of the register space (10 R27). -/
theorem onlyRegs_setCmderr (c : ErrorCode) (s : State) : OnlyRegs (oneReg 0x0C) s (setCmderr c s) := by
  refine onlyRegs_of (fun a ha => ?_) rfl rfl rfl rfl rfl rfl rfl rfl rfl
  apply readReg_congr (cmderr := (absurd · (oneReg_false ha))) <;> intros <;> rfl

/-- A cancel request reaches one address of the register space (10 R30). -/
theorem onlyRegs_requestCancel (s : State) : OnlyRegs (oneReg 0x0F) s (requestCancel s) := by
  refine onlyRegs_of (fun a ha => ?_) rfl rfl rfl rfl rfl rfl rfl rfl rfl
  apply readReg_congr (cflags := (absurd · (oneReg_false ha))) <;> intros <;> rfl

/-- Settles O10: ERRCLR is the one write to CMDERR, CANCEL the one write to CFLAGS when the phase is RUNNING, and NOP none. -/
theorem nopErrclrCancelComplete : Obligations.NopErrclrCancelComplete :=
  ⟨encodedAs_encode rfl, encodedAs_encode rfl, encodedAs_encode rfl, fun s =>
    ⟨rfl, ⟨_, exec_errclr s, rfl, onlyRegs_setCmderr .none s⟩,
      fun hrun => ⟨_, exec_cancel_of_running hrun, rfl, rfl, rfl, onlyRegs_requestCancel s⟩, exec_cancel_of_not_running⟩⟩

end Sys2Proof.Machine
end

section
/-! The Busy check (60 R303): a command during a run raises Busy, before its own check, unless it is one of the four control
commands. -/

namespace Sys2Proof.Machine

/-- The one command with a check ahead of the Busy check: a well-formed BLKLDW passes it (30 R99, 60 R307). -/
theorem exec_blkldw_of_running {i : BitVec 3} (hi : i.toNat < 4) (v : Word) {s : State} (hrun : s.cph = .running) :
    exec (.blkldw i v) s = .next (raiseCmd .busy s) := by
  show execBlkldw i v s = _
  rw [execBlkldw, dif_pos hi, whenReady_of_running s _ hrun]

/-- Every command but the four control commands stands behind the Busy check (60 R303). -/
theorem exec_of_running {i : Instr} {s : State} (hrun : s.cph = .running) (hwf : i.wellFormed = true)
    (hnop : i ≠ .nop) (hreset : i ≠ .reset) (herrclr : i ≠ .errclr) (hcancel : i ≠ .cancel) :
    exec i s = .next (raiseCmd .busy s) := by
  cases i with
  | nop => exact absurd rfl hnop
  | reset => exact absurd rfl hreset
  | errclr => exact absurd rfl herrclr
  | cancel => exact absurd rfl hcancel
  | blkldw i v => exact exec_blkldw_of_running (of_decide_eq_true hwf) v hrun
  | kdclr | kdbyte | keyldw | schedgen | schedinv | crypt | modeinit | xform | accld | muli | addi | mulinv | addinv
  | cstart =>
    rw [exec]
    exact whenReady_of_running s _ hrun

/-- Settles O9: the Busy check raises Busy and stops, and a raised error reaches CMDERR alone. -/
theorem busyCommandsOnlySetCmderr : Obligations.BusyCommandsOnlySetCmderr :=
  fun _ _ hrun hwf hnop hreset herrclr hcancel =>
    failsWith_of_raiseCmd (exec_of_running hrun hwf hnop hreset herrclr hcancel)

end Sys2Proof.Machine
end

section
/-! The block transform reversed (43 R172 to R179). A round is a key mixing, the MA structure and an exchange of the two middle
words; the MA structure and the exchange are involutions, and each key mixing is undone by the inverted schedule's, so that
decryption walks the rounds of encryption backwards. -/

namespace Sys2Proof.Machine

/-! ## The parts of a round (43 R176) -/

/-- The key mixing of a round, and of the output transform. -/
def mixKeys (z1 z2 z3 z4 : Word) (x : Quad) : Quad :=
  { x1 := mul x.x1 z1, x2 := add x.x2 z2, x3 := add x.x3 z3, x4 := mul x.x4 z4 }

/-- The MA structure with its recombination, the middle words in place. -/
def mixMA (z5 z6 : Word) (y : Quad) : Quad :=
  let y7 := mul (y.x1 ^^^ y.x3) z5
  let y9 := mul (add (y.x2 ^^^ y.x4) y7) z6
  let y10 := add y7 y9
  { x1 := y.x1 ^^^ y9, x2 := y.x2 ^^^ y10, x3 := y.x3 ^^^ y9, x4 := y.x4 ^^^ y10 }

/-- The exchange of the two middle words. -/
def swapMiddle (x : Quad) : Quad := { x with x2 := x.x3, x3 := x.x2 }

/-- The words of a quad as a block (43 R175). -/
def Quad.toBlock (x : Quad) : Block := Block.ofWords x.x1 x.x2 x.x3 x.x4

@[simp] theorem Quad.ofBlock_toBlock (x : Quad) : Quad.ofBlock x.toBlock = x := Quad.ofBlock_ofWords _ _ _ _

@[simp] theorem Quad.toBlock_ofBlock (b : Block) : (Quad.ofBlock b).toBlock = b := Block.ofWords_words b

@[simp] theorem swapMiddle_swapMiddle (x : Quad) : swapMiddle (swapMiddle x) = x := rfl

/-- A term that is in both sides of an XOR cancels. -/
theorem xor_xor_xor_cancel {w : Nat} (a b c : BitVec w) : a ^^^ c ^^^ (b ^^^ c) = a ^^^ b := by
  rw [BitVec.xor_comm b c, BitVec.xor_assoc, ← BitVec.xor_assoc c, BitVec.xor_self, BitVec.zero_xor]

/-- The MA structure reads only `x1 ^ x3` and `x2 ^ x4`, which it leaves. -/
@[simp] theorem mixMA_mixMA (z5 z6 : Word) (y : Quad) : mixMA z5 z6 (mixMA z5 z6 y) = y := by
  have back (a c : Word) : a ^^^ c ^^^ c = a := by rw [BitVec.xor_assoc, BitVec.xor_self, BitVec.xor_zero]
  simp only [mixMA, xor_xor_xor_cancel, back]

/-! ## The group laws the key mixing needs (42 R145) -/

theorem mul_assoc_word (a b c : Word) : mul (mul a b) c = mul a (mul b c) :=
  fieldElement_injective (by simp only [fieldElement_mul, mul_assoc])

theorem mul_one_word (a : Word) : mul a 1 = a :=
  fieldElement_injective (by rw [fieldElement_mul, fieldElement_one, mul_one])

theorem mul_mul_mulInv (a k : Word) : mul (mul a k) (mulInv k) = a := by
  rw [mul_assoc_word, mul_mulInv, mul_one_word]

theorem add_comm_word (a b : Word) : add a b = add b a := by
  rw [add, add, Nat.add_comm]

theorem add_assoc_word (a b c : Word) : add (add a b) c = add a (add b c) := by
  apply BitVec.eq_of_toNat_eq
  simp only [add_toNat]
  omega

theorem add_zero_word (a : Word) : add a 0 = a := by
  apply BitVec.eq_of_toNat_eq
  have hlt : a.toNat < 65536 := a.isLt
  have hzero : (0 : Word).toNat = 0 := rfl
  rw [add_toNat, hzero]
  omega

theorem add_add_addInv (a k : Word) : add (add a k) (addInv k) = a := by
  rw [add_assoc_word, add_addInv, add_zero_word]

/-! ## The parts under a schedule -/

/-- The key mixing of round group r, r = 9 being the output transform (43 R172). -/
def mixGroup (z : Schedule) (r : Nat) : Quad → Quad := mixKeys (subkey z r 1) (subkey z r 2) (subkey z r 3) (subkey z r 4)

/-- The MA structure of round r. -/
def mixMAGroup (z : Schedule) (r : Nat) : Quad → Quad := mixMA (subkey z r 5) (subkey z r 6)

/-- The words after the first `n` rounds. -/
def afterRounds (z : Schedule) (x : Quad) : Nat → Quad
  | 0 => x
  | n + 1 => swapMiddle (mixMAGroup z (n + 1) (mixGroup z (n + 1) (afterRounds z x n)))

theorem scheduledRound_eq (z : Schedule) (x : Quad) (r : Fin 8) :
    scheduledRound z x r = swapMiddle (mixMAGroup z (r.val + 1) (mixGroup z (r.val + 1) x)) := by
  have := r.isLt
  simp only [mixMAGroup, mixGroup, subkey_eq_getElem z (r := r.val + 1) (j := 1) (by omega),
    subkey_eq_getElem z (r := r.val + 1) (j := 2) (by omega), subkey_eq_getElem z (r := r.val + 1) (j := 3) (by omega),
    subkey_eq_getElem z (r := r.val + 1) (j := 4) (by omega), subkey_eq_getElem z (r := r.val + 1) (j := 5) (by omega),
    subkey_eq_getElem z (r := r.val + 1) (j := 6) (by omega)]
  rfl

theorem eightRounds_eq (z : Schedule) (x : Quad) : eightRounds z x = afterRounds z x 8 := by
  simp only [eightRounds, List.foldl_cons, List.foldl_nil, scheduledRound_eq]
  rfl

/-- The output transform is a key mixing that takes x3 before x2 (43 R178). -/
theorem outputTransform_eq (z : Schedule) (x : Quad) : outputTransform z x = (mixGroup z 9 (swapMiddle x)).toBlock := by
  simp only [mixGroup, subkey_eq_getElem z (r := 9) (j := 1) (by omega), subkey_eq_getElem z (r := 9) (j := 2) (by omega),
    subkey_eq_getElem z (r := 9) (j := 3) (by omega), subkey_eq_getElem z (r := 9) (j := 4) (by omega)]
  rfl

theorem cryptBlock_eq (b : Block) (z : Schedule) :
    cryptBlock b z = (mixGroup z 9 (swapMiddle (afterRounds z (Quad.ofBlock b) 8))).toBlock := by
  rw [cryptBlock, outputTransform_eq, eightRounds_eq]

/-! ## Decryption walks the rounds backwards (43 R179) -/

/-- The first round and the output transform of the inverted schedule undo the other's key mixing. -/
theorem mixGroup_invertSchedule_outer (z : Schedule) {r : Nat} (hr : r = 1 ∨ r = 9) (x : Quad) :
    mixGroup (invertSchedule z) r (mixGroup z (10 - r) x) = x := by
  simp only [mixGroup, mixKeys, subkey_invertSchedule_mul z (r := r) (by omega) (.inl rfl),
    subkey_invertSchedule_mul z (r := r) (by omega) (.inr rfl), subkey_invertSchedule_add_outer z hr (.inl rfl),
    subkey_invertSchedule_add_outer z hr (.inr rfl), mul_mul_mulInv, add_add_addInv]

/-- In rounds 2 to 8 the additive subkeys change places, so that the mixing is undone across the exchange. -/
theorem mixGroup_invertSchedule_inner (z : Schedule) {r : Nat} (hr : 2 ≤ r ∧ r ≤ 8) (x : Quad) :
    mixGroup (invertSchedule z) r (swapMiddle (mixGroup z (10 - r) x)) = swapMiddle x := by
  simp only [mixGroup, mixKeys, swapMiddle, subkey_invertSchedule_mul z (r := r) (by omega) (.inl rfl),
    subkey_invertSchedule_mul z (r := r) (by omega) (.inr rfl), subkey_invertSchedule_add_inner z hr (.inl rfl),
    subkey_invertSchedule_add_inner z hr (.inr rfl), mul_mul_mulInv, add_add_addInv]

theorem mixMAGroup_invertSchedule (z : Schedule) {r : Nat} (hr : 1 ≤ r ∧ r ≤ 8) :
    mixMAGroup (invertSchedule z) r = mixMAGroup z (9 - r) := by
  rw [mixMAGroup, mixMAGroup, subkey_invertSchedule_ma z hr (.inl rfl), subkey_invertSchedule_ma z hr (.inr rfl)]

@[simp] theorem mixMAGroup_mixMAGroup (z : Schedule) (r : Nat) (x : Quad) :
    mixMAGroup z r (mixMAGroup z r x) = x := mixMA_mixMA _ _ x

/-- After r + 1 rounds of decryption stand the words encryption had in the middle of round 8 - r, exchanged. -/
theorem afterRounds_invertSchedule (z : Schedule) (x : Quad) (r : Nat) (hr : r ≤ 7) :
    afterRounds (invertSchedule z) (mixGroup z 9 (swapMiddle (afterRounds z x 8))) (r + 1) =
      swapMiddle (mixGroup z (8 - r) (afterRounds z x (7 - r))) := by
  induction r with
  | zero =>
    have houter := mixGroup_invertSchedule_outer z (r := 1) (.inl rfl)
    rw [afterRounds, afterRounds, houter, mixMAGroup_invertSchedule z (by omega)]
    simp [afterRounds]
  | succ r ih =>
    have hinner := mixGroup_invertSchedule_inner z (r := r + 1 + 1) (by omega) (afterRounds z x (7 - r))
    have hround : 10 - (r + 1 + 1) = 8 - r := by omega
    have hprev : 7 - r = 7 - (r + 1) + 1 := by omega
    have hma : 9 - (r + 1 + 1) = 7 - (r + 1) + 1 := by omega
    have hmix : 8 - (r + 1) = 7 - (r + 1) + 1 := by omega
    rw [hround] at hinner
    rw [afterRounds, ih (by omega), hinner, mixMAGroup_invertSchedule z (by omega), hprev, afterRounds, hma, hmix]
    simp

theorem cryptBlock_invertSchedule (b : Block) (z : Schedule) : cryptBlock (cryptBlock b z) (invertSchedule z) = b := by
  have hrounds := afterRounds_invertSchedule z (Quad.ofBlock b) 7 (by omega)
  rw [cryptBlock_eq, cryptBlock_eq b z, Quad.ofBlock_toBlock, hrounds, swapMiddle_swapMiddle]
  have houter := mixGroup_invertSchedule_outer z (r := 9) (.inr rfl)
  simp [houter, afterRounds]

/-- The other order: the inversion of the inversion is the schedule itself (43 R174). -/
theorem cryptBlock_of_invertSchedule (b : Block) (z : Schedule) : cryptBlock (cryptBlock b (invertSchedule z)) z = b := by
  have h := cryptBlock_invertSchedule b (invertSchedule z)
  rwa [invertSchedule_invertSchedule] at h

/-- Settles O34: decryption walks the rounds of encryption backwards, and the two orders make the transform a bijection. -/
theorem cryptBlockInvolution : Obligations.CryptBlockInvolution := fun z =>
  ⟨fun b => ⟨cryptBlock_invertSchedule b z, cryptBlock_of_invertSchedule b z⟩,
    Function.bijective_iff_has_inverse.2
      ⟨fun b => cryptBlock b (invertSchedule z), fun b => cryptBlock_invertSchedule b z,
        fun b => cryptBlock_of_invertSchedule b z⟩⟩

/-- Settles O33: the lemma about the inverted schedule's subkeys, stated for the schedule. -/
theorem invertScheduleTwiceIsIdentity : Obligations.InvertScheduleTwiceIsIdentity := invertSchedule_invertSchedule

/-- Settles O24: multiplication through the field of 65537, addition through the numbers modulo 65536. -/
theorem arithmeticLaws : Obligations.ArithmeticLaws := by
  refine ⟨mul_comm_word, mul_assoc_word, mul_one_word, fun k => ?_, mulInv_mulInv, add_comm_word, add_assoc_word,
    add_zero_word, add_addInv, addInv_addInv⟩
  refine Function.bijective_iff_has_inverse.2 ⟨fun x => mul x (mulInv k), fun x => mul_mul_mulInv x k, fun x => ?_⟩
  have h := mul_mul_mulInv x (mulInv k)
  rwa [mulInv_mulInv] at h

end Sys2Proof.Machine
end

section
/-! Streams through a mode (44 R211, R212): decryption gives the blocks back and leaves the same CHAIN, and OFB's feedback does
not depend on the data. -/

namespace Sys2Proof.Machine

/-- One block there and back, in the four modes: the output comes back to the input, and both directions leave the same CHAIN. -/
theorem modeXform_dec_enc (m : Mode) (k : Key) (chain b : Block) :
    modeXform m .dec (modeSchedule .dec m k) chain (modeXform m .enc (modeSchedule .enc m k) chain b).1 =
      (b, (modeXform m .enc (modeSchedule .enc m k) chain b).2) := by
  cases m with
  | ecb =>
    show (cryptBlock (cryptBlock b (genSchedule k)) (invertSchedule (genSchedule k)), chain) = (b, chain)
    rw [cryptBlock_invertSchedule]
  | cbc =>
    show (Block.xor (cryptBlock (cryptBlock (Block.xor b chain) (genSchedule k)) (invertSchedule (genSchedule k))) chain, _) =
      (b, cryptBlock (Block.xor b chain) (genSchedule k))
    rw [cryptBlock_invertSchedule, Block.xor_xor_self]
    rfl
  | cfb | ofb => exact Prod.ext (Block.xor_xor_self b _) rfl

/-- A stream there and back, from any CHAIN the two directions share (44 R212). -/
theorem transformBlocks_dec_enc (m : Mode) (k : Key) (chain : Block) (blocks : List Block) :
    (transformBlocks m .dec (modeSchedule .dec m k) chain
      (transformBlocks m .enc (modeSchedule .enc m k) chain blocks).1).1 = blocks := by
  induction blocks generalizing chain with
  | nil => rfl
  | cons b bs ih => simp only [transformBlocks, modeXform_dec_enc, ih]

/-- Settles O37: each block comes back, and both directions hand the same CHAIN to the next. -/
theorem modeRoundTrip : Obligations.ModeRoundTrip := fun m k blocks => transformBlocks_dec_enc m k (ivOf k) blocks

/-- The keystream block cancels from two outputs (44 R209). -/
theorem Block.xor_xor_xor (a b k : Block) : Block.xor (Block.xor a k) (Block.xor b k) = Block.xor a b := by
  apply Vector.ext
  intro i hi
  simp only [Block.xor_getElem, xor_xor_xor_cancel]

theorem transformBlocks_ofb_cons (d : Dir) (sk : Schedule) (chain b : Block) (bs : List Block) :
    transformBlocks .ofb d sk chain (b :: bs) =
      (Block.xor b (cryptBlock chain sk) :: (transformBlocks .ofb d sk (cryptBlock chain sk) bs).1,
        (transformBlocks .ofb d sk (cryptBlock chain sk) bs).2) := by
  rw [transformBlocks, modeXform]

/-- Settles O38: the two streams are XORed with the same keystream, block by block. -/
theorem ofbKeystreamIndependence : Obligations.OfbKeystreamIndependence := by
  intro d d' sk chain p
  induction p generalizing chain with
  | nil =>
    intro q hlen
    obtain rfl : q = [] := List.length_eq_zero_iff.1 hlen.symm
    exact ⟨rfl, rfl⟩
  | cons a as ih =>
    intro q hlen
    cases q with
    | nil => exact absurd hlen (Nat.succ_ne_zero _)
    | cons b bs =>
      obtain ⟨hout, hchain⟩ := ih (cryptBlock chain sk) bs (Nat.succ_injective hlen)
      rw [transformBlocks_ofb_cons, transformBlocks_ofb_cons, List.zipWith_cons_cons, hout, Block.xor_xor_xor]
      exact ⟨rfl, hchain⟩

end Sys2Proof.Machine
end

section
/-! The length suffix (45 R240, R241): `be64` and its inverse, the bytes that must be 0 as bounds on the number, and packing
there and back. -/

namespace Sys2Proof.Machine

/-! ## The 64-bit number of a block (00 R11) -/

theorem toNat_append_eq_add {n m : Nat} (x : BitVec n) (y : BitVec m) : (x ++ y).toNat = x.toNat * 2 ^ m + y.toNat := by
  rw [BitVec.toNat_append, ← Nat.shiftLeft_add_eq_or_of_lt y.isLt, Nat.shiftLeft_eq]

/-- The number of a block, byte 0 weighing most. -/
theorem be64_toNat (b : Block) : (Block.be64 b).toNat =
    b[0].toNat * 2 ^ 56 + (b[1].toNat * 2 ^ 48 + (b[2].toNat * 2 ^ 40 + (b[3].toNat * 2 ^ 32 + (b[4].toNat * 2 ^ 24 +
      (b[5].toNat * 2 ^ 16 + (b[6].toNat * 2 ^ 8 + b[7].toNat)))))) := by
  simp only [Block.be64, toNat_append_eq_add]

theorem ofBe64_getElem_toNat (v : BitVec 64) (i : Nat) (h : i < 8) :
    (Block.ofBe64 v)[i].toNat = v.toNat / 2 ^ (56 - 8 * i) % 256 := by
  interval_cases i <;> simp [Block.ofBe64, Nat.shiftRight_eq_div_pow]

theorem be64_ofBe64 (v : BitVec 64) : Block.be64 (Block.ofBe64 v) = v := by
  apply BitVec.eq_of_toNat_eq
  have hv := v.isLt
  have byteShift (k : Nat) : v.toNat / 2 ^ (k + 8) = v.toNat / 2 ^ k / 256 := by
    rw [Nat.pow_add, Nat.div_div_eq_div_mul]
  have h8 := byteShift 0
  have h16 := byteShift 8
  have h24 := byteShift 16
  have h32 := byteShift 24
  have h40 := byteShift 32
  have h48 := byteShift 40
  have h56 := byteShift 48
  simp only [be64_toNat, ofBe64_getElem_toNat]
  generalize v.toNat = n at *
  simp only [Nat.reduceAdd, Nat.reduceMul, Nat.reduceSub] at *
  omega

theorem ofBe64_be64 (b : Block) : Block.ofBe64 (Block.be64 b) = b := by
  apply Vector.ext
  intro i hi
  apply BitVec.eq_of_toNat_eq
  have byte (j : Nat) (hj : j < 8) : b[j].toNat < 256 := b[j].isLt
  have h0 := byte 0 (by decide)
  have h1 := byte 1 (by decide)
  have h2 := byte 2 (by decide)
  have h3 := byte 3 (by decide)
  have h4 := byte 4 (by decide)
  have h5 := byte 5 (by decide)
  have h6 := byte 6 (by decide)
  have h7 := byte 7 (by decide)
  rw [ofBe64_getElem_toNat, be64_toNat]
  interval_cases i <;> omega

/-- The bytes 45 R241 checks are 0 exactly when the number is below 2^48 and a multiple of 8. -/
theorem suffix_zero_bits_iff (b : Block) :
    (b[0] ≠ 0 ∨ b[1] ≠ 0 ∨ b[7] &&& 0x07 ≠ 0) ↔ ¬ ((Block.be64 b).toNat < 2 ^ 48 ∧ (Block.be64 b).toNat % 8 = 0) := by
  have hlow : (b[7] &&& 0x07).toNat = b[7].toNat % 8 := Nat.and_two_pow_sub_one_eq_mod b[7].toNat 3
  have byte (j : Nat) (hj : j < 8) : b[j].toNat < 256 := b[j].isLt
  have h2 := byte 2 (by decide)
  have h3 := byte 3 (by decide)
  have h4 := byte 4 (by decide)
  have h5 := byte 5 (by decide)
  have h6 := byte 6 (by decide)
  have h7 := byte 7 (by decide)
  have zero : (0 : Byte).toNat = 0 := rfl
  simp only [ne_eq, ← BitVec.toNat_inj, hlow, be64_toNat, zero]
  omega

/-! ## Packing and unpacking -/

theorem unpackLen_eq_some_iff (b : Block) (n : Nat) :
    unpackLen b = some n ↔ (Block.be64 b).toNat = 8 * n ∧ n < 2 ^ 45 := by
  have hshift : (Block.be64 b >>> 3).toNat = (Block.be64 b).toNat / 8 := by
    rw [BitVec.toNat_ushiftRight, Nat.shiftRight_eq_div_pow]
  rw [unpackLen, if_congr (suffix_zero_bits_iff b) rfl rfl, hshift]
  by_cases h : (Block.be64 b).toNat < 2 ^ 48 ∧ (Block.be64 b).toNat % 8 = 0
  · rw [if_neg (not_not_intro h), Option.some_inj]
    omega
  · rw [if_pos h]
    simp only [reduceCtorEq, false_iff]
    omega

theorem be64_packLen {n : Nat} (h : n < 2 ^ 45) : (Block.be64 (packLen n)).toNat = 8 * n := by
  rw [packLen, be64_ofBe64, BitVec.toNat_shiftLeft, Len.toNat_ofNat (by omega), Nat.shiftLeft_eq]
  omega

theorem unpackLen_packLen {n : Nat} (h : n < 2 ^ 45) : unpackLen (packLen n) = some n :=
  (unpackLen_eq_some_iff _ _).2 ⟨be64_packLen h, h⟩

theorem packLen_of_unpackLen {b : Block} {n : Nat} (h : unpackLen b = some n) : packLen n = b := by
  obtain ⟨hnumber, hn⟩ := (unpackLen_eq_some_iff b n).1 h
  have hsame : Block.be64 (packLen n) = Block.be64 b :=
    BitVec.eq_of_toNat_eq ((be64_packLen hn).trans hnumber.symm)
  rw [← ofBe64_be64 b, ← hsame, ofBe64_be64]

/-- The window of 45 R250, over the natural numbers. -/
theorem lengthAccepted_iff (l d : Nat) : lengthAccepted l d = true ↔ l ≤ d ∧ d ≤ l + 7 := by
  rw [lengthAccepted, Bool.and_eq_true, decide_eq_true_iff, decide_eq_true_iff]
  omega

/-- Settles O40: a block unpacks exactly to the numbers below 2^45 that 8 times give its own number. -/
theorem packUnpackRoundTrip : Obligations.PackUnpackRoundTrip := by
  refine ⟨fun n hn => ⟨be64_packLen (by omega), unpackLen_packLen (by omega)⟩, fun b n h => ⟨?_, packLen_of_unpackLen h⟩,
    fun l d => ?_⟩
  · have := ((unpackLen_eq_some_iff b n).1 h).2
    omega
  · rw [lengthAccepted_iff]
    omega

/-! ## The file format there and back (45 R253, R262) -/

theorem roundup8_lt_add (n : Nat) : roundup8 n < n + 8 := by
  unfold roundup8
  omega

/-- Padding is undone by taking the first bytes (45 R250). -/
theorem take_padBlocks (p : List Byte) : (padBlocks p).take p.length = p := List.take_left

theorem bytesOf_blocksOf_padBlocks (p : List Byte) : bytesOf (blocksOf (padBlocks p)) = padBlocks p :=
  bytesOf_blocksOf _ _ (padBlocks_length p)

theorem cryptogram_length (m : Mode) (k : Key) (p : List Byte) : (cryptogram m k p).length = roundup8 p.length + 8 := by
  have hblocks := blocksOf_length _ _ (padBlocks_length p)
  rw [cryptogram, bytesOf_length, transformBlocks_length, List.length_append, hblocks]
  rfl

/-- Decryption of a cryptogram gives the padded data blocks and the packed length. -/
theorem decryptedBlocks_cryptogram (m : Mode) (k : Key) (p : List Byte) :
    decryptedBlocks m k (cryptogram m k p) = blocksOf (padBlocks p) ++ [packLen p.length] := by
  rw [decryptedBlocks, cryptogram, blocksOf_bytesOf, transformBlocks_dec_enc]

/-- Settles O58: the decrypted trailing block is the packed length, which lies in the window and cuts the padding off. -/
theorem cryptogramRoundTrip : Obligations.CryptogramRoundTrip := by
  intro m k p hp
  have hwindow : lengthAccepted p.length (roundup8 p.length + 8 - 8) = true := by
    have hle := le_roundup8 p.length
    have hlt := roundup8_lt_add p.length
    rw [lengthAccepted_iff]
    omega
  have hcut : (bytesOf (blocksOf (padBlocks p) ++ [packLen p.length])).take p.length = p := by
    rw [bytesOf_append, bytesOf_blocksOf_padBlocks, List.take_append_of_le_length, take_padBlocks]
    exact (padBlocks_length p).symm ▸ le_roundup8 p.length
  rw [plaintextOf, decryptedBlocks_cryptogram, List.getLastD_concat, unpackLen_packLen (by omega), cryptogram_length]
  show (if lengthAccepted p.length (roundup8 p.length + 8 - 8) = true then some (List.take p.length _) else none) = some p
  rw [if_pos hwindow, hcut]

end Sys2Proof.Machine
end

section
/-! The two directions of the encoding and the illegal words (30 R90 to R99, R104). -/

namespace Sys2Proof

/-- What a legal word decodes to is well-formed: the one operand with a must-be-zero bit is BLKLDW's IDX (30 R91, R99). -/
theorem wellFormed_assemble (r : Mnemonic) {w : CmdWord} (hzero : w &&& r.format.mustBeZero = 0) :
    (r.assemble w).wellFormed = true := by
  cases r with
  | blkldw =>
    have hbit : w.extractLsb' 18 1 = 0 := extractLsb'_eq_zero_of_and hzero rfl
    have htop : (idxField w).getLsbD 2 = (w.extractLsb' 18 1).getLsbD 0 := by simp [idxField]
    have hsmall : ∀ i : BitVec 3, i.getLsbD 2 = false → i.toNat < 4 := by decide
    rw [hbit] at htop
    exact decide_eq_true (hsmall _ htop)
  | nop | reset | errclr | cancel | kdclr | kdbyte | keyldw | schedgen | schedinv | crypt | modeinit | xform | accld | muli
  | addi | mulinv | addinv | cstart => rfl

theorem decode_eq_unassigned (w : CmdWord) : decode w = .error .unassignedOpcode ↔ rowOf (opcField w) = none := by
  unfold decode
  cases rowOf (opcField w) with
  | none => simp
  | some r =>
    simp only [reduceCtorEq, iff_false]
    split_ifs <;> nofun

theorem decode_eq_mustBeZeroBitSet (w : CmdWord) :
    decode w = .error .mustBeZeroBitSet ↔ ∃ r, rowOf (opcField w) = some r ∧ w &&& r.format.mustBeZero ≠ 0 := by
  unfold decode
  cases rowOf (opcField w) with
  | none => simp
  | some r => by_cases h : w &&& r.format.mustBeZero = 0 <;> simp [h]

/-- The OPCs that no row of the opcode map has (30 R99). -/
theorem rowOf_eq_none (o : BitVec 8) : rowOf o = none ↔
    (0x04 ≤ o.toNat ∧ o.toNat ≤ 0x0F) ∨ (0x13 ≤ o.toNat ∧ o.toNat ≤ 0x1F) ∨ (0x24 ≤ o.toNat ∧ o.toNat ≤ 0x2F) ∨
      (0x32 ≤ o.toNat ∧ o.toNat ≤ 0x3F) ∨ (0x45 ≤ o.toNat ∧ o.toNat ≤ 0x4F) ∨ 0x51 ≤ o.toNat := by
  revert o
  decide +kernel

end Sys2Proof

namespace Sys2Proof.Machine

/-- Settles O1: the encoder's word is the one word that decodes to the command. -/
theorem decodeOfEncode : Obligations.DecodeOfEncode := fun i hwf => (encodedAs_encode hwf (encode i)).2 rfl

/-- Settles O2: a legal word is the command assembled from it, encoded. -/
theorem encodeOfDecode : Obligations.EncodeOfDecode := by
  intro w i hdec
  obtain ⟨r, hopc, hzero, rfl⟩ := (decode_eq_ok w i).1 hdec
  exact ⟨encode_assemble r hopc hzero, wellFormed_assemble r hzero⟩

/-- Settles O4: the decoder's two refusals, one by the OPC alone and one by the row the OPC names. -/
theorem illegalWordsAreUnassignedOrReserved : Obligations.IllegalWordsAreUnassignedOrReserved := fun w =>
  ⟨(decode_eq_unassigned w).trans (rowOf_eq_none _), by simp only [decode_eq_mustBeZeroBitSet, rowOf_eq_some]⟩

/-- Settles O5: the decoder evaluated on the words of 30 R104. -/
theorem writtenWordsDecode : Obligations.WrittenWordsDecode := by
  unfold Obligations.WrittenWordsDecode
  decide

end Sys2Proof.Machine
end

section
/-! Derivation over a whole passphrase (41 R120 to R126): the fold of KDBYTE, and its halves folded together. -/

namespace Sys2Proof.Machine

/-! ## KDSTR (41 R123) -/

/-- The KDBYTEs of a passphrase fold it into KEY from KDIDX on, which stands at position `i` modulo 16 (41 R122). -/
theorem execAll_kdbytes (p : List Byte) (i : Nat) {s : State} (hs : s.cph ≠ .running) (hidx : s.kdidx = Fin.ofNat 16 i) :
    execAll (p.map .kdbyte) s = .next (setKey (deriveFrom i p s.key) s.keyv (Fin.ofNat 16 (i + p.length)) s) := by
  induction p generalizing i s with
  | nil =>
    show Host.Outcome.next s = .next (setKey s.key s.keyv (Fin.ofNat 16 i) s)
    rw [← hidx]
    rfl
  | cons b bs ih =>
    have hkey : s.key.set s.kdidx (s.key[s.kdidx] ^^^ b) =
        s.key.set (i % 16) (s.key[i % 16] ^^^ b) := by
      simp [hidx]
    have hnext : s.kdidx + 1 = Fin.ofNat 16 (i + 1) := by
      rw [hidx]
      ext
      simp [Fin.val_add]
    rw [List.map_cons, execAll, exec_kdbyte_of_ready b hs, hkey, hnext]
    refine (ih (i + 1) (s := setKey _ s.keyv (Fin.ofNat 16 (i + 1)) s) hs rfl).trans ?_
    rw [List.length_cons, Nat.add_right_comm i 1, Nat.add_assoc i]
    rfl

theorem key_zero_eq : Key.zero = Vector.replicate 16 0 := rfl

/-- Settles O19: KDCLR starts the fold at the zero key and position 0. -/
theorem kdstrDerivesKey : Obligations.KdstrDerivesKey := by
  intro p s hs
  have hrun := execAll_kdbytes p 0 (s := setKey Key.zero 0xFF 0 s) hs rfl
  refine ⟨setKey (derive 16 p) 0xFF (Fin.ofNat 16 p.length) s, ?_, rfl, rfl, rfl, ?_⟩
  · rw [kdstr, execAll, exec_kdclr_of_ready hs, andThen, hrun, derive, ← key_zero_eq, Nat.zero_add]
    rfl
  · apply onlyRegs_setKey
    · intro a h ha
      simp [keyRegs, h] at ha
    · intro h
      simp [oneReg] at h
    · intro h
      simp [oneReg] at h

/-! ## The IV (41 R126) -/

/-- One byte folded into the key is folded into the IV, at its position modulo 8. -/
theorem ivOf_set (k : Key) (i : Nat) (b : Byte) :
    ivOf (k.set (i % 16) (k[i % 16] ^^^ b)) = (ivOf k).set (i % 8) ((ivOf k)[i % 8] ^^^ b) := by
  apply Vector.ext
  intro j hj
  have hiv (k : Key) (j : Nat) (h : j < 8) : (ivOf k)[j] = k[j] ^^^ k[j + 8] := ivOf_getElem k ⟨j, h⟩
  simp only [hiv, Vector.getElem_set]
  by_cases hlow : i % 16 = j
  · have hiv8 : i % 8 = j := by omega
    simp [hlow, hiv8, BitVec.xor_assoc, BitVec.xor_comm b]
  · by_cases hhigh : i % 16 = j + 8
    · have hiv8 : i % 8 = j := by omega
      simp [hhigh, hiv8, BitVec.xor_assoc]
    · have hiv8 : i % 8 ≠ j := by omega
      simp [hlow, hhigh, hiv8]

/-- The halves of a derivation, XORed, are the derivation of half the size. -/
theorem ivOf_deriveFrom (p : List Byte) (i : Nat) (out : Key) : ivOf (deriveFrom i p out) = deriveFrom i p (ivOf out) := by
  induction p generalizing i out with
  | nil => rfl
  | cons b bs ih => rw [deriveFrom, ih, ivOf_set, deriveFrom]

theorem ivOf_derive (p : List Byte) : ivOf (derive 16 p) = derive 8 p := by
  have hzero : ivOf (Vector.replicate 16 0) = Vector.replicate 8 0 := by decide
  rw [derive, ivOf_deriveFrom, hzero, derive]

/-- A key is derived from its own sixteen bytes. -/
theorem derive_toList (k : Key) : derive 16 k.toList = k := by
  apply Vector.ext
  intro j hj
  have hlen : k.toList.length = 16 := Vector.length_toList
  have hfold := deriveFrom_getElem k.toList 0 (Vector.replicate 16 0) j hj
  have honce : (List.range 16).filter (fun i => (0 + i) % 16 == j) = [j] := by
    interval_cases j <;> rfl
  rw [hlen, honce] at hfold
  rw [derive, hfold]
  simp [hj]

/-- Settles O21: the key is its own derivation, and the IV of a derivation is the derivation of half the size. -/
theorem ivIsKeyDerived : Obligations.IvIsKeyDerived := by
  refine ⟨ivOf_getElem, fun k => ?_, ivOf_derive⟩
  rw [← ivOf_derive, derive_toList]

end Sys2Proof.Machine
end

section
/-! The shift form of the encryption schedule (43 R171): every bit of a subkey is a bit of the key register, and the two shifts
pick those bits from two earlier subkeys. -/

namespace Sys2Proof.Machine

/-- Bit n of subkey i, from the left, in the key register (43 R170). -/
theorem genSchedule_getMsbD (k : Key) {i : Nat} (hi : i < 52) {n : Nat} (hn : n < 16) :
    (genSchedule k)[i].getMsbD n = (Key.register k).getMsbD ((25 * (i / 8) + 16 * (i % 8) + n) % 128) := by
  have hword : 128 - (16 * (7 - i % 8) + 16 - n) = 16 * (i % 8) + n := by omega
  have hin : 16 * (7 - i % 8) + 16 - n ≤ 128 := by omega
  have hlt : 16 * (i % 8) + n < 128 := by omega
  rw [genSchedule_getElem k i hi, rotatedKey_eq_rotateLeft, registerWord, BitVec.getMsbD_extractLsb',
    BitVec.getMsbD_rotateLeft, hword, decide_eq_true hn, decide_eq_true hin, decide_eq_true hlt, Nat.add_assoc]
  simp

/-- Where the 9-bit shift takes its bits from (43 R171). -/
theorem shift_left_source {i a : Nat} (hi : 8 ≤ i) (ha : a = if i % 8 ≠ 7 then i - 7 else i - 15) (n : Nat) :
    (25 * (a / 8) + 16 * (a % 8) + (n + 9)) % 128 = (25 * (i / 8) + 16 * (i % 8) + n) % 128 := by
  by_cases h : i % 8 ≠ 7
  · rw [if_pos h] at ha
    have hrow : a / 8 = i / 8 - 1 ∧ a % 8 = i % 8 + 1 := by omega
    omega
  · rw [if_neg h] at ha
    have hrow : a / 8 = i / 8 - 1 ∧ a % 8 = 0 := by omega
    omega

/-- Where the 7-bit shift takes its bits from (43 R171). -/
theorem shift_right_source {i b : Nat} (hi : 8 ≤ i) (hb : b = if i % 8 < 6 then i - 6 else i - 14) {n : Nat} (hn : 7 ≤ n) :
    (25 * (b / 8) + 16 * (b % 8) + (n - 7)) % 128 = (25 * (i / 8) + 16 * (i % 8) + n) % 128 := by
  by_cases h : i % 8 < 6
  · rw [if_pos h] at hb
    have hrow : b / 8 = i / 8 - 1 ∧ b % 8 = i % 8 + 2 := by omega
    omega
  · rw [if_neg h] at hb
    have hrow : b / 8 = i / 8 - 1 ∧ b % 8 = i % 8 - 6 := by omega
    omega

/-- Settles O31: the first shift gives the seven left bits of the word, the second the others, each at its bit of the register. -/
theorem genScheduleShiftForm : Obligations.GenScheduleShiftForm := by
  refine fun k => ⟨fun i => ?_, fun i a b hi ha hb => BitVec.eq_of_getMsbD_eq fun n hn => ?_⟩
  · obtain ⟨hdiv, hmod⟩ : i.val / 8 = 0 ∧ i.val % 8 = i.val := by omega
    rw [genSchedule_getElem k i.val (by omega), hdiv, hmod]
    exact registerWord_register k i
  · show (genSchedule k)[i.val].getMsbD n = ((genSchedule k)[a.val] <<< 9 ||| (genSchedule k)[b.val] >>> 7).getMsbD n
    rw [BitVec.getMsbD_or, BitVec.getMsbD_shiftLeft, BitVec.getMsbD_ushiftRight, decide_eq_true hn,
      genSchedule_getMsbD k i.isLt hn]
    by_cases hleft : n < 7
    · rw [genSchedule_getMsbD k a.isLt (by omega), shift_left_source hi ha, decide_eq_true hleft]
      simp
    · have hbeyond : (genSchedule k)[a.val].getMsbD (n + 9) = false := BitVec.getMsbD_of_ge _ _ (by omega)
      rw [genSchedule_getMsbD k b.isLt (by omega), shift_right_source hi hb (by omega), decide_eq_false hleft, hbeyond]
      simp

end Sys2Proof.Machine
end

section
/-! One elimination rule per shared operation: whatever is to be shown of its answer is shown of each answer it can give (20 R66
to R69, 60 R303, R305). The motive is any statement about a `Result`, so that safety, frames and refusals all use the same rules. -/

namespace Sys2Proof.Machine

variable {Q : Result → Prop} {s : State}

theorem whenReady_elim {k : State → Result} (busy : s.cph = .running → Q (.next (raiseCmd .busy s)))
    (ready : s.cph ≠ .running → Q (k s)) : Q (whenReady s k) := by
  by_cases h : s.cph = .running
  · rw [whenReady_of_running s k h]
    exact busy h
  · rw [whenReady_of_ready s k h]
    exact ready h

theorem require_elim {ok : Bool} {code : ErrorCode} {k : State → Result}
    (failed : ok = false → Q (.next (raiseCmd code s))) (passed : ok = true → Q (k s)) : Q (require ok code s k) := by
  cases ok with
  | false => exact failed rfl
  | true => exact passed rfl

theorem inRead_elim {pos n : Nat} {k : List Byte → State → Result}
    (ok : pos + n ≤ s.inf.length → Q (k (Memory.slice s.inf pos n) (afterIo s)))
    (failed : Q (.next (codecFail .ioFailure (loseOutput (afterIo s)))))
    (outside : s.inf.length < pos + n → Q (.fault .inReadOutsideFile)) : Q (inRead pos n s k) := by
  obtain ⟨hin, -, e⟩ | ⟨-, -, e⟩ | ⟨hout, e⟩ := inRead_cases pos n s k
  · exact e ▸ ok hin
  · exact e ▸ failed
  · exact e ▸ outside hout

theorem outAppend_elim {v : List Byte} {k : State → Result}
    (ok : Q (k (setOutput (Memory.append s.outf v) (afterIo s))))
    (failed : Q (.next (codecFail .ioFailure (loseOutput (afterIo s))))) : Q (outAppend v s k) := by
  obtain ⟨-, e⟩ | ⟨-, e⟩ := outAppend_cases v s k
  · exact e ▸ ok
  · exact e ▸ failed

theorem outTruncate_elim {l : Nat} {k : State → Result}
    (ok : l ≤ s.outf.length → Q (k (setOutput (Memory.truncate s.outf l) (afterIo s))))
    (failed : Q (.next (codecFail .ioFailure (loseOutput (afterIo s)))))
    (beyond : s.outf.length < l → Q (.fault .truncateBeyondFile)) : Q (outTruncate l s k) := by
  obtain ⟨hin, -, e⟩ | ⟨-, -, e⟩ | ⟨hout, e⟩ := outTruncate_cases l s k
  · exact e ▸ ok hin
  · exact e ▸ failed
  · exact e ▸ beyond hout

theorem openFiles_elim {k : State → Result}
    (unbound : Q (.next (codecFail .ioFailure (loseOutput s))))
    (ok : s.bound = true → s.inf.length < Config.fileLimit → Q (k (opened (afterIo s))))
    (failed : Q (.next (codecFail .ioFailure (loseOutput (afterIo s)))))
    (overLength : s.bound = true → Config.fileLimit ≤ s.inf.length → Q (.refused .fileOverLengthRegisters)) :
    Q (openFiles s k) := by
  obtain ⟨-, e⟩ | ⟨hb, hl, -, e⟩ | ⟨-, -, -, e⟩ | ⟨hb, hl, e⟩ := openFiles_cases s k
  · exact e ▸ unbound
  · exact e ▸ ok hb hl
  · exact e ▸ failed
  · exact e ▸ overLength hb hl

theorem setLengths_elim {d : Dir}
    (enc : d = .enc → Q (.next (startRun (setDataLen s.inLen (BitVec.ofNat 64 (roundup8 s.inLen.toNat)) s))))
    (empty : d = .dec → Q (.next (codecFail .emptyInput s)))
    (unaligned : d = .dec → Q (.next (codecFail .unalignedInput s)))
    (dec : d = .dec → s.inLen.toNat ≠ 0 → s.inLen.toNat % 8 = 0 →
      Q (.next (startRun (setDataLen (s.inLen - 8) (s.inLen - 8) s)))) : Q (setLengths d s) := by
  cases d with
  | enc => exact enc rfl
  | dec =>
    rw [setLengths]
    split_ifs with hzero hmod
    · exact empty rfl
    · exact unaligned rfl
    · exact dec rfl hzero (not_not.1 hmod)

theorem seqStep_elim (cancel : s.cflags.cancelReq = true → Q (.next (cancelStep s)))
    (chunk : s.cflags.cancelReq = false → s.doneBytes.toNat < s.dataLen.toNat → Q (chunkStep s))
    (enc : s.cflags.cancelReq = false → s.dataLen.toNat ≤ s.doneBytes.toNat → s.cflags.cdir = .enc → Q (suffixStepEnc s))
    (dec : s.cflags.cancelReq = false → s.dataLen.toNat ≤ s.doneBytes.toNat → s.cflags.cdir = .dec → Q (suffixStepDec s)) :
    Q (seqStep s) := by
  obtain ⟨hc, e⟩ | ⟨hc, hl, e⟩ | ⟨hc, hl, hd, e⟩ | ⟨hc, hl, hd, e⟩ := seqStep_cases s
  · exact e ▸ cancel hc
  · exact e ▸ chunk hc hl
  · exact e ▸ enc hc hl hd
  · exact e ▸ dec hc hl hd

theorem suffixStepEnc_elim (tooLarge : Q (.next (codecFail .fileTooLarge s)))
    (fits : s.inLen.toNat ≤ Config.maxPlainLen → Q (outAppend (runXform (packLen s.inLen.toNat) s).1.toList
      (setChain (runXform (packLen s.inLen.toNat) s).2 s) fun t => .next (succeed (countSuffix t)))) :
    Q (suffixStepEnc s) := by
  unfold suffixStepEnc
  split_ifs with h
  · exact tooLarge
  · exact fits (Nat.not_lt.1 h)

theorem checkSuffix_elim {b : Block} (malformed : Q (.next (codecFail .malformedCryptogram (setChain (runXform b s).2 s))))
    (unpacked : ∀ l, Q (finishDecrypt l (setChain (runXform b s).2 s))) : Q (checkSuffix b s) := by
  obtain ⟨-, e⟩ | ⟨l, -, e⟩ := checkSuffix_cases b s
  · exact e ▸ malformed
  · exact e ▸ unpacked l

theorem finishDecrypt_elim {l : Nat} (malformed : Q (.next (codecFail .malformedCryptogram s)))
    (whole : Q (.next (succeed (setFinalSize (BitVec.ofNat 64 l) s))))
    (cut : l ≤ s.dataLen.toNat → Q (outTruncate l s fun t => .next (succeed (setFinalSize (BitVec.ofNat 64 l) t)))) :
    Q (finishDecrypt l s) := by
  unfold finishDecrypt
  split_ifs with hacc hl
  · exact cut ((lengthAccepted_iff _ _).1 hacc).1
  · exact whole
  · exact malformed

theorem step_elim (idle : s.agenda = [] → Q (runSequencer s))
    (act : ∀ a rest, s.agenda = a :: rest → Q (runAction a (setAgenda rest s))) : Q (step s) := by
  unfold step nextOperation
  split
  · next h => exact idle h
  · next a rest h => exact act a rest h

theorem runCommand_elim {w : CmdWord} (legal : ∀ i, decode w = .ok i → Q (exec i s))
    (illegal : ∀ e, decode w = .error e → Q (.next (raiseCmd .illegalCommand s))) : Q (runCommand w s) := by
  unfold runCommand
  split
  · next i h => exact legal i h
  · next e h => exact illegal e h

/-- A binding during a run breaks the host's duty (20 R84). -/
theorem runBind_elim {input output : List Byte} (busy : s.cph = .running → Q (.refused .hostDutyBroken))
    (ready : s.cph ≠ .running → Q (.next (bindFiles input output s))) : Q (runBind input output s) := by
  unfold runBind
  split_ifs with h
  · exact busy ((busy_iff s).1 h)
  · exact ready (mt (busy_iff s).2 h)

theorem runUnbind_elim (busy : s.cph = .running → Q (.refused .hostDutyBroken))
    (ready : s.cph ≠ .running → Q (.next (unbindFiles s))) : Q (runUnbind s) := by
  unfold runUnbind
  split_ifs with h
  · exact busy ((busy_iff s).1 h)
  · exact ready (mt (busy_iff s).2 h)

end Sys2Proof.Machine
end

section
/-! Everything a command can answer (30 R97), said once: an error raised, the one write each command makes, or what CSTART's open
leads to. -/

namespace Sys2Proof.Machine

/-- CSTART once the files are open: the key check, then the mode and the lengths (45 R231). -/
def cstartOpened (d : Dir) (m : Mode) (s : State) : Result :=
  if s.keyComplete then setLengths d (loadMode d m s) else .next (codecFail .invalidKeySize s)

/-- The answers of a command in a state. -/
inductive CommandAnswer (s : State) : Instr → Result → Prop
  | raised {i : Instr} {c : ErrorCode} (hc : c ∈ commandErrors) : CommandAnswer s i (.next (raiseCmd c s))
  | nop : CommandAnswer s .nop (.next s)
  | reset : CommandAnswer s .reset (.next (resetRegisters s))
  | errclr : CommandAnswer s .errclr (.next (setCmderr .none s))
  | cancelRun (hrun : s.cph = .running) : CommandAnswer s .cancel (.next (requestCancel s))
  | cancelNothing : CommandAnswer s .cancel (.next s)
  | key {i : Instr} (hi : i.mnemonic ∈ [.kdclr, .kdbyte, .keyldw]) (hs : s.cph ≠ .running) (k : Key) (keyv : BitVec 8)
      (kdidx : Fin 16) : CommandAnswer s i (.next (setKey k keyv kdidx s))
  | schedgen (hs : s.cph ≠ .running) :
      CommandAnswer s .schedgen (.next (setSchedule (genSchedule s.key) { s.cfg with skdir := .enc, skv := true } s))
  | schedinv (hs : s.cph ≠ .running) (hskv : s.cfg.skv = true) :
      CommandAnswer s .schedinv
        (.next (setSchedule (invertSchedule s.sk) { s.cfg with skdir := flipDir s.cfg.skdir } s))
  | block {i : Instr} (hi : i.mnemonic ∈ [.crypt, .blkldw]) (b : Block) : CommandAnswer s i (.next (setBlk b s))
  | modeinit (d : Dir) (m : Mode) (hs : s.cph ≠ .running) : CommandAnswer s (.modeinit d m) (.next (loadMode d m s))
  | xform : CommandAnswer s .xform (.next (setChain (runXform s.blk s).2 (setBlk (runXform s.blk s).1 s)))
  | accumulator {i : Instr} (hi : i.mnemonic ∈ [.accld, .muli, .addi, .mulinv, .addinv]) (v : Word) :
      CommandAnswer s i (.next (setAcc v s))
  | cstart (d : Dir) (m : Mode) (hs : s.cph ≠ .running) :
      CommandAnswer s (.cstart d m) (openFiles (clearRun d m s) (cstartOpened d m))

theorem commandAnswer_whenReady {s : State} {i : Instr} {k : State → Result}
    (ready : s.cph ≠ .running → CommandAnswer s i (k s)) : CommandAnswer s i (whenReady s k) :=
  whenReady_elim (fun _ => .raised (by decide)) ready

theorem commandAnswer_exec (i : Instr) (s : State) : CommandAnswer s i (exec i s) := by
  cases i with
  | nop => exact .nop
  | reset => exact .reset
  | errclr => exact .errclr
  | cancel =>
    by_cases hrun : s.cph = .running
    · exact exec_cancel_of_running hrun ▸ .cancelRun hrun
    · exact exec_cancel_of_not_running hrun ▸ .cancelNothing
  | kdclr =>
    unfold exec execKdclr
    exact commandAnswer_whenReady fun hs => .key (by decide) hs _ _ _
  | kdbyte b =>
    unfold exec execKdbyte
    exact commandAnswer_whenReady fun hs => .key (by simp [Instr.mnemonic]) hs _ _ _
  | keyldw i v =>
    unfold exec execKeyldw
    exact commandAnswer_whenReady fun hs => .key (by simp [Instr.mnemonic]) hs _ _ _
  | schedgen =>
    unfold exec execSchedgen
    exact commandAnswer_whenReady fun hs => require_elim (fun _ => .raised (by decide)) fun _ => .schedgen hs
  | schedinv =>
    unfold exec execSchedinv
    exact commandAnswer_whenReady fun hs => require_elim (fun _ => .raised (by decide)) fun hskv => .schedinv hs hskv
  | crypt =>
    unfold exec execCrypt
    exact commandAnswer_whenReady fun _ => require_elim (fun _ => .raised (by decide)) fun _ => .block (by decide) _
  | blkldw i v =>
    show CommandAnswer s _ (execBlkldw i v s)
    unfold execBlkldw
    split_ifs
    · exact commandAnswer_whenReady fun _ => .block (by simp [Instr.mnemonic]) _
    · exact .raised (by decide)
  | modeinit d m =>
    unfold exec execModeinit
    exact commandAnswer_whenReady fun hs => require_elim (fun _ => .raised (by decide)) fun _ => .modeinit d m hs
  | xform =>
    unfold exec execXform
    exact commandAnswer_whenReady fun _ => require_elim (fun _ => .raised (by decide)) fun _ => .xform
  | accld v =>
    unfold exec execAccld
    exact commandAnswer_whenReady fun _ => .accumulator (by simp [Instr.mnemonic]) _
  | muli v =>
    unfold exec execMuli
    exact commandAnswer_whenReady fun _ => .accumulator (by simp [Instr.mnemonic]) _
  | addi v =>
    unfold exec execAddi
    exact commandAnswer_whenReady fun _ => .accumulator (by simp [Instr.mnemonic]) _
  | mulinv =>
    unfold exec execMulinv
    exact commandAnswer_whenReady fun _ => .accumulator (by decide) _
  | addinv =>
    unfold exec execAddinv
    exact commandAnswer_whenReady fun _ => .accumulator (by decide) _
  | cstart d m =>
    unfold exec execCstart
    exact commandAnswer_whenReady fun hs => .cstart d m hs

end Sys2Proof.Machine
end

section
/-! The invariant under each named update. The part of it that does not speak of the phase is split off, since every end of a run
and every start of one keeps just that part. -/

namespace Sys2Proof.Machine

/-! ## The parts of the invariant -/

/-- The fields the invariant does not read, at fixed values. -/
def forgetUnread (s : State) : State :=
  { s with kdidx := 0, acc := 0, blk := Block.zero, chain := Block.zero, agenda := [], ioScript := [], draws := 0
           reply := none }

/-- What the invariant says whatever the phase. -/
structure PhaseFree (s : State) : Prop where
  infWf : Memory.wf s.inf
  outfWf : Memory.wf s.outf
  bufferFits : s.chunkBuf.filled.length ≤ s.chunkBytes
  doneLe : s.doneBytes.toNat ≤ s.dataLen.toNat
  inLenBound : s.inLen.toNat < Config.fileLimit
  cmderr : s.cmderr ∈ commandErrors
  modeNeedsSchedule : s.cfg.modev = true → s.cfg.skv = true
  noMode : s.cfg.modev = false → s.cfg.mode = .ecb ∧ s.cfg.dir = .enc
  noSchedule : s.cfg.skv = false → s.cfg.skdir = .enc ∧ s.sk = Vector.replicate 52 0

/-- Of a run that has neither succeeded nor been asked to cancel: what its failure and its start rest on. -/
structure Unfinished (s : State) : Prop extends PhaseFree s where
  finalSize : s.finalSize = 0
  elapsed : s.elapsed = 0
  notCancelled : s.cflags.cancelReq = false

theorem Running.congr {s t : State} (h : Running s) (e : forgetUnread t = forgetUnread s) : Running t := by
  have h' : Running (forgetUnread s) := { h with }
  rw [← e] at h'
  exact { h' with }

theorem Inv.congr {s t : State} (h : Inv s) (e : forgetUnread t = forgetUnread s) : Inv t := by
  have h' : Inv (forgetUnread s) := { h with running := fun hr => { h.running hr with } }
  rw [← e] at h'
  exact { h' with running := fun hr => { h'.running hr with } }

theorem Inv.phaseFree {s : State} (h : Inv s) : PhaseFree s := { h with }

/-! ## Updates of the registers and files that no run is using -/

theorem inv_setCmderr {s : State} (h : Inv s) {c : ErrorCode} (hc : c ∈ commandErrors) : Inv (setCmderr c s) :=
  { h with cmderr := hc, running := fun hr => { h.running hr with } }

theorem inv_raiseCmd {s : State} (h : Inv s) {c : ErrorCode} (hc : c ∈ commandErrors) : Inv (raiseCmd c s) := by
  refine inv_setCmderr h ?_
  split_ifs
  · exact hc
  · exact h.cmderr

/-- A cancel request leaves the run's direction and mode (46 R283). -/
theorem inv_requestCancel {s : State} (h : Inv s) (hrun : s.cph = .running) : Inv (requestCancel s) :=
  { h with
    idle := fun hidle => absurd (hrun.symm.trans hidle) nofun
    cancelReq := fun _ => .inl hrun
    running := fun hr => { h.running hr with } }

theorem inv_setKey {s : State} (h : Inv s) (hs : s.cph ≠ .running) (k : Key) (keyv : BitVec 8) (kdidx : Fin 16) :
    Inv (setKey k keyv kdidx s) :=
  { h with running := fun hr => absurd hr hs }

theorem phaseFree_setSchedule {s : State} (h : PhaseFree s) {z : Schedule} {c : Cfg}
    (hmode : c.modev = true → c.skv = true) (hnoMode : c.modev = false → c.mode = .ecb ∧ c.dir = .enc)
    (hnoSchedule : c.skv = false → c.skdir = .enc ∧ z = Vector.replicate 52 0) : PhaseFree (setSchedule z c s) :=
  { h with modeNeedsSchedule := hmode, noMode := hnoMode, noSchedule := hnoSchedule }

theorem inv_setSchedule {s : State} (h : Inv s) (hs : s.cph ≠ .running) {z : Schedule} {c : Cfg}
    (hmode : c.modev = true → c.skv = true) (hnoMode : c.modev = false → c.mode = .ecb ∧ c.dir = .enc)
    (hnoSchedule : c.skv = false → c.skdir = .enc ∧ z = Vector.replicate 52 0) : Inv (setSchedule z c s) :=
  { phaseFree_setSchedule h.phaseFree hmode hnoMode hnoSchedule, h with running := fun hr => absurd hr hs }

/-- A mode is loaded together with its schedule (44 R201). -/
theorem phaseFree_loadMode {s : State} (h : PhaseFree s) (d : Dir) (m : Mode) : PhaseFree (loadMode d m s) :=
  { phaseFree_setSchedule h (z := modeSchedule d m s.key) (c := (loadMode d m s).cfg) (fun _ => rfl) nofun nofun with }

theorem inv_loadMode {s : State} (h : Inv s) (hs : s.cph ≠ .running) (d : Dir) (m : Mode) : Inv (loadMode d m s) :=
  (inv_setSchedule h hs (z := modeSchedule d m s.key) (c := (loadMode d m s).cfg) (fun _ => rfl) nofun nofun).congr rfl

theorem inv_bindFiles {s : State} (h : Inv s) (hs : s.cph ≠ .running) (input output : List Byte) :
    Inv (bindFiles input output s) :=
  { h with
    infWf := Memory.wf_ofBytes input
    outfWf := Memory.wf_ofBytes output
    running := fun hr => absurd hr hs }

theorem inv_unbindFiles {s : State} (h : Inv s) (hs : s.cph ≠ .running) : Inv (unbindFiles s) :=
  { h with running := fun hr => absurd hr hs }

/-- A reset needs the files' form alone of the state before (70 R341, R342). -/
theorem inv_resetRegisters {s : State} (hinf : Memory.wf s.inf) (houtf : Memory.wf s.outf) : Inv (resetRegisters s) where
  infWf := hinf
  outfWf := houtf
  bufferFits := Nat.zero_le _
  doneLe := Nat.le_refl _
  inLenBound := by
    show (0 : Len).toNat < Config.fileLimit
    decide
  cmderr := List.mem_cons_self
  outcome := rfl
  event := rfl
  idle _ := ⟨rfl, rfl, rfl, rfl, rfl, rfl, rfl, rfl, rfl⟩
  unfinished _ := ⟨rfl, rfl⟩
  cancelReq := nofun
  modeNeedsSchedule := nofun
  noMode _ := ⟨rfl, rfl⟩
  noSchedule _ := ⟨rfl, rfl⟩
  running := nofun

/-! ## The ends of a run and its start -/

theorem inv_codecFail {s : State} (h : Unfinished s) {c : ErrorCode} (hc : c ∈ runFailures) : Inv (codecFail c s) :=
  { h with
    outcome := List.contains_iff_mem.2 hc
    event := rfl
    idle := nofun
    unfinished := fun _ => ⟨h.finalSize, h.elapsed⟩
    cancelReq := fun hreq => absurd (h.notCancelled.symm.trans hreq) nofun
    running := nofun }

theorem inv_succeed {s : State} (h : PhaseFree s) (hreq : s.cflags.cancelReq = false) : Inv (succeed s) :=
  { h with
    outcome := rfl
    event := rfl
    idle := nofun
    unfinished := fun hne => absurd rfl hne
    cancelReq := fun hreq' => absurd (hreq.symm.trans hreq') nofun
    running := nofun }

theorem inv_cancelStep {s : State} (h : Inv s) (hrun : s.cph = .running) : Inv (cancelStep s) :=
  { h with
    outcome := rfl
    event := rfl
    idle := nofun
    unfinished := fun _ => h.unfinished (fun hsucc => absurd (hrun.symm.trans hsucc) nofun)
    cancelReq := fun _ => .inr rfl
    running := nofun }

theorem inv_startRun {s : State} (h : Unfinished s) (hcres : s.cres = .none) (hrun : Running (startRun s)) :
    Inv (startRun s) :=
  { h with
    outcome := beq_iff_eq.2 hcres
    event := rfl
    idle := nofun
    unfinished := fun _ => ⟨h.finalSize, h.elapsed⟩
    cancelReq := fun hreq => absurd (h.notCancelled.symm.trans hreq) nofun
    running := fun _ => hrun }

/-! ## The updates a run is made of -/

theorem Inv.toUnfinished {s : State} (h : Inv s) (hrun : s.cph = .running) (hreq : s.cflags.cancelReq = false) :
    Unfinished s :=
  have hzero := h.unfinished fun hsucc => absurd (hrun.symm.trans hsucc) nofun
  { h with finalSize := hzero.1, elapsed := hzero.2, notCancelled := hreq }

theorem unfinished_clearRun {s : State} (h : Inv s) (d : Dir) (m : Mode) : Unfinished (clearRun d m s) :=
  { h with
    doneLe := Nat.le_refl _
    inLenBound := by
      show (0 : Len).toNat < Config.fileLimit
      decide
    finalSize := rfl
    elapsed := rfl
    notCancelled := rfl }

theorem unfinished_afterIo {s : State} (h : Unfinished s) : Unfinished (afterIo s) := { h with }

theorem unfinished_setChain {s : State} (h : Unfinished s) (c : Block) : Unfinished (setChain c s) := { h with }

theorem unfinished_setOutput {s : State} (h : Unfinished s) {m : Memory} (hm : Memory.wf m) : Unfinished (setOutput m s) :=
  { h with outfWf := hm }

theorem unfinished_loseOutput {s : State} (h : Unfinished s) : Unfinished (loseOutput s) :=
  { h with outfWf := loseOutput_wf s }

/-- Every failed primitive ends the run (20 R66 to R69). -/
theorem inv_ioFailure {s : State} (h : Unfinished s) : Inv (codecFail .ioFailure (loseOutput (afterIo s))) :=
  inv_codecFail (unfinished_loseOutput (unfinished_afterIo h)) (by decide)

theorem unfinished_opened {s : State} (h : Unfinished s) (hlimit : s.inf.length < Config.fileLimit)
    (hdone : s.doneBytes = 0) : Unfinished (opened s) :=
  { h with
    outfWf := Memory.wf_nil
    doneLe := by
      show s.doneBytes.toNat ≤ s.dataLen.toNat
      rw [hdone]
      exact Nat.zero_le _
    inLenBound := by
      have hfits : s.inf.length < 2 ^ 63 := hlimit
      show (BitVec.ofNat 64 s.inf.length).toNat < Config.fileLimit
      rw [Len.toNat_ofNat (by omega)]
      exact hlimit }

theorem unfinished_loadMode {s : State} (h : Unfinished s) (d : Dir) (m : Mode) : Unfinished (loadMode d m s) :=
  { phaseFree_loadMode h.toPhaseFree d m, h with }

theorem unfinished_setDataLen {s : State} (h : Unfinished s) (hdone : s.doneBytes = 0) (dataLen outLen : Len) :
    Unfinished (setDataLen dataLen outLen s) :=
  { h with
    doneLe := by
      show s.doneBytes.toNat ≤ dataLen.toNat
      rw [hdone]
      exact Nat.zero_le _ }

theorem phaseFree_countSuffix {s : State} (h : PhaseFree s) : PhaseFree (countSuffix s) := { h with }

theorem phaseFree_setFinalSize {s : State} (h : PhaseFree s) (v : Len) : PhaseFree (setFinalSize v s) := { h with }

/-- The transformed chunk still fits the buffer (20 R85). -/
theorem writeBuffer_length_le {v : List Byte} {b : ChunkBuffer} {n : Nat} (hv : v.length ≤ n) (hb : b.filled.length ≤ n) :
    (writeBuffer v b).filled.length ≤ n := by
  rw [writeBuffer, List.length_append, List.length_drop]
  omega

theorem unfinished_loadChunk {s : State} (h : Unfinished s) {bytes : List Byte} (hfits : bytes.length ≤ s.chunkBytes) :
    Unfinished (loadChunk bytes s) :=
  { h with
    bufferFits := writeBuffer_length_le
      ((chunkTransform_length bytes s).symm ▸ roundup8_le_chunkBytes s _ hfits) h.bufferFits }

end Sys2Proof.Machine
end

section
/-! A chunk step from a state of the invariant (45 R244 to R247): the counts fit, so that the step reads inside the file, appends
the whole transformed chunk and keeps the invariant. -/

namespace Sys2Proof.Machine

/-! ## The counts of a chunk -/

theorem roundup8_mono {a b : Nat} (h : a ≤ b) : roundup8 a ≤ roundup8 b := by
  unfold roundup8
  omega

/-- Whole blocks before do not enter the padding. -/
theorem roundup8_add {a : Nat} (ha : a % 8 = 0) (n : Nat) : roundup8 (a + n) = a + roundup8 n := by
  unfold roundup8
  omega

theorem chunkCount_le_chunkBytes (s : State) : chunkCount s ≤ s.chunkBytes := Nat.min_le_left _ _

theorem doneBytes_add_chunkCount_le {s : State} (hlt : s.doneBytes.toNat < s.dataLen.toNat) :
    s.doneBytes.toNat + chunkCount s ≤ s.dataLen.toNat := by
  have : chunkCount s ≤ s.dataLen.toNat - s.doneBytes.toNat := Nat.min_le_right _ _
  omega

/-- The data of a run is in its file (45 R235, R236). -/
theorem Running.dataLen_le {s : State} (h : Running s) : s.dataLen.toNat ≤ s.inf.length := by
  have hin := h.inLen
  cases hd : s.cflags.cdir with
  | enc => rw [h.dataLenEnc hd, hin]
  | dec =>
    have := h.dataLenDec hd
    omega

theorem Running.doneBytes_mod {s : State} (h : Running s) (hlt : s.doneBytes.toNat < s.dataLen.toNat) :
    s.doneBytes.toNat % s.chunkBytes = 0 := by
  obtain heq | hmod := h.aligned
  · rw [heq] at hlt
    exact absurd hlt (Nat.lt_irrefl _)
  · exact hmod

theorem Running.doneBytes_mod_eight {s : State} (h : Running s) (hlt : s.doneBytes.toNat < s.dataLen.toNat) :
    s.doneBytes.toNat % 8 = 0 :=
  Nat.mod_eq_zero_of_dvd
    ((Nat.dvd_of_mod_eq_zero (chunkBytes_mod s)).trans (Nat.dvd_of_mod_eq_zero (h.doneBytes_mod hlt)))

/-- Before the last chunk OUT_POS has no padding in it. -/
theorem Running.outPos_eq {s : State} (h : Running s) (hlt : s.doneBytes.toNat < s.dataLen.toNat) :
    s.outPos.toNat = s.doneBytes.toNat :=
  h.outPos.trans (roundup8_of_mod _ (h.doneBytes_mod_eight hlt))

/-- A chunk is written whole (45 R246). -/
theorem Running.writeCount_eq {s : State} (h : Running s) (hlt : s.doneBytes.toNat < s.dataLen.toNat) :
    writeCount (chunkCount s) s = roundup8 (chunkCount s) := by
  have hfit := roundup8_mono (doneBytes_add_chunkCount_le hlt)
  rw [roundup8_add (h.doneBytes_mod_eight hlt)] at hfit
  have hout := h.outLen
  have hpos := h.outPos_eq hlt
  exact Nat.min_eq_left (by omega)

/-- The bytes of the next chunk. -/
abbrev chunkBytesRead (s : State) : List Byte := Memory.slice s.inf s.doneBytes.toNat (chunkCount s)

theorem Running.chunk_in_file {s : State} (h : Running s) (hlt : s.doneBytes.toNat < s.dataLen.toNat) :
    s.doneBytes.toNat + chunkCount s ≤ s.inf.length :=
  (doneBytes_add_chunkCount_le hlt).trans h.dataLen_le

theorem Running.chunkBytesRead_length {s : State} (h : Running s) (hlt : s.doneBytes.toNat < s.dataLen.toNat) :
    (chunkBytesRead s).length = chunkCount s :=
  Memory.slice_length _ _ _ (h.chunk_in_file hlt)

/-- The bytes of the transformed chunk. -/
abbrev chunkBytesWritten (s : State) : List Byte := bytesOf (chunkTransform (chunkBytesRead s) s).1

theorem Running.chunkBytesWritten_length {s : State} (h : Running s) (hlt : s.doneBytes.toNat < s.dataLen.toNat) :
    (chunkBytesWritten s).length = roundup8 (chunkCount s) := by
  rw [chunkTransform_length, h.chunkBytesRead_length hlt]

theorem Running.chunkOutput_eq {s : State} (h : Running s) (hlt : s.doneBytes.toNat < s.dataLen.toNat) :
    chunkOutput s = chunkBytesWritten s :=
  List.take_of_length_le (by rw [h.writeCount_eq hlt]; exact (h.chunkBytesWritten_length hlt).le)

/-! ## The state after a chunk -/

/-- The state after a chunk step whose two primitives succeed; it is read through its fields below. -/
@[irreducible] def afterChunk (s : State) : State :=
  advance (chunkCount s) (roundup8 (chunkCount s))
    (setOutput (Memory.append s.outf (chunkBytesWritten s)) (afterIo (afterChunkRead s)))

/-- The transform of a chunk reads CFG, SK and CHAIN alone. -/
@[simp] theorem chunkTransform_afterIo (bytes : List Byte) (s : State) :
    chunkTransform bytes (afterIo s) = chunkTransform bytes s := by
  simp [chunkTransform]

@[simp] theorem afterChunk_key (s : State) : (afterChunk s).key = s.key := by simp [afterChunk]
@[simp] theorem afterChunk_keyv (s : State) : (afterChunk s).keyv = s.keyv := by simp [afterChunk]
@[simp] theorem afterChunk_kdidx (s : State) : (afterChunk s).kdidx = s.kdidx := by simp [afterChunk]
@[simp] theorem afterChunk_cfg (s : State) : (afterChunk s).cfg = s.cfg := by simp [afterChunk]
@[simp] theorem afterChunk_acc (s : State) : (afterChunk s).acc = s.acc := by simp [afterChunk]
@[simp] theorem afterChunk_cmderr (s : State) : (afterChunk s).cmderr = s.cmderr := by simp [afterChunk]
@[simp] theorem afterChunk_cph (s : State) : (afterChunk s).cph = s.cph := by simp [afterChunk]
@[simp] theorem afterChunk_cres (s : State) : (afterChunk s).cres = s.cres := by simp [afterChunk]
@[simp] theorem afterChunk_cflags (s : State) : (afterChunk s).cflags = s.cflags := by simp [afterChunk]
@[simp] theorem afterChunk_blk (s : State) : (afterChunk s).blk = s.blk := by simp [afterChunk]
@[simp] theorem afterChunk_sk (s : State) : (afterChunk s).sk = s.sk := by simp [afterChunk]
@[simp] theorem afterChunk_inLen (s : State) : (afterChunk s).inLen = s.inLen := by simp [afterChunk]
@[simp] theorem afterChunk_dataLen (s : State) : (afterChunk s).dataLen = s.dataLen := by simp [afterChunk]
@[simp] theorem afterChunk_outLen (s : State) : (afterChunk s).outLen = s.outLen := by simp [afterChunk]
@[simp] theorem afterChunk_doneBytes (s : State) :
    (afterChunk s).doneBytes = s.doneBytes + BitVec.ofNat 64 (chunkCount s) := by simp [afterChunk]
@[simp] theorem afterChunk_outPos (s : State) :
    (afterChunk s).outPos = s.outPos + BitVec.ofNat 64 (roundup8 (chunkCount s)) := by simp [afterChunk]
@[simp] theorem afterChunk_finalSize (s : State) : (afterChunk s).finalSize = s.finalSize := by simp [afterChunk]
@[simp] theorem afterChunk_elapsed (s : State) : (afterChunk s).elapsed = s.elapsed := by simp [afterChunk]
@[simp] theorem afterChunk_evt (s : State) : (afterChunk s).evt = .progress := by simp [afterChunk]
@[simp] theorem afterChunk_evtseq (s : State) : (afterChunk s).evtseq = s.evtseq + 1 := by simp [afterChunk]
@[simp] theorem afterChunk_inf (s : State) : (afterChunk s).inf = s.inf := by simp [afterChunk]
@[simp] theorem afterChunk_outf (s : State) :
    (afterChunk s).outf = Memory.append s.outf (chunkBytesWritten s) := by simp [afterChunk]
@[simp] theorem afterChunk_chain (s : State) :
    (afterChunk s).chain = (chunkTransform (chunkBytesRead s) s).2 := by simp [afterChunk]
@[simp] theorem afterChunk_chunkBuf (s : State) :
    (afterChunk s).chunkBuf = writeBuffer (chunkBytesWritten s) s.chunkBuf := by simp [afterChunk]
@[simp] theorem afterChunk_bound (s : State) : (afterChunk s).bound = s.bound := by simp [afterChunk]
@[simp] theorem afterChunk_chunkBlocks (s : State) : (afterChunk s).chunkBlocks = s.chunkBlocks := by simp [afterChunk]

theorem afterChunk_ioScript (s : State) : (afterChunk s).ioScript = (afterIo (afterIo s)).ioScript := by simp [afterChunk]

theorem afterChunk_draws (s : State) : (afterChunk s).draws = (afterIo (afterIo s)).draws := by
  simp [afterChunk]
  rfl

@[simp] theorem afterChunk_chunkBytes (s : State) : (afterChunk s).chunkBytes = s.chunkBytes := by
  simp [State.chunkBytes]

theorem Running.chunkStep_eq {s : State} (h : Running s) (hlt : s.doneBytes.toNat < s.dataLen.toNat)
    (hread : ioAnswer s = true) (hwrite : ioAnswer (afterIo s) = true) : chunkStep s = .next (afterChunk s) := by
  have hfile := h.chunk_in_file hlt
  obtain ⟨-, -, -, e⟩ | ⟨-, -, hbad, -⟩ | ⟨-, hbad, -⟩ | ⟨hout, -⟩ := chunkStep_cases s
  · rw [e, h.writeCount_eq hlt, h.chunkOutput_eq hlt, afterChunk]
  · exact absurd (hwrite.symm.trans hbad) nofun
  · exact absurd (hread.symm.trans hbad) nofun
  · omega

/-- A register that counts bytes of a file does not wrap. -/
theorem Len.toNat_add_ofNat {v : Len} {n : Nat} (h : v.toNat + n < 2 ^ 64) : (v + BitVec.ofNat 64 n).toNat = v.toNat + n := by
  rw [BitVec.toNat_add, Len.toNat_ofNat (by omega), Nat.mod_eq_of_lt h]

theorem Running.doneBytes_afterChunk {s : State} (h : Running s) (hfile : s.inf.length < 2 ^ 63)
    (hlt : s.doneBytes.toNat < s.dataLen.toNat) : (afterChunk s).doneBytes.toNat = s.doneBytes.toNat + chunkCount s := by
  have hin := h.chunk_in_file hlt
  rw [afterChunk_doneBytes, Len.toNat_add_ofNat (by omega)]

theorem Running.outPos_afterChunk {s : State} (h : Running s) (hfile : s.inf.length < 2 ^ 63)
    (hlt : s.doneBytes.toNat < s.dataLen.toNat) :
    (afterChunk s).outPos.toNat = s.outPos.toNat + roundup8 (chunkCount s) := by
  have hin := h.chunk_in_file hlt
  have hpos := h.outPos_eq hlt
  have hpad := roundup8_lt_add (chunkCount s)
  rw [afterChunk_outPos, Len.toNat_add_ofNat (by omega)]

theorem Running.afterChunk_outf_length {s : State} (h : Running s) (hlt : s.doneBytes.toNat < s.dataLen.toNat) :
    (afterChunk s).outf.length = s.outf.length + roundup8 (chunkCount s) := by
  rw [afterChunk_outf, Memory.append_length, h.chunkBytesWritten_length hlt]

/-- The last chunk ends at DATA_LEN, and every other at a multiple of CHUNK_BYTES (20 R74). -/
theorem Running.aligned_afterChunk {s : State} (h : Running s) (hfile : s.inf.length < 2 ^ 63)
    (hlt : s.doneBytes.toNat < s.dataLen.toNat) :
    (afterChunk s).doneBytes = s.dataLen ∨ (afterChunk s).doneBytes.toNat % s.chunkBytes = 0 := by
  have hdone := h.doneBytes_afterChunk hfile hlt
  by_cases hlast : s.dataLen.toNat - s.doneBytes.toNat ≤ s.chunkBytes
  · have hcount : chunkCount s = s.dataLen.toNat - s.doneBytes.toNat := Nat.min_eq_right hlast
    exact .inl (BitVec.eq_of_toNat_eq (by omega))
  · have hcount : chunkCount s = s.chunkBytes := Nat.min_eq_left (by omega)
    rw [hdone, hcount, Nat.add_mod_right]
    exact .inr (h.doneBytes_mod hlt)

theorem running_afterChunk {s : State} (hr : Running s) (hfile : s.inf.length < 2 ^ 63)
    (hlt : s.doneBytes.toNat < s.dataLen.toNat) : Running (afterChunk s) :=
  have hdone := hr.doneBytes_afterChunk hfile hlt
  have hpos := hr.outPos_afterChunk hfile hlt
  { keyComplete := by simpa using hr.keyComplete
    modeLoaded := by simpa using hr.modeLoaded
    schedule := by simpa using hr.schedule
    bound := by simpa using hr.bound
    inLen := by simpa using hr.inLen
    dataLenEnc := by simpa using hr.dataLenEnc
    dataLenDec := by simpa using hr.dataLenDec
    outLen := by simpa using hr.outLen
    outPos := by rw [hpos, hdone, hr.outPos_eq hlt, roundup8_add (hr.doneBytes_mod_eight hlt)]
    outFile := by rw [hr.afterChunk_outf_length hlt, hr.outFile, hpos]
    aligned := by simpa using hr.aligned_afterChunk hfile hlt }

theorem Running.writeBuffer_fits {s : State} (h : Running s) (hlt : s.doneBytes.toNat < s.dataLen.toNat)
    (hb : s.chunkBuf.filled.length ≤ s.chunkBytes) :
    (writeBuffer (chunkBytesWritten s) s.chunkBuf).filled.length ≤ s.chunkBytes := by
  refine writeBuffer_length_le ?_ hb
  rw [h.chunkBytesWritten_length hlt]
  exact roundup8_le_chunkBytes s _ (chunkCount_le_chunkBytes s)

theorem unfinished_afterChunkRead {s : State} (h : Unfinished s) (hrun : Running s)
    (hlt : s.doneBytes.toNat < s.dataLen.toNat) : Unfinished (afterChunkRead s) := by
  refine unfinished_loadChunk (unfinished_afterIo h) ?_
  rw [hrun.chunkBytesRead_length hlt]
  exact chunkCount_le_chunkBytes s

/-- IN_LEN bounds the file of a run (00 R9). -/
theorem Inv.inf_length_lt {s : State} (h : Inv s) (hrun : s.cph = .running) : s.inf.length < 2 ^ 63 :=
  (h.running hrun).inLen ▸ h.inLenBound

theorem inv_afterChunk {s : State} (h : Inv s) (hrun : s.cph = .running)
    (hlt : s.doneBytes.toNat < s.dataLen.toNat) : Inv (afterChunk s) :=
  have hr := h.running hrun
  have hfile := h.inf_length_lt hrun
  { infWf := by simpa using h.infWf
    outfWf := by simpa using Memory.wf_append _ _ h.outfWf
    bufferFits := by simpa using hr.writeBuffer_fits hlt h.bufferFits
    doneLe := by
      rw [hr.doneBytes_afterChunk hfile hlt, afterChunk_dataLen]
      exact doneBytes_add_chunkCount_le hlt
    inLenBound := by simpa using h.inLenBound
    cmderr := by simpa using h.cmderr
    outcome := by simpa [outcomeAgrees] using h.outcome
    event := by simp [eventAgrees, hrun]
    idle := by simp [hrun]
    unfinished := by simpa using h.unfinished
    cancelReq := by simpa using h.cancelReq
    modeNeedsSchedule := by simpa using h.modeNeedsSchedule
    noMode := by simpa using h.noMode
    noSchedule := by simpa using h.noSchedule
    running := fun _ => running_afterChunk hr hfile hlt }

end Sys2Proof.Machine
end

section
/-! The invariant under a turn of the sequencer, a CSTART, every command and every operation of the interleaving (20 R79). -/

namespace Sys2Proof.Machine

/-! ## A turn of the sequencer during a run -/

/-- The phases in which no run is in progress any more. -/
def Ended (s : State) : Prop := s.cph = .succeeded ∨ s.cph = .failed ∨ s.cph = .cancelled

/-- What a turn during a run may answer: the run ends, or one more chunk is done; the invariant holds in either case. -/
def RunGoesOn (s : State) : Result → Prop
  | .next t => Inv t ∧ (Ended t ∨ s.doneBytes.toNat < s.dataLen.toNat ∧ t = afterChunk s)
  | .fault _ => False
  | .refused _ => False

theorem runGoesOn_codecFail {s t : State} {c : ErrorCode} (h : Inv (codecFail c t)) : RunGoesOn s (.next (codecFail c t)) :=
  ⟨h, .inl (.inr (.inl rfl))⟩

theorem runGoesOn_succeed {s t : State} (h : PhaseFree t) (hreq : t.cflags.cancelReq = false) :
    RunGoesOn s (.next (succeed t)) :=
  ⟨inv_succeed h hreq, .inl (.inl rfl)⟩

theorem runGoesOn_chunkStep {s : State} (h : Inv s) (hrun : s.cph = .running) (hreq : s.cflags.cancelReq = false)
    (hlt : s.doneBytes.toNat < s.dataLen.toNat) : RunGoesOn s (chunkStep s) := by
  have hr := h.running hrun
  have hfree := h.toUnfinished hrun hreq
  obtain ⟨-, hread, hwrite, -⟩ | ⟨-, -, -, e⟩ | ⟨-, -, e⟩ | ⟨hout, -⟩ := chunkStep_cases s
  · rw [hr.chunkStep_eq hlt hread hwrite]
    exact ⟨inv_afterChunk h hrun hlt, .inr ⟨hlt, rfl⟩⟩
  · exact e ▸ runGoesOn_codecFail (inv_ioFailure (unfinished_afterChunkRead hfree hr hlt))
  · exact e ▸ runGoesOn_codecFail (inv_ioFailure hfree)
  · exact absurd hout (Nat.not_lt.2 (hr.chunk_in_file hlt))

theorem runGoesOn_suffixStepEnc {s : State} (h : Unfinished s) : RunGoesOn s (suffixStepEnc s) := by
  apply suffixStepEnc_elim
  · exact runGoesOn_codecFail (inv_codecFail h (by decide))
  · intro _
    have hchain := unfinished_setChain h (runXform (packLen s.inLen.toNat) s).2
    apply outAppend_elim
    · have hout := unfinished_setOutput (unfinished_afterIo hchain)
        (Memory.wf_append s.outf (runXform (packLen s.inLen.toNat) s).1.toList h.outfWf)
      exact runGoesOn_succeed (phaseFree_countSuffix hout.toPhaseFree) h.notCancelled
    · exact runGoesOn_codecFail (inv_ioFailure hchain)

/-- The suffix stands in the file, and a length in the window is at most what the chunks have written (45 R249 to R251). -/
theorem runGoesOn_suffixStepDec {s : State} (h : Unfinished s) (hr : Running s) (hdec : s.cflags.cdir = .dec)
    (hle : s.dataLen.toNat ≤ s.doneBytes.toNat) : RunGoesOn s (suffixStepDec s) := by
  apply inRead_elim
  · intro _
    have hread := unfinished_afterIo h
    apply checkSuffix_elim
    · exact runGoesOn_codecFail (inv_codecFail (unfinished_setChain hread _) (by decide))
    · intro l
      have hchain := unfinished_setChain hread
        (runXform (blockOfBytes (Memory.slice s.inf s.dataLen.toNat 8)) (afterIo s)).2
      apply finishDecrypt_elim
      · exact runGoesOn_codecFail (inv_codecFail hchain (by decide))
      · exact runGoesOn_succeed (phaseFree_setFinalSize hchain.toPhaseFree _) h.notCancelled
      · intro hl
        apply outTruncate_elim
        · intro _
          have hout := unfinished_setOutput (unfinished_afterIo hchain) (Memory.wf_truncate s.outf l h.outfWf)
          exact runGoesOn_succeed (phaseFree_setFinalSize hout.toPhaseFree _) h.notCancelled
        · exact runGoesOn_codecFail (inv_ioFailure hchain)
        · intro hbeyond
          have hlen : s.outf.length = roundup8 s.doneBytes.toNat := hr.outFile.trans hr.outPos
          have hpad := le_roundup8 s.doneBytes.toNat
          have hdata : l ≤ s.dataLen.toNat := hl
          have hshort : s.outf.length < l := hbeyond
          omega
  · exact runGoesOn_codecFail (inv_ioFailure h)
  · intro hout
    obtain ⟨-, -, hdata⟩ := hr.dataLenDec hdec
    have hin := hr.inLen
    omega

theorem Inv.runGoesOn {s : State} (h : Inv s) (hrun : s.cph = .running) : RunGoesOn s (runSequencer s) := by
  rw [runSequencer_of_running hrun]
  apply seqStep_elim
  · exact fun _ => ⟨inv_cancelStep h hrun, .inl (.inr (.inr rfl))⟩
  · exact fun hreq hlt => runGoesOn_chunkStep h hrun hreq hlt
  · exact fun hreq _ _ => runGoesOn_suffixStepEnc (h.toUnfinished hrun hreq)
  · exact fun hreq hle hdec => runGoesOn_suffixStepDec (h.toUnfinished hrun hreq) (h.running hrun) hdec hle

/-! ## Every operation -/

/-- What any operation may answer: a state of the invariant, or a refusal, but no fault. -/
def AnswersInv : Result → Prop
  | .next t => Inv t
  | .fault _ => False
  | .refused _ => True

theorem answersInv_of_runGoesOn {s : State} {r : Result} (h : RunGoesOn s r) : AnswersInv r := by
  cases r with
  | next t => exact h.1
  | fault f => exact h
  | refused x => trivial

theorem answersInv_runSequencer {s : State} (h : Inv s) : AnswersInv (runSequencer s) := by
  obtain ⟨-, e⟩ | ⟨hrun, -⟩ := runSequencer_cases s
  · exact e ▸ h
  · exact answersInv_of_runGoesOn (h.runGoesOn hrun)

/-- A run starts with its file open, its mode loaded and nothing done (45 R231 to R237). -/
theorem running_start {s : State} {d : Dir} {m : Mode} (hlimit : s.inf.length < Config.fileLimit) (hbound : s.bound = true)
    (hkey : s.keyv = 0xFF) {dataLen outLen : Len}
    (henc : d = .enc → dataLen.toNat = s.inf.length)
    (hdec : d = .dec → 0 < s.inf.length ∧ s.inf.length % 8 = 0 ∧ dataLen.toNat + 8 = s.inf.length)
    (hout : outLen.toNat = roundup8 dataLen.toNat) :
    Running (startRun (setDataLen dataLen outLen (loadMode d m (opened (afterIo (clearRun d m s)))))) :=
  have hfits : s.inf.length < 2 ^ 63 := hlimit
  have hin : (BitVec.ofNat 64 s.inf.length).toNat = s.inf.length := Len.toNat_ofNat (by omega)
  { keyComplete := by simpa using hkey
    modeLoaded := by simp
    schedule := by simp
    bound := by simpa using hbound
    inLen := by simpa using hin
    dataLenEnc := by simpa using fun hd => BitVec.eq_of_toNat_eq ((henc hd).trans hin.symm)
    dataLenDec := by simpa [-BitVec.toNat_ofNat, hin] using hdec
    outLen := by simpa using hout
    outPos := by simp [roundup8]
    outFile := by simp
    aligned := by simp }

/-- The trailing block is not data (45 R236). -/
theorem Len.toNat_sub_eight {v : Len} (hne : v.toNat ≠ 0) (hmod : v.toNat % 8 = 0) : (v - 8).toNat + 8 = v.toNat := by
  bv_omega

theorem answersInv_setLengths {s : State} (h : Inv s) (d : Dir) (m : Mode) (hbound : s.bound = true)
    (hlimit : s.inf.length < Config.fileLimit) (hkey : s.keyv = 0xFF) :
    AnswersInv (setLengths d (loadMode d m (opened (afterIo (clearRun d m s))))) := by
  have hopen := unfinished_loadMode (unfinished_opened (unfinished_afterIo (unfinished_clearRun h d m)) hlimit rfl) d m
  have hfits : s.inf.length < 2 ^ 63 := hlimit
  have hin : (BitVec.ofNat 64 s.inf.length).toNat = s.inf.length := Len.toNat_ofNat (by omega)
  apply setLengths_elim
  · intro henc
    refine inv_startRun (unfinished_setDataLen hopen rfl _ _) rfl
      (running_start hlimit hbound hkey (fun _ => hin) (fun hdec => absurd (henc.symm.trans hdec) nofun) ?_)
    exact Len.toNat_ofNat (hin.symm ▸ roundup8_lt hfits)
  · exact fun _ => inv_codecFail hopen (by decide)
  · exact fun _ => inv_codecFail hopen (by decide)
  · intro hdec hne hmod
    have hdata := Len.toNat_sub_eight hne hmod
    refine inv_startRun (unfinished_setDataLen hopen rfl _ _) rfl
      (running_start hlimit hbound hkey (fun henc => absurd (henc.symm.trans hdec) nofun) (fun _ => ?_) ?_)
    · exact hin ▸ ⟨Nat.pos_of_ne_zero hne, hmod, hdata⟩
    · exact (roundup8_of_mod _ (by omega)).symm

theorem answersInv_cstart {s : State} (h : Inv s) (d : Dir) (m : Mode) :
    AnswersInv (openFiles (clearRun d m s) (cstartOpened d m)) := by
  have hclear := unfinished_clearRun h d m
  apply openFiles_elim
  · exact inv_codecFail (unfinished_loseOutput hclear) (by decide)
  · intro hbound hlimit
    unfold cstartOpened
    split_ifs with hkey
    · exact answersInv_setLengths h d m hbound hlimit ((keyComplete_iff _).1 hkey)
    · exact inv_codecFail (unfinished_opened (unfinished_afterIo hclear) hlimit rfl) (by decide)
  · exact inv_ioFailure hclear
  · exact fun _ _ => trivial

theorem answersInv_of_commandAnswer {s : State} {i : Instr} {r : Result} (h : Inv s) (hr : CommandAnswer s i r) :
    AnswersInv r := by
  cases hr with
  | raised hc => exact inv_raiseCmd h hc
  | nop | cancelNothing => exact h
  | reset => exact inv_resetRegisters h.infWf h.outfWf
  | errclr => exact inv_setCmderr h (by decide)
  | cancelRun hrun => exact inv_requestCancel h hrun
  | key _ hs k keyv kdidx => exact inv_setKey h hs k keyv kdidx
  | schedgen hs => exact inv_setSchedule h hs (fun _ => rfl) h.noMode nofun
  | schedinv hs hskv =>
    exact inv_setSchedule h hs h.modeNeedsSchedule h.noMode fun hno => absurd (hskv.symm.trans hno) nofun
  | modeinit d m hs => exact inv_loadMode h hs d m
  | block | xform | accumulator => exact h.congr rfl
  | cstart d m => exact answersInv_cstart h d m

theorem answersInv_runAction {s : State} (h : Inv s) (a : Action) : AnswersInv (runAction a s) := by
  cases a with
  | command w =>
    exact runCommand_elim (fun i _ => answersInv_of_commandAnswer h (commandAnswer_exec i s))
      fun _ _ => inv_raiseCmd h (by decide)
  | read a => exact h.congr (t := setReply _ s) rfl
  | sequencer => exact answersInv_runSequencer h
  | bind input output => exact runBind_elim (fun _ => trivial) fun hs => inv_bindFiles h hs input output
  | unbind => exact runUnbind_elim (fun _ => trivial) fun hs => inv_unbindFiles h hs
  | resetInput => exact inv_resetRegisters h.infWf h.outfWf

theorem answersInv_step {s : State} (h : Inv s) : AnswersInv (step s) :=
  step_elim (fun _ => answersInv_runSequencer h) fun a rest _ =>
    answersInv_runAction (h.congr (t := setAgenda rest s) rfl) a

/-- Settles O51: the state after reset is the reset of itself, but for the buffer's free values. -/
theorem resetMeetsInvariant : Obligations.ResetMeetsInvariant :=
  { inv_resetRegisters (s := State.reset) Memory.wf_nil Memory.wf_nil with
    running := nofun }

/-- Settles O52: every operation answers a state of the invariant. -/
theorem stepKeepsInvariant : Obligations.StepKeepsInvariant := by
  intro s t h hstep
  have hanswer := answersInv_step h
  rwa [hstep] at hanswer

/-- Settles O53: no operation answers a fault. -/
theorem stepNeverFaults : Obligations.StepNeverFaults := by
  intro s f h hstep
  have hanswer := answersInv_step h
  rwa [hstep] at hanswer

end Sys2Proof.Machine
end

section
/-! Runs end (45 R256): each turn of a run ends it or does one more chunk, and there are only so many chunks. -/

namespace Sys2Proof.Machine

theorem chunkSteps_zero (s : State) : chunkSteps s 0 = 0 := by
  have hpos := chunkBytes_pos s
  exact (Nat.div_eq_zero_iff_lt hpos).2 (by omega)

/-- A chunk fewer to go, a step fewer (45 R256). -/
theorem chunkSteps_of_pos (s : State) {n : Nat} (hn : 0 < n) :
    chunkSteps s n = chunkSteps s (n - min s.chunkBytes n) + 1 := by
  have hpos := chunkBytes_pos s
  by_cases hlast : n ≤ s.chunkBytes
  · rw [Nat.min_eq_right hlast, Nat.sub_self, chunkSteps_zero]
    exact Nat.div_eq_of_lt_le (by omega) (by omega)
  · have hstep : n - s.chunkBytes + (s.chunkBytes - 1) + s.chunkBytes = n + (s.chunkBytes - 1) := by omega
    rw [Nat.min_eq_left (by omega), chunkSteps, chunkSteps, ← hstep, Nat.add_div_right _ hpos]

/-- The steps still to go, before and after a chunk. -/
theorem Running.chunkSteps_afterChunk {s : State} (h : Running s) (hfile : s.inf.length < 2 ^ 63)
    (hlt : s.doneBytes.toNat < s.dataLen.toNat) :
    chunkSteps s (s.dataLen.toNat - s.doneBytes.toNat) =
      chunkSteps (afterChunk s) ((afterChunk s).dataLen.toNat - (afterChunk s).doneBytes.toNat) + 1 := by
  rw [chunkSteps_of_pos s (Nat.sub_pos_of_lt hlt), h.doneBytes_afterChunk hfile hlt, Nat.sub_add_eq]
  simp [chunkSteps, chunkCount]

theorem run_ends (n : Nat) {s : State} (h : Inv s) (hrun : s.cph = .running)
    (hsteps : chunkSteps s (s.dataLen.toNat - s.doneBytes.toNat) = n) :
    ∃ k t, k ≤ n + 1 ∧ seqRun k s = .next t ∧ Ended t := by
  induction n using Nat.strong_induction_on generalizing s with
  | _ n ih =>
    have hturn := h.runGoesOn hrun
    cases hanswer : runSequencer s with
    | fault f =>
      rw [hanswer] at hturn
      exact hturn.elim
    | refused x =>
      rw [hanswer] at hturn
      exact hturn.elim
    | next t =>
      rw [hanswer] at hturn
      obtain ⟨hinv, hended | ⟨hlt, rfl⟩⟩ := hturn
      · exact ⟨1, t, by omega, by rw [seqRun, hanswer]; rfl, hended⟩
      · rw [(h.running hrun).chunkSteps_afterChunk (h.inf_length_lt hrun) hlt] at hsteps
        obtain ⟨k, u, hk, hrest, hended⟩ := ih _ (by omega) hinv (by simpa using hrun) rfl
        exact ⟨k + 1, u, by omega, by rw [seqRun, hanswer]; exact hrest, hended⟩

/-- Settles O55: by induction on the chunks still to go. -/
theorem runEndsWithinStepCount : Obligations.RunEndsWithinStepCount := fun _ h hrun => run_ends _ h hrun rfl

end Sys2Proof.Machine
end

section
/-! What operations leave unchanged, and what they refuse (10 R31, 20 R76, R84, 45 R232, 70 R347). -/

namespace Sys2Proof.Machine

/-- A statement about the next state, when there is one. -/
def Ensures (P : State → Prop) : Result → Prop
  | .next t => P t
  | .fault _ => True
  | .refused _ => True

@[simp] theorem ensures_next {P : State → Prop} {t : State} : Ensures P (.next t) ↔ P t := Iff.rfl

theorem Ensures.of_next {P : State → Prop} {r : Result} {t : State} (h : Ensures P r) (hr : r = .next t) : P t := by
  rwa [hr] at h

/-- A statement about the refusal, when there is one. -/
def RefusedOnly (P : Refusal → Prop) : Result → Prop
  | .next _ => True
  | .fault _ => True
  | .refused x => P x

/-! ## A run -/

/-- What CSTART and a run leave: the registers they never write, and INF (45 R232, 10 R31). -/
@[simp] def keptByRun (s : State) : Key × BitVec 8 × Fin 16 × Word × ErrorCode × Block × Memory :=
  (s.key, s.keyv, s.kdidx, s.acc, s.cmderr, s.blk, s.inf)

/-- What a turn of the sequencer leaves besides. -/
@[simp] def keptByTurn (s : State) : (Key × BitVec 8 × Fin 16 × Word × ErrorCode × Block × Memory) × Schedule × Cfg :=
  (keptByRun s, s.sk, s.cfg)

theorem sameRegs_of_keptByRun {s t : State} (h : keptByRun t = keptByRun s) : SameRegs runRegs s t ∧ t.inf = s.inf := by
  simp only [keptByRun, Prod.mk.injEq] at h
  obtain ⟨key, keyv, kdidx, acc, cmderr, blk, inf⟩ := h
  exact ⟨sameRegs_runRegs key keyv kdidx acc cmderr blk, inf⟩

theorem chunkStep_keeps (s : State) : Ensures (fun t => keptByTurn t = keptByTurn s) (chunkStep s) := by
  apply inRead_elim
  · intro _
    apply outAppend_elim
    · simp
    · simp
  · simp
  · exact fun _ => trivial

theorem suffixStepEnc_keeps (s : State) : Ensures (fun t => keptByTurn t = keptByTurn s) (suffixStepEnc s) := by
  apply suffixStepEnc_elim
  · simp
  · intro _
    apply outAppend_elim
    · simp
    · simp

theorem suffixStepDec_keeps (s : State) : Ensures (fun t => keptByTurn t = keptByTurn s) (suffixStepDec s) := by
  apply inRead_elim
  · intro _
    apply checkSuffix_elim
    · simp
    · intro l
      apply finishDecrypt_elim
      · simp
      · simp
      · intro _
        apply outTruncate_elim
        · simp
        · simp
        · exact fun _ => trivial
  · simp
  · exact fun _ => trivial

theorem runSequencer_keeps (s : State) : Ensures (fun t => keptByTurn t = keptByTurn s) (runSequencer s) := by
  obtain ⟨-, e⟩ | ⟨-, e⟩ := runSequencer_cases s
  · exact e ▸ rfl
  · rw [e]
    apply seqStep_elim
    · simp
    · exact fun _ _ => chunkStep_keeps s
    · exact fun _ _ _ => suffixStepEnc_keeps s
    · exact fun _ _ _ => suffixStepDec_keeps s

theorem cstart_keeps (d : Dir) (m : Mode) (s : State) :
    Ensures (fun t => keptByRun t = keptByRun s) (openFiles (clearRun d m s) (cstartOpened d m)) := by
  apply openFiles_elim
  · simp
  · intro _ _
    unfold cstartOpened
    split_ifs
    · apply setLengths_elim
      · simp
      · simp
      · simp
      · simp
    · simp
  · simp
  · exact fun _ _ => trivial

theorem exec_cstart_of_ready (d : Dir) (m : Mode) {s : State} (hs : s.cph ≠ .running) :
    exec (.cstart d m) s = openFiles (clearRun d m s) (cstartOpened d m) := by
  show execCstart d m s = _
  rw [execCstart, whenReady_of_ready s _ hs]
  rfl

/-- Settles O49: every answer of a turn and of a CSTART keeps those fields. -/
theorem runNeverWritesHostRegisters : Obligations.RunNeverWritesHostRegisters := by
  refine fun s t => ⟨fun hturn => ?_, fun d m hs hstart => ?_⟩
  · have hkept := (runSequencer_keeps s).of_next hturn
    simp only [keptByTurn, Prod.mk.injEq] at hkept
    obtain ⟨hrun, hsk, hcfg⟩ := hkept
    obtain ⟨hregs, hinf⟩ := sameRegs_of_keptByRun hrun
    exact ⟨hregs, hinf, hsk, hcfg⟩
  · rw [exec_cstart_of_ready d m hs] at hstart
    exact sameRegs_of_keptByRun ((cstart_keeps d m s).of_next hstart)

/-! ## SK, CFG and CHAIN -/

theorem runSequencer_keeps_chain {s : State} (h : s.cph ≠ .running ∨ s.cflags.cancelReq = true) :
    Ensures (fun t => t.chain = s.chain) (runSequencer s) := by
  obtain ⟨-, e⟩ | ⟨hrun, -⟩ := runSequencer_cases s
  · exact e ▸ rfl
  · exact runSequencer_cancel hrun (h.resolve_left (not_not_intro hrun)) ▸ rfl

/-- An operation that is neither a turn, a reset nor a legal command leaves the three (70 R347). -/
theorem runAction_keeps {a : Action} {s : State} (hseq : a ≠ .sequencer) (hreset : a ≠ .resetInput)
    (hcommand : ∀ w i, a = .command w → decode w ≠ .ok i) :
    Ensures (fun t => t.sk = s.sk ∧ t.cfg = s.cfg ∧ t.chain = s.chain) (runAction a s) := by
  cases a with
  | command w => exact runCommand_elim (fun i hi => absurd hi (hcommand w i rfl)) fun _ _ => ⟨rfl, rfl, rfl⟩
  | read a => exact ⟨rfl, rfl, rfl⟩
  | sequencer => exact absurd rfl hseq
  | bind input output => exact runBind_elim (fun _ => trivial) fun _ => ⟨rfl, rfl, rfl⟩
  | unbind => exact runUnbind_elim (fun _ => trivial) fun _ => ⟨rfl, rfl, rfl⟩
  | resetInput => exact absurd rfl hreset

theorem commandAnswer_keeps_schedule {s : State} {i : Instr} {r : Result} (hr : CommandAnswer s i r) (hreset : i ≠ .reset)
    (hgen : i ≠ .schedgen) (hinv : i ≠ .schedinv) (hmode : ∀ d m, i ≠ .modeinit d m) (hstart : ∀ d m, i ≠ .cstart d m) :
    Ensures (fun t => t.sk = s.sk ∧ t.cfg = s.cfg ∧ (i ≠ .xform → t.chain = s.chain)) r := by
  cases hr with
  | raised | nop | errclr | cancelRun | cancelNothing | key | block | accumulator => exact ⟨rfl, rfl, fun _ => rfl⟩
  | xform => exact ⟨rfl, rfl, fun hne => absurd rfl hne⟩
  | reset => exact absurd rfl hreset
  | schedgen => exact absurd rfl hgen
  | schedinv => exact absurd rfl hinv
  | modeinit d m => exact absurd rfl (hmode d m)
  | cstart d m => exact absurd rfl (hstart d m)

theorem commandAnswer_schedule_keeps {s : State} {i : Instr} {r : Result} (hr : CommandAnswer s i r)
    (hi : i = .schedgen ∨ i = .schedinv) :
    Ensures (fun t => t.chain = s.chain ∧ t.cfg.mode = s.cfg.mode ∧ t.cfg.dir = s.cfg.dir ∧ t.cfg.modev = s.cfg.modev) r := by
  obtain rfl | rfl := hi <;> cases hr <;> exact ⟨rfl, rfl, rfl, rfl⟩

/-- Settles O39: each answer of a turn, of an operation and of a command leaves them, or is one of those the title names. -/
theorem scheduleAndModeChangeOnlyThrough : Obligations.ScheduleAndModeChangeOnlyThrough := by
  refine ⟨fun s t hturn => ?_, fun a s t hact hseq hreset hcommand => (runAction_keeps hseq hreset hcommand).of_next hact,
    fun i s t hexec => ⟨fun hreset hgen hinv hmode hstart => ?_, fun hi => ?_⟩⟩
  · have hkept := (runSequencer_keeps s).of_next hturn
    simp only [keptByTurn, Prod.mk.injEq] at hkept
    obtain ⟨-, hsk, hcfg⟩ := hkept
    exact ⟨hsk, hcfg, fun h => (runSequencer_keeps_chain h).of_next hturn⟩
  · exact (commandAnswer_keeps_schedule (commandAnswer_exec i s) hreset hgen hinv hmode hstart).of_next hexec
  · exact (commandAnswer_schedule_keeps (commandAnswer_exec i s) hi).of_next hexec

/-! ## Refusals -/

theorem setLengths_not_refused (d : Dir) (s : State) : RefusedOnly (fun _ => False) (setLengths d s) := by
  apply setLengths_elim
  · exact fun _ => trivial
  · exact fun _ => trivial
  · exact fun _ => trivial
  · exact fun _ _ _ => trivial

theorem runSequencer_not_refused (s : State) : RefusedOnly (fun _ => False) (runSequencer s) := by
  obtain ⟨-, e⟩ | ⟨-, e⟩ := runSequencer_cases s
  · exact e ▸ trivial
  · rw [e]
    apply seqStep_elim
    · exact fun _ => trivial
    · intro _ _
      apply inRead_elim
      · exact fun _ => outAppend_elim trivial trivial
      · trivial
      · exact fun _ => trivial
    · exact fun _ _ _ => suffixStepEnc_elim trivial fun _ => outAppend_elim trivial trivial
    · intro _ _ _
      apply inRead_elim
      · intro _
        apply checkSuffix_elim
        · trivial
        · exact fun l => finishDecrypt_elim trivial trivial fun _ =>
            outTruncate_elim (fun _ => trivial) trivial fun _ => trivial
      · trivial
      · exact fun _ => trivial

/-- Of the commands only a CSTART is refused, at the open of an overlong file (U13). -/
theorem commandAnswer_refused {s : State} {i : Instr} {r : Result} (hr : CommandAnswer s i r) :
    RefusedOnly (fun x => x = .fileOverLengthRegisters ∧ s.cph ≠ .running ∧ s.bound = true ∧ 2 ^ 63 ≤ s.inf.length ∧
      ∃ d m, i = .cstart d m) r := by
  cases hr with
  | cstart d m hs =>
    apply openFiles_elim
    · trivial
    · intro _ _
      unfold cstartOpened
      split_ifs
      · have hnever := setLengths_not_refused d (loadMode d m (opened (afterIo (clearRun d m s))))
        cases hlengths : setLengths d (loadMode d m (opened (afterIo (clearRun d m s)))) with
        | next t => trivial
        | fault f => trivial
        | refused x =>
          rw [hlengths] at hnever
          exact hnever.elim
      · trivial
    · trivial
    · exact fun hbound hlimit => ⟨rfl, hs, hbound, hlimit, d, m, rfl⟩
  | raised | nop | reset | errclr | cancelRun | cancelNothing | key | schedgen | schedinv | block | modeinit | xform
  | accumulator => trivial

/-- What a refusal of a step says of the operation that was next (20 R84, U13). -/
def RefusalReason (s : State) (r : Refusal) : Prop :=
  (r = .hostDutyBroken ∧ s.cph = .running ∧
    ∃ rest, (∃ x y, s.agenda = .bind x y :: rest) ∨ s.agenda = .unbind :: rest) ∨
  (r = .fileOverLengthRegisters ∧ s.cph ≠ .running ∧ s.bound = true ∧ 2 ^ 63 ≤ s.inf.length ∧
    ∃ w rest d m, s.agenda = .command w :: rest ∧ decode w = .ok (.cstart d m))

theorem RefusedOnly.mono {P P' : Refusal → Prop} {r : Result} (h : RefusedOnly P r) (hp : ∀ x, P x → P' x) :
    RefusedOnly P' r := by
  cases r with
  | next t => trivial
  | fault f => trivial
  | refused x => exact hp x h

theorem runAction_refused {s : State} {a : Action} {rest : List Action} (hagenda : s.agenda = a :: rest) :
    RefusedOnly (RefusalReason s) (runAction a (setAgenda rest s)) := by
  cases a with
  | command w =>
    apply runCommand_elim
    · intro i hdec
      refine (commandAnswer_refused (commandAnswer_exec i (setAgenda rest s))).mono fun x hx => ?_
      obtain ⟨hreason, hs, hbound, hlong, d, m, rfl⟩ := hx
      exact .inr ⟨hreason, hs, hbound, hlong, w, rest, d, m, hagenda, hdec⟩
    · exact fun _ _ => trivial
  | read a => trivial
  | sequencer => exact (runSequencer_not_refused _).mono fun _ hx => hx.elim
  | bind input output => exact runBind_elim (fun hrun => .inl ⟨rfl, hrun, rest, .inl ⟨_, _, hagenda⟩⟩) fun _ => trivial
  | unbind => exact runUnbind_elim (fun hrun => .inl ⟨rfl, hrun, rest, .inr hagenda⟩) fun _ => trivial
  | resetInput => trivial

/-- Settles O54: the two bindings and the open of CSTART are the only places where an operation is refused. -/
theorem stepRefusesOnlyOutsideTheModel : Obligations.StepRefusesOnlyOutsideTheModel := by
  intro s r hstep
  have hreason : RefusedOnly (RefusalReason s) (step s) :=
    step_elim (fun _ => (runSequencer_not_refused s).mono fun _ hx => hx.elim) fun _ _ => runAction_refused
  rwa [hstep] at hreason

end Sys2Proof.Machine
end

section
/-! No step reads OUTF (20 R64, R88): one congruence rule per shared operation for two runs whose states differ in OUTF alone. -/

namespace Sys2Proof.Machine

/-- Whatever next state the one answers, the other answers it with another OUTF. -/
def AgreeButOutput (r r' : Result) : Prop := ∀ t, r = .next t → ∃ o, r' = .next (setOutput o t)

theorem agree_next (t : State) (o : Memory) : AgreeButOutput (.next t) (.next (setOutput o t)) := by
  intro u hu
  cases hu
  exact ⟨o, rfl⟩

theorem agree_refl (r : Result) : AgreeButOutput r r := fun t ht => ⟨t.outf, ht⟩

/-- A check that does not read OUTF goes the same way in both. -/
theorem agree_ite {p : Prop} [Decidable p] {r₁ r₂ r₁' r₂' : Result} (h₁ : AgreeButOutput r₁ r₁')
    (h₂ : AgreeButOutput r₂ r₂') : AgreeButOutput (if p then r₁ else r₂) (if p then r₁' else r₂') := by
  split_ifs
  · exact h₁
  · exact h₂

section
variable {s : State} {o : Memory}

theorem agree_whenReady {k : State → Result} (ready : AgreeButOutput (k s) (k (setOutput o s))) :
    AgreeButOutput (whenReady s k) (whenReady (setOutput o s) k) :=
  agree_ite (agree_next (raiseCmd .busy s) o) ready

theorem agree_require {ok : Bool} {code : ErrorCode} {k : State → Result} (passed : AgreeButOutput (k s) (k (setOutput o s))) :
    AgreeButOutput (require ok code s k) (require ok code (setOutput o s) k) :=
  agree_ite passed (agree_next (raiseCmd code s) o)

/-- A failed primitive loses the old OUTF, whatever it held (20 R87). -/
theorem agree_ioFailure : AgreeButOutput (ioFailure s) (ioFailure (setOutput o s)) := agree_refl (ioFailure s)

theorem agree_inRead {pos n : Nat} {k : List Byte → State → Result}
    (ok : ∀ bytes, AgreeButOutput (k bytes (afterIo s)) (k bytes (setOutput o (afterIo s)))) :
    AgreeButOutput (inRead pos n s k) (inRead pos n (setOutput o s) k) :=
  agree_ite (agree_ite (ok _) agree_ioFailure) (agree_refl _)

theorem agree_outAppend {v : List Byte} {k : State → Result}
    (ok : ∀ m m', AgreeButOutput (k (setOutput m (afterIo s))) (k (setOutput m' (afterIo s)))) :
    AgreeButOutput (outAppend v s k) (outAppend v (setOutput o s) k) :=
  agree_ite (ok _ _) agree_ioFailure

/-- The one check on OUTF is on its length (20 R68). -/
theorem agree_outTruncate {l : Nat} {k : State → Result} (hlen : o.length = s.outf.length)
    (ok : ∀ m m', AgreeButOutput (k (setOutput m (afterIo s))) (k (setOutput m' (afterIo s)))) :
    AgreeButOutput (outTruncate l s k) (outTruncate l (setOutput o s) k) := by
  unfold outTruncate
  rw [setOutput_outf, hlen]
  exact agree_ite (agree_ite (ok _ _) agree_ioFailure) (agree_refl _)

theorem agree_openFiles {k : State → Result} : AgreeButOutput (openFiles s k) (openFiles (setOutput o s) k) :=
  agree_ite (agree_refl _) (agree_ite (agree_ite (agree_refl _) agree_ioFailure) (agree_refl _))

/-! ## A turn of the sequencer -/

theorem agree_chunkStep : AgreeButOutput (chunkStep s) (chunkStep (setOutput o s)) :=
  agree_inRead fun bytes => agree_outAppend (s := loadChunk bytes (afterIo s)) fun m m' =>
    agree_next (advance _ _ (setOutput m (afterIo (loadChunk bytes (afterIo s))))) m'

theorem agree_suffixStepEnc : AgreeButOutput (suffixStepEnc s) (suffixStepEnc (setOutput o s)) :=
  agree_ite (agree_next (codecFail .fileTooLarge s) o) <|
    agree_outAppend (s := setChain (runXform (packLen s.inLen.toNat) s).2 s) fun m m' =>
      agree_next (succeed (countSuffix (setOutput m (afterIo (setChain (runXform (packLen s.inLen.toNat) s).2 s))))) m'

theorem agree_finishDecrypt {l : Nat} (hlen : o.length = s.outf.length) :
    AgreeButOutput (finishDecrypt l s) (finishDecrypt l (setOutput o s)) := by
  refine agree_ite (agree_ite (agree_outTruncate hlen fun m m' => ?_) ?_) ?_
  · exact agree_next (succeed (setFinalSize (BitVec.ofNat 64 l) (setOutput m (afterIo s)))) m'
  · exact agree_next (succeed (setFinalSize (BitVec.ofNat 64 l) s)) o
  · exact agree_next (codecFail .malformedCryptogram s) o

theorem agree_suffixStepDec (hlen : o.length = s.outf.length) :
    AgreeButOutput (suffixStepDec s) (suffixStepDec (setOutput o s)) := by
  refine agree_inRead fun bytes => ?_
  have hsame : runXform (blockOfBytes bytes) (setOutput o (afterIo s)) = runXform (blockOfBytes bytes) (afterIo s) := rfl
  unfold checkSuffix
  rw [hsame]
  cases unpackLen (runXform (blockOfBytes bytes) (afterIo s)).1 with
  | none => exact agree_next (codecFail .malformedCryptogram (setChain _ (afterIo s))) o
  | some l => exact agree_finishDecrypt (s := setChain _ (afterIo s)) hlen

theorem agree_runSequencer (hlen : s.cph = .running → o.length = s.outf.length) :
    AgreeButOutput (runSequencer s) (runSequencer (setOutput o s)) := by
  by_cases hrun : s.cph = .running
  · rw [runSequencer_of_running hrun, runSequencer_of_running (s := setOutput o s) hrun]
    exact agree_ite (agree_next (cancelStep s) o)
      (agree_ite agree_chunkStep (agree_ite agree_suffixStepEnc (agree_suffixStepDec (hlen hrun))))
  · have hidle (s : State) (hs : s.cph ≠ .running) : runSequencer s = .next s := if_neg (mt (busy_iff s).1 hs)
    rw [hidle s hrun, hidle (setOutput o s) hrun]
    exact agree_next s o

/-! ## The commands and the other operations -/

theorem agree_exec (i : Instr) : AgreeButOutput (exec i s) (exec i (setOutput o s)) := by
  cases i with
  | nop => exact agree_next s o
  | reset => exact agree_next (resetRegisters s) o
  | errclr => exact agree_next (setCmderr .none s) o
  | cancel => exact agree_ite (agree_next (requestCancel s) o) (agree_next s o)
  | kdclr | kdbyte | keyldw | accld | muli | addi | mulinv | addinv =>
    simp only [exec]
    refine agree_whenReady ?_
    exact agree_next _ o
  | schedgen | schedinv | crypt | modeinit | xform =>
    simp only [exec]
    refine agree_whenReady ?_
    refine agree_require ?_
    exact agree_next _ o
  | blkldw i v =>
    show AgreeButOutput (execBlkldw i v s) (execBlkldw i v (setOutput o s))
    unfold execBlkldw
    by_cases hi : i.toNat < 4
    · rw [dif_pos hi, dif_pos hi]
      exact agree_whenReady (agree_next _ o)
    · rw [dif_neg hi, dif_neg hi]
      exact agree_next (raiseCmd .illegalCommand s) o
  | cstart d m =>
    simp only [exec]
    refine agree_whenReady ?_
    exact agree_openFiles (s := clearRun d m s)

theorem agree_runAction (hlen : s.cph = .running → o.length = s.outf.length) (a : Action) :
    AgreeButOutput (runAction a s) (runAction a (setOutput o s)) := by
  cases a with
  | command w =>
    show AgreeButOutput (runCommand w s) (runCommand w (setOutput o s))
    unfold runCommand
    cases decode w with
    | ok i => exact agree_exec i
    | error e => exact agree_next (raiseCmd .illegalCommand s) o
  | read a => exact agree_next (setReply (readReg a s) s) o
  | sequencer => exact agree_runSequencer hlen
  | bind input output => exact agree_ite (agree_refl _) (agree_refl _)
  | unbind => exact agree_ite (agree_refl _) (agree_next (unbindFiles s) o)
  | resetInput => exact agree_next (resetRegisters s) o

theorem agree_step (hlen : s.cph = .running → o.length = s.outf.length) :
    AgreeButOutput (step s) (step (setOutput o s)) := by
  unfold step nextOperation
  rw [setOutput_agenda]
  cases s.agenda with
  | nil => exact agree_runSequencer hlen
  | cons a rest => exact agree_runAction (s := setAgenda rest s) hlen a

end

/-- Settles O50: of OUTF a step asks the length alone, which the invariant fixes during a run. -/
theorem outputFileIsNeverRead : Obligations.OutputFileIsNeverRead := by
  intro s t o hs ho hstep
  refine agree_step (fun hrun => ?_) t hstep
  exact (ho.running hrun).outFile.trans (hs.running hrun).outFile.symm

end Sys2Proof.Machine
end

section
/-! The chunk steps of a run whose primitives succeed (45 R244 to R247, R253, R261): together they transform the data that remains,
padded once at its end, in one chain, whatever CHUNK_BYTES is. -/

namespace Sys2Proof.Machine

/-! ## The data still to come -/

/-- The bytes of INF that the chunk steps still to come read. -/
def remainingData (s : State) : List Byte :=
  ((Memory.bytes s.inf).drop s.doneBytes.toNat).take (s.dataLen.toNat - s.doneBytes.toNat)

/-- The next chunk, and what remains after it. -/
theorem Running.remainingData_eq {s : State} (h : Running s) (hfile : s.inf.length < 2 ^ 63)
    (hlt : s.doneBytes.toNat < s.dataLen.toNat) :
    remainingData s = chunkBytesRead s ++ remainingData (afterChunk s) := by
  have hle := doneBytes_add_chunkCount_le hlt
  have hsplit : s.dataLen.toNat - s.doneBytes.toNat =
      chunkCount s + (s.dataLen.toNat - (s.doneBytes.toNat + chunkCount s)) := by omega
  rw [remainingData, hsplit, List.take_add, List.drop_drop, remainingData, h.doneBytes_afterChunk hfile hlt,
    afterChunk_inf, afterChunk_dataLen, chunkBytesRead, Memory.slice_eq]

/-- Padding whole blocks followed by more bytes pads the bytes that follow. -/
theorem padBlocks_append {a : List Byte} (ha : a.length % 8 = 0) (b : List Byte) : padBlocks (a ++ b) = a ++ padBlocks b := by
  rw [padBlocks, padBlocks, List.length_append, roundup8_add ha, Nat.add_sub_add_left, List.append_assoc]

theorem padBlocks_of_mod {a : List Byte} (ha : a.length % 8 = 0) : padBlocks a = a := by
  rw [padBlocks, roundup8_of_mod _ ha, Nat.sub_self, List.replicate_zero, List.append_nil]

/-- A stream is padded at its end alone: a chunk before the end is whole blocks (20 R74). -/
theorem blocksOf_padBlocks_append {a b : List Byte} (h : a.length % 8 = 0 ∨ b = []) :
    blocksOf (padBlocks (a ++ b)) = blocksOf (padBlocks a) ++ blocksOf (padBlocks b) := by
  obtain ha | rfl := h
  · rw [padBlocks_append ha, padBlocks_of_mod ha]
    exact blocksOf_append (a.length / 8) a _ (by omega)
  · rw [List.append_nil]
    exact (List.append_nil _).symm

theorem Running.chunk_whole_or_last {s : State} (h : Running s) (hfile : s.inf.length < 2 ^ 63)
    (hlt : s.doneBytes.toNat < s.dataLen.toNat) :
    (chunkBytesRead s).length % 8 = 0 ∨ remainingData (afterChunk s) = [] := by
  rw [h.chunkBytesRead_length hlt]
  by_cases hlast : s.dataLen.toNat - s.doneBytes.toNat ≤ s.chunkBytes
  · have hcount : chunkCount s = s.dataLen.toNat - s.doneBytes.toNat := Nat.min_eq_right hlast
    have hnone : s.dataLen.toNat - (s.doneBytes.toNat + chunkCount s) = 0 := by omega
    right
    rw [remainingData, h.doneBytes_afterChunk hfile hlt, afterChunk_dataLen, hnone, List.take_zero]
  · have hcount : chunkCount s = s.chunkBytes := Nat.min_eq_left (by omega)
    rw [hcount]
    exact .inl (chunkBytes_mod s)

/-! ## The oracle's answers -/

/-- The answers to come depend on the script and the counter alone (D19). -/
theorem ioSucceeds_congr (n : Nat) {s t : State} (hscript : t.ioScript = s.ioScript) (hdraws : t.draws = s.draws)
    (h : ioSucceeds n s) : ioSucceeds n t := by
  induction n generalizing s t with
  | zero => trivial
  | succ n ih =>
    obtain ⟨hnext, hrest⟩ := h
    refine ⟨(ioAnswer_congr s t hscript hdraws).trans hnext, ih ?_ ?_ hrest⟩
    · rw [afterIo_ioScript, afterIo_ioScript, hscript]
    · rw [afterIo_draws, afterIo_draws, hscript, hdraws]

/-! ## All the chunk steps -/

/-- The blocks a run's chunk steps still have to write, and the CHAIN they leave. -/
def remainingTransform (s : State) : List Block × Block :=
  transformBlocks s.cfg.mode s.cfg.dir s.sk s.chain (blocksOf (padBlocks (remainingData s)))

/-- `t` is `s` with all its data transformed and written, and nothing else of the run changed. -/
structure DataDone (s t : State) : Prop where
  running : Running t
  cph : t.cph = .running
  cflags : t.cflags = s.cflags
  cfg : t.cfg = s.cfg
  sk : t.sk = s.sk
  inf : t.inf = s.inf
  dataLen : t.dataLen = s.dataLen
  cres : t.cres = s.cres
  finalSize : t.finalSize = s.finalSize
  doneBytes : t.doneBytes = t.dataLen
  outf : Memory.bytes t.outf = Memory.bytes s.outf ++ bytesOf (remainingTransform s).1
  chain : t.chain = (remainingTransform s).2

theorem runSequencer_chunk {s : State} (hrun : s.cph = .running) (hreq : s.cflags.cancelReq = false)
    (hlt : s.doneBytes.toNat < s.dataLen.toNat) : runSequencer s = chunkStep s := by
  rw [runSequencer_of_running hrun, seqStep, hreq, if_neg Bool.false_ne_true, if_pos hlt]

/-- The transform of what remains is the chunk's and then the rest's, in the chain the chunk leaves (45 R261). -/
theorem Running.remainingTransform_eq {s : State} (h : Running s) (hfile : s.inf.length < 2 ^ 63)
    (hlt : s.doneBytes.toNat < s.dataLen.toNat) :
    remainingTransform s = ((chunkTransform (chunkBytesRead s) s).1 ++ (remainingTransform (afterChunk s)).1,
      (remainingTransform (afterChunk s)).2) := by
  rw [remainingTransform, h.remainingData_eq hfile hlt, blocksOf_padBlocks_append (h.chunk_whole_or_last hfile hlt),
    transformBlocks_append]
  simp [remainingTransform, chunkTransform]

theorem DataDone.of_afterChunk {s t : State} (h : Running s) (hfile : s.inf.length < 2 ^ 63)
    (hlt : s.doneBytes.toNat < s.dataLen.toNat) (ht : DataDone (afterChunk s) t) : DataDone s t where
  running := ht.running
  cph := ht.cph
  cflags := by simpa using ht.cflags
  cfg := by simpa using ht.cfg
  sk := by simpa using ht.sk
  inf := by simpa using ht.inf
  dataLen := by simpa using ht.dataLen
  cres := by simpa using ht.cres
  finalSize := by simpa using ht.finalSize
  doneBytes := ht.doneBytes
  outf := by
    rw [ht.outf, h.remainingTransform_eq hfile hlt, bytesOf_append, afterChunk_outf, Memory.bytes_append, List.append_assoc]
  chain := by rw [ht.chain, h.remainingTransform_eq hfile hlt]

/-- With nothing left the run is where its chunk steps end. -/
theorem DataDone.of_done {s : State} (h : Running s) (hrun : s.cph = .running) (hdone : s.doneBytes = s.dataLen) :
    DataDone s s := by
  have hnothing : remainingTransform s = ([], s.chain) := by
    rw [remainingTransform, remainingData, hdone, Nat.sub_self, List.take_zero]
    rfl
  exact {
    running := h, cph := hrun, cflags := rfl, cfg := rfl, sk := rfl, inf := rfl, dataLen := rfl, cres := rfl
    finalSize := rfl, doneBytes := hdone
    outf := by simp [hnothing, bytesOf]
    chain := by rw [hnothing] }

/-- The chunk steps of a run with `n` of them to go, all primitives succeeding (45 R256). -/
theorem seqRun_chunks (n j : Nat) {s : State} (h : Running s) (hrun : s.cph = .running) (hreq : s.cflags.cancelReq = false)
    (hfile : s.inf.length < 2 ^ 63) (hle : s.doneBytes.toNat ≤ s.dataLen.toNat)
    (hsteps : chunkSteps s (s.dataLen.toNat - s.doneBytes.toNat) = n) (hio : ioSucceeds (2 * n + j) s) :
    ∃ t, DataDone s t ∧ ioSucceeds j t ∧ ∀ k, seqRun (n + k) s = seqRun k t := by
  induction n generalizing s with
  | zero =>
    have hdone : s.doneBytes = s.dataLen := by
      by_contra hne
      have hlt : s.doneBytes.toNat < s.dataLen.toNat := Nat.lt_of_le_of_ne hle fun e => hne (BitVec.eq_of_toNat_eq e)
      rw [h.chunkSteps_afterChunk hfile hlt] at hsteps
      exact Nat.succ_ne_zero _ hsteps
    refine ⟨s, .of_done h hrun hdone, ?_, fun k => by rw [Nat.zero_add]⟩
    simpa using hio
  | succ n ih =>
    have hlt : s.doneBytes.toNat < s.dataLen.toNat := by
      by_contra hge
      rw [Nat.sub_eq_zero_of_le (Nat.not_lt.1 hge), chunkSteps_zero] at hsteps
      exact absurd hsteps (Nat.succ_ne_zero n).symm
    rw [h.chunkSteps_afterChunk hfile hlt] at hsteps
    have htwo : 2 * (n + 1) + j = 2 * n + j + 2 := by omega
    rw [htwo] at hio
    obtain ⟨hread, hwrite, hrest⟩ := hio
    have hnext := doneBytes_add_chunkCount_le hlt
    rw [← h.doneBytes_afterChunk hfile hlt] at hnext
    obtain ⟨t, hdone, hioT, hruns⟩ := ih (s := afterChunk s) (running_afterChunk h hfile hlt) (by simpa using hrun)
      (by simpa using hreq) (by simpa using hfile) (by simpa using hnext) (Nat.succ_injective hsteps)
      (ioSucceeds_congr _ (afterChunk_ioScript s) (afterChunk_draws s) hrest)
    refine ⟨t, hdone.of_afterChunk h hfile hlt, hioT, fun k => ?_⟩
    rw [Nat.add_right_comm, seqRun, runSequencer_chunk hrun hreq hlt, h.chunkStep_eq hlt hread hwrite]
    exact hruns k

end Sys2Proof.Machine
end

section
/-! Whole runs (45 R253 to R262): a CSTART, the chunk steps and the suffix step, all primitives succeeding; what such a run leaves
is a function of the mode, the key and the input file. -/

namespace Sys2Proof.Machine

/-! ## From the start to the last chunk -/

/-- A run just started, with the lengths of 45 R235, R236. -/
abbrev startedRun (d : Dir) (m : Mode) (dataLen outLen : Len) (s : State) : State :=
  startRun (setDataLen dataLen outLen (loadMode d m (opened (afterIo (clearRun d m s)))))

theorem startedRun_draws (d : Dir) (m : Mode) (dataLen outLen : Len) (s : State) :
    (startedRun d m dataLen outLen s).draws = (afterIo s).draws := by
  simp
  rfl

theorem exec_cstart_enc_started (m : Mode) {s : State} (hs : s.cph ≠ .running) (hbound : s.bound = true)
    (hlimit : s.inf.length < 2 ^ 63) (hio : ioAnswer s = true) (hkey : s.keyv = 0xFF) :
    exec (.cstart .enc m) s = .next (startedRun .enc m (BitVec.ofNat 64 s.inf.length)
      (BitVec.ofNat 64 (roundup8 s.inf.length)) s) := by
  have hin : (BitVec.ofNat 64 s.inf.length).toNat = s.inf.length := Len.toNat_ofNat (by omega)
  have hstart := exec_cstart_enc_of_open m hs hbound hlimit hio hkey
  simpa [startedEnc, -BitVec.toNat_ofNat, hin] using hstart

/-- When decrypting, a file of whole blocks passes the two checks on its length (45 R236). -/
theorem exec_cstart_dec_started (m : Mode) {s : State} (hs : s.cph ≠ .running) (hbound : s.bound = true)
    (hlimit : s.inf.length < 2 ^ 63) (hio : ioAnswer s = true) (hkey : s.keyv = 0xFF) (hne : s.inf.length ≠ 0)
    (hmod : s.inf.length % 8 = 0) :
    exec (.cstart .dec m) s = .next (startedRun .dec m (BitVec.ofNat 64 s.inf.length - 8)
      (BitVec.ofNat 64 s.inf.length - 8) s) := by
  have hin : (BitVec.ofNat 64 s.inf.length).toNat = s.inf.length := Len.toNat_ofNat (by omega)
  rw [exec_cstart_of_open .dec m hs hbound hlimit hio hkey, setLengths]
  simp [-BitVec.toNat_ofNat, hin, hne, hmod]

/-- What a run's data, once written, is: the transform of the first `n` bytes of the file, from the key-derived IV. -/
def dataTransform (d : Dir) (m : Mode) (k : Key) (bytes : List Byte) : List Block × Block :=
  transformBlocks m d (modeSchedule d m k) (ivOf k) (blocksOf (padBlocks bytes))

/-- A run whose primitives all succeed, after its chunk steps (45 R256). -/
structure Written (d : Dir) (m : Mode) (dataLen : Len) (s t : State) : Prop where
  running : Running t
  cph : t.cph = .running
  cancelReq : t.cflags.cancelReq = false
  cdir : t.cflags.cdir = d
  cfg : t.cfg = { mode := m, dir := d, modev := true, skdir := scheduleDir d m, skv := true }
  sk : t.sk = modeSchedule d m s.key
  inf : t.inf = s.inf
  dataLenEq : t.dataLen = dataLen
  cres : t.cres = .none
  finalSize : t.finalSize = 0
  doneBytes : t.doneBytes = dataLen
  outf : Memory.bytes t.outf = bytesOf (dataTransform d m s.key ((Memory.bytes s.inf).take dataLen.toNat)).1
  chain : t.chain = (dataTransform d m s.key ((Memory.bytes s.inf).take dataLen.toNat)).2

theorem seqRun_written {d : Dir} {m : Mode} {dataLen outLen : Len} {s : State} (j : Nat)
    (hrunning : Running (startedRun d m dataLen outLen s)) (hfile : s.inf.length < 2 ^ 63)
    (hio : ioSucceeds (2 * chunkSteps s dataLen.toNat + j + 1) s) :
    ∃ t, Written d m dataLen s t ∧ ioSucceeds j t ∧
      ∀ k, seqRun (chunkSteps s dataLen.toNat + k) (startedRun d m dataLen outLen s) = seqRun k t := by
  have hsteps : chunkSteps (startedRun d m dataLen outLen s) dataLen.toNat = chunkSteps s dataLen.toNat := by
    simp [chunkSteps, State.chunkBytes]
  have hrest : ioSucceeds (2 * chunkSteps s dataLen.toNat + j) (startedRun d m dataLen outLen s) :=
    ioSucceeds_congr _ (by simp) (startedRun_draws d m dataLen outLen s) hio.2
  have hdata : remainingTransform (startedRun d m dataLen outLen s) =
      dataTransform d m s.key ((Memory.bytes s.inf).take dataLen.toNat) := by
    simp [remainingTransform, remainingData, dataTransform]
  obtain ⟨t, ht, hioT, hruns⟩ := seqRun_chunks _ j hrunning (by simp) (by simp) (by simpa using hfile) (by simp)
    (by simpa using hsteps) hrest
  refine ⟨t, ?_, hioT, hruns⟩
  exact {
    running := ht.running
    cph := ht.cph
    cancelReq := by simp [ht.cflags]
    cdir := by simp [ht.cflags]
    cfg := by simp [ht.cfg]
    sk := by simp [ht.sk]
    inf := by simp [ht.inf]
    dataLenEq := by simp [ht.dataLen]
    cres := by simp [ht.cres]
    finalSize := by simp [ht.finalSize]
    doneBytes := by simp [ht.doneBytes, ht.dataLen]
    outf := by simp [ht.outf, hdata]
    chain := by simp [ht.chain, hdata] }

/-! ## An encrypt run -/

theorem suffixStepEnc_of_success {s : State} (hlen : s.inLen.toNat ≤ 2 ^ 45 - 1) (hio : ioAnswer s = true) :
    suffixStepEnc s = .next (succeed (countSuffix
      (setOutput (Memory.append s.outf (runXform (packLen s.inLen.toNat) s).1.toList)
        (afterIo (setChain (runXform (packLen s.inLen.toNat) s).2 s))))) := by
  obtain ⟨hlong, -⟩ | ⟨-, -, e⟩ | ⟨-, hfail, -⟩ := suffixStepEnc_cases s
  · exact absurd hlen (Nat.not_le.2 hlong)
  · exact e
  · exact absurd (hio.symm.trans hfail) nofun

/-- One more block in the same chain. -/
theorem transformBlocks_concat (m : Mode) (d : Dir) (sk : Schedule) (chain : Block) (bs : List Block) (b : Block) :
    transformBlocks m d sk chain (bs ++ [b]) =
      ((transformBlocks m d sk chain bs).1 ++ [(modeXform m d sk (transformBlocks m d sk chain bs).2 b).1],
        (modeXform m d sk (transformBlocks m d sk chain bs).2 b).2) := by
  rw [transformBlocks_append]
  rfl

/-- What a successful encrypt run leaves of a file (45 R253, R254). -/
structure Encrypted (m : Mode) (k : Key) (plain : List Byte) (t : State) : Prop where
  cph : t.cph = .succeeded
  cres : t.cres = .none
  outf : Memory.bytes t.outf = cryptogram m k plain
  finalSize : t.finalSize.toNat = (cryptogram m k plain).length
  chain : t.chain = (transformBlocks m .enc (modeSchedule .enc m k) (ivOf k)
    (blocksOf (padBlocks plain) ++ [packLen plain.length])).2

theorem Written.encrypted {m : Mode} {s t : State} (ht : Written .enc m (BitVec.ofNat 64 s.inf.length) s t)
    (hlen : s.inf.length ≤ 2 ^ 45 - 1) (hio : ioAnswer t = true) :
    ∃ u, runSequencer t = .next u ∧ Encrypted m s.key (Memory.bytes s.inf) u := by
  have hin : t.inLen.toNat = s.inf.length := ht.running.inLen.trans (congrArg List.length ht.inf)
  have hdata : (BitVec.ofNat 64 s.inf.length).toNat = s.inf.length := Len.toNat_ofNat (by omega)
  have hall : (Memory.bytes s.inf).take s.inf.length = Memory.bytes s.inf :=
    List.take_of_length_le (Memory.bytes_length s.inf).le
  have hout := ht.outf
  have hchain := ht.chain
  rw [hdata, hall] at hout hchain
  have hxform : runXform (packLen s.inf.length) t =
      modeXform m .enc (modeSchedule .enc m s.key) (dataTransform .enc m s.key (Memory.bytes s.inf)).2
        (packLen s.inf.length) := by
    rw [runXform, ht.cfg, ht.sk, hchain]
  have hpos : t.outPos.toNat = roundup8 s.inf.length := by
    rw [ht.running.outPos, ht.doneBytes, hdata]
  have hpad := roundup8_lt_add s.inf.length
  have hturn := runSequencer_suffixEnc ht.cph ht.cancelReq (by rw [ht.dataLenEq, ht.doneBytes]) ht.cdir
  rw [suffixStepEnc_of_success (by omega) hio, hin, hxform] at hturn
  refine ⟨_, hturn, rfl, rfl, ?_, ?_, ?_⟩
  · simp [hout, cryptogram, transformBlocks_concat, bytesOf_append, bytesOf, dataTransform]
  · rw [cryptogram_length, Memory.bytes_length]
    show (t.outPos + BitVec.ofNat 64 8).toNat = _
    rw [Len.toNat_add_ofNat (by omega), hpos]
  · simp [transformBlocks_concat, dataTransform]

theorem encryptRun (m : Mode) {s : State} (hs : s.cph ≠ .running) (hbound : s.bound = true) (hkey : s.keyv = 0xFF)
    (hlen : s.inf.length ≤ 2 ^ 45 - 1) (hio : ioSucceeds (2 * chunkSteps s s.inf.length + 2) s) :
    ∃ t, codecRun .enc m (chunkSteps s s.inf.length + 1) s = .next t ∧ Encrypted m s.key (Memory.bytes s.inf) t := by
  have hfile : s.inf.length < 2 ^ 63 := by omega
  have hdata : (BitVec.ofNat 64 s.inf.length).toNat = s.inf.length := Len.toNat_ofNat (by omega)
  have hrunning : Running (startedRun .enc m (BitVec.ofNat 64 s.inf.length) (BitVec.ofNat 64 (roundup8 s.inf.length)) s) :=
    running_start hfile hbound hkey (fun _ => hdata) nofun (by rw [hdata, Len.toNat_ofNat (roundup8_lt hfile)])
  obtain ⟨t, ht, hioT, hruns⟩ := seqRun_written 1 hrunning hfile (by rwa [hdata])
  obtain ⟨u, hturn, hu⟩ := ht.encrypted hlen hioT.1
  refine ⟨u, ?_, hu⟩
  rw [hdata] at hruns
  rw [codecRun, exec_cstart_enc_started m hs hbound hfile hio.1 hkey, andThen, hruns 1, seqRun, hturn]
  rfl

/-- Settles O56: the run leaves the cryptogram, whose length is the padded data's and the suffix's. -/
theorem encryptRunWritesCryptogram : Obligations.EncryptRunWritesCryptogram := by
  intro m s hs hbound hkey hlen hio
  obtain ⟨t, hrun, ht⟩ := encryptRun m hs hbound hkey hlen hio
  have houtLen : t.outf.length = (cryptogram m s.key (Memory.bytes s.inf)).length := by
    rw [← ht.outf, Memory.bytes_length]
  refine ⟨t, hrun, ht.cph, ht.outf, ht.finalSize.trans houtLen.symm, ?_⟩
  rw [houtLen, cryptogram_length, Memory.bytes_length, roundup8]

end Sys2Proof.Machine
end

section
/-! The decrypt suffix step and whole decrypt runs (45 R249 to R262). -/

namespace Sys2Proof.Machine

/-! ## The trailing block -/

/-- The trailing block of a decrypt run's file (45 R249). -/
def trailingBlock (s : State) : Block := blockOfBytes (Memory.slice s.inf s.dataLen.toNat 8)

theorem blockOfBytes_toList (b : Block) : blockOfBytes b.toList = b := by
  have h := blocksOf_cons b []
  rw [List.append_nil] at h
  rw [blockOfBytes, h, List.headD_cons]

theorem runSequencer_suffixDec {s : State} (hrun : s.cph = .running) (hreq : s.cflags.cancelReq = false)
    (hdone : s.dataLen.toNat ≤ s.doneBytes.toNat) (hdec : s.cflags.cdir = .dec) : runSequencer s = suffixStepDec s := by
  rw [runSequencer_of_running hrun, seqStep, hreq, if_neg Bool.false_ne_true, if_neg (by omega), hdec, if_neg nofun]

theorem Running.suffix_in_file {s : State} (h : Running s) (hdec : s.cflags.cdir = .dec) :
    s.dataLen.toNat + 8 = s.inf.length := by
  obtain ⟨-, -, hdata⟩ := h.dataLenDec hdec
  rw [hdata, h.inLen]

theorem Running.suffixStepDec_read {s : State} (h : Running s) (hdec : s.cflags.cdir = .dec) (hio : ioAnswer s = true) :
    suffixStepDec s = checkSuffix (trailingBlock s) (afterIo s) := by
  have hfile := h.suffix_in_file hdec
  obtain ⟨-, -, e⟩ | ⟨-, hfail, -⟩ | ⟨hout, -⟩ := suffixStepDec_cases s
  · exact e
  · exact absurd (hio.symm.trans hfail) nofun
  · omega

/-! ## The four outcomes (45 R250, R251) -/

theorem checkSuffix_of_none {b : Block} {s : State} (h : unpackLen (runXform b s).1 = none) :
    checkSuffix b s = .next (codecFail .malformedCryptogram (setChain (runXform b s).2 s)) := by
  rw [checkSuffix, h]

theorem checkSuffix_of_some {b : Block} {s : State} {l : Nat} (h : unpackLen (runXform b s).1 = some l) :
    checkSuffix b s = finishDecrypt l (setChain (runXform b s).2 s) := by
  rw [checkSuffix, h]

theorem finishDecrypt_of_not_accepted {l : Nat} {s : State} (h : lengthAccepted l s.dataLen.toNat = false) :
    finishDecrypt l s = .next (codecFail .malformedCryptogram s) := by
  rw [finishDecrypt, h, if_neg Bool.false_ne_true]

theorem finishDecrypt_of_whole {l : Nat} {s : State} (h : lengthAccepted l s.dataLen.toNat = true)
    (hl : s.outLen.toNat ≤ l) : finishDecrypt l s = .next (succeed (setFinalSize (BitVec.ofNat 64 l) s)) := by
  rw [finishDecrypt, h, if_pos rfl, if_neg (Nat.not_lt.2 hl)]

theorem finishDecrypt_of_cut {l : Nat} {s : State} (h : lengthAccepted l s.dataLen.toNat = true)
    (hl : l < s.outLen.toNat) (hfile : l ≤ s.outf.length) (hio : ioAnswer s = true) :
    finishDecrypt l s = .next (succeed (setFinalSize (BitVec.ofNat 64 l)
      (setOutput (Memory.truncate s.outf l) (afterIo s)))) := by
  rw [finishDecrypt, h, if_pos rfl, if_pos hl, outTruncate, if_pos hfile, if_pos hio]

theorem finishDecrypt_of_cut_failed {l : Nat} {s : State} (h : lengthAccepted l s.dataLen.toNat = true)
    (hl : l < s.outLen.toNat) (hfile : l ≤ s.outf.length) (hio : ioAnswer s = false) :
    finishDecrypt l s = .next (codecFail .ioFailure (loseOutput (afterIo s))) := by
  rw [finishDecrypt, h, if_pos rfl, if_pos hl, outTruncate, if_pos hfile, hio, if_neg Bool.false_ne_true, ioFailure]

/-- Where the data is all written, OUTF is as long as the padded data (45 R246). -/
theorem Running.outf_length {s : State} (h : Running s) (hdone : s.doneBytes = s.dataLen) :
    s.outf.length = roundup8 s.dataLen.toNat := by
  rw [h.outFile, h.outPos, hdone]

theorem Running.dataLen_mod {s : State} (h : Running s) (hdec : s.cflags.cdir = .dec) : s.dataLen.toNat % 8 = 0 := by
  obtain ⟨-, hmod, hdata⟩ := h.dataLenDec hdec
  omega

/-! ## What a decrypt run leaves -/

/-- What a decrypt run leaves of a file (45 R249 to R251): the plaintext, or the failure with the data blocks in OUTF. -/
structure Decrypted (m : Mode) (k : Key) (file : List Byte) (t : State) : Prop where
  success : ∀ p, plaintextOf m k file = some p →
    t.cph = .succeeded ∧ t.cres = .none ∧ Memory.bytes t.outf = p ∧ t.finalSize.toNat = p.length
  failure : plaintextOf m k file = none →
    t.cph = .failed ∧ t.cres = .malformedCryptogram ∧ t.finalSize = 0 ∧
      Memory.bytes t.outf = bytesOf (dataTransform .dec m k (file.take (file.length - 8))).1
  chain : t.chain = (transformBlocks m .dec (modeSchedule .dec m k) (ivOf k) (blocksOf file)).2

theorem blocksOf_eq_singleton {bytes : List Byte} (h : bytes.length = 8) : blocksOf bytes = [blockOfBytes bytes] := by
  match bytes, h with
  | [_, _, _, _, _, _, _, _], _ => rfl

/-- The last block of a file of whole blocks, taken apart from the rest. -/
theorem blocksOf_eq_concat {file : List Byte} {n : Nat} (hn : n % 8 = 0) (hlen : n + 8 = file.length) :
    blocksOf file = blocksOf (padBlocks (file.take n)) ++ [blockOfBytes ((file.drop n).take 8)] := by
  have htake : (file.take n).length = n := by simp [← hlen]
  have hdrop : (file.drop n).length = 8 := by simp [← hlen]
  have hrest : (file.drop n).take 8 = file.drop n := List.take_of_length_le hdrop.le
  rw [padBlocks_of_mod (by rwa [htake]), hrest, ← blocksOf_eq_singleton hdrop,
    ← blocksOf_append (n / 8) _ _ (by omega), List.take_append_drop]

/-- The transform of a whole file, its last block apart (45 R249). -/
theorem transformBlocks_file (m : Mode) (k : Key) {file : List Byte} {n : Nat} (hn : n % 8 = 0) (hlen : n + 8 = file.length) :
    transformBlocks m .dec (modeSchedule .dec m k) (ivOf k) (blocksOf file) =
      ((dataTransform .dec m k (file.take n)).1 ++ [(modeXform m .dec (modeSchedule .dec m k)
          (dataTransform .dec m k (file.take n)).2 (blockOfBytes ((file.drop n).take 8))).1],
        (modeXform m .dec (modeSchedule .dec m k)
          (dataTransform .dec m k (file.take n)).2 (blockOfBytes ((file.drop n).take 8))).2) := by
  rw [blocksOf_eq_concat hn hlen, transformBlocks_concat]
  rfl

theorem dataTransform_length (d : Dir) (m : Mode) (k : Key) {bytes : List Byte} (h : bytes.length % 8 = 0) :
    (bytesOf (dataTransform d m k bytes).1).length = bytes.length := by
  rw [bytesOf_length, dataTransform, transformBlocks_length, padBlocks_of_mod h,
    blocksOf_length (bytes.length / 8) bytes (by omega)]
  omega

/-- The plaintext is cut from the data blocks, by the length the last block gives (45 R250, R251). -/
theorem plaintextOf_eq (m : Mode) (k : Key) {file : List Byte} {n : Nat} (hn : n % 8 = 0) (hlen : n + 8 = file.length) :
    plaintextOf m k file =
      match unpackLen (modeXform m .dec (modeSchedule .dec m k) (dataTransform .dec m k (file.take n)).2
        (blockOfBytes ((file.drop n).take 8))).1 with
      | none => none
      | some l => if lengthAccepted l n then some ((bytesOf (dataTransform .dec m k (file.take n)).1).take l) else none := by
  have htake : (file.take n).length = n := by simp [← hlen]
  have hdata := dataTransform_length .dec m k (bytes := file.take n) (by rwa [htake])
  have hsub : file.length - 8 = n := by omega
  rw [plaintextOf, decryptedBlocks, transformBlocks_file m k hn hlen, List.getLastD_concat, hsub]
  cases unpackLen (modeXform m .dec (modeSchedule .dec m k) (dataTransform .dec m k (file.take n)).2
    (blockOfBytes ((file.drop n).take 8))).1 with
  | none => rfl
  | some l =>
    show (if lengthAccepted l n = true then _ else _) = if lengthAccepted l n = true then _ else _
    by_cases hacc : lengthAccepted l n = true
    · have hle := ((lengthAccepted_iff l n).1 hacc).1
      rw [if_pos hacc, if_pos hacc, bytesOf_append, List.take_append_of_le_length (by omega)]
    · rw [if_neg hacc, if_neg hacc]

/-- The length of the data of a decrypt run, and its file's. -/
theorem Written.dec_lengths {m : Mode} {dataLen : Len} {s t : State} (ht : Written .dec m dataLen s t) :
    dataLen.toNat % 8 = 0 ∧ dataLen.toNat + 8 = (Memory.bytes s.inf).length := by
  have hmod := ht.running.dataLen_mod ht.cdir
  have hlen := ht.running.suffix_in_file ht.cdir
  rw [ht.dataLenEq] at hmod hlen
  rw [ht.inf, ← Memory.bytes_length] at hlen
  exact ⟨hmod, hlen⟩

/-- The decrypted trailing block, in the chain of the data (45 R249). -/
theorem Written.runXform_trailingBlock {m : Mode} {dataLen : Len} {s t : State} (ht : Written .dec m dataLen s t) :
    runXform (trailingBlock t) (afterIo t) = modeXform m .dec (modeSchedule .dec m s.key)
      (dataTransform .dec m s.key ((Memory.bytes s.inf).take dataLen.toNat)).2
      (blockOfBytes (((Memory.bytes s.inf).drop dataLen.toNat).take 8)) := by
  rw [runXform, trailingBlock, Memory.slice_eq, ht.dataLenEq, ht.inf, afterIo_cfg, afterIo_sk, afterIo_chain, ht.cfg, ht.sk,
    ht.chain]

theorem Written.chain_eq {m : Mode} {dataLen : Len} {s t : State} (ht : Written .dec m dataLen s t) :
    (runXform (trailingBlock t) (afterIo t)).2 =
      (transformBlocks m .dec (modeSchedule .dec m s.key) (ivOf s.key) (blocksOf (Memory.bytes s.inf))).2 := by
  obtain ⟨hmod, hlen⟩ := ht.dec_lengths
  rw [ht.runXform_trailingBlock, transformBlocks_file m s.key hmod hlen]

theorem Written.decrypted_malformed {m : Mode} {dataLen : Len} {s t : State} (ht : Written .dec m dataLen s t)
    (hplain : plaintextOf m s.key (Memory.bytes s.inf) = none) :
    Decrypted m s.key (Memory.bytes s.inf)
      (codecFail .malformedCryptogram (setChain (runXform (trailingBlock t) (afterIo t)).2 (afterIo t))) where
  success p hp := absurd (hplain.symm.trans hp) nofun
  failure _ := by
    obtain ⟨-, hlen⟩ := ht.dec_lengths
    have hsub : (Memory.bytes s.inf).length - 8 = dataLen.toNat := by omega
    rw [hsub, ← ht.outf]
    exact ⟨rfl, rfl, by simp [ht.finalSize], by simp⟩
  chain := ht.chain_eq

theorem Written.decrypted_succeed {m : Mode} {dataLen : Len} {s t v : State} {l : Nat} (ht : Written .dec m dataLen s t)
    (hlen : (Memory.bytes v.outf).length = l) (hl : l < 2 ^ 64)
    (hplain : plaintextOf m s.key (Memory.bytes s.inf) = some (Memory.bytes v.outf))
    (hchain : v.chain = (runXform (trailingBlock t) (afterIo t)).2) :
    Decrypted m s.key (Memory.bytes s.inf) (succeed (setFinalSize (BitVec.ofNat 64 l) v)) where
  success p hp := by
    obtain rfl := Option.some_inj.1 (hplain.symm.trans hp)
    exact ⟨rfl, rfl, rfl, (Len.toNat_ofNat hl).trans hlen.symm⟩
  failure hp := absurd (hplain.symm.trans hp) nofun
  chain := by simpa [hchain] using ht.chain_eq

/-- The decrypt suffix step after all the data is written, its primitives succeeding. -/
theorem Written.decrypted {m : Mode} {dataLen : Len} {s t : State} (ht : Written .dec m dataLen s t)
    (hio : ioSucceeds 2 t) :
    ∃ u, runSequencer t = .next u ∧ Decrypted m s.key (Memory.bytes s.inf) u := by
  obtain ⟨hmod, hlen⟩ := ht.dec_lengths
  have hturn := runSequencer_suffixDec ht.cph ht.cancelReq (by rw [ht.dataLenEq, ht.doneBytes]) ht.cdir
  rw [ht.running.suffixStepDec_read ht.cdir hio.1] at hturn
  have hplain := plaintextOf_eq m s.key hmod hlen
  rw [← ht.runXform_trailingBlock, ← ht.outf] at hplain
  have hout : t.outf.length = dataLen.toNat := by
    rw [ht.running.outf_length (ht.doneBytes.trans ht.dataLenEq.symm), ht.dataLenEq, roundup8_of_mod _ hmod]
  have houtLen : t.outLen.toNat = dataLen.toNat := by
    rw [ht.running.outLen, ht.dataLenEq, roundup8_of_mod _ hmod]
  rw [Memory.bytes_length] at hlen
  cases hsuffix : unpackLen (runXform (trailingBlock t) (afterIo t)).1 with
  | none =>
    rw [hsuffix] at hplain
    rw [checkSuffix_of_none hsuffix] at hturn
    exact ⟨_, hturn, ht.decrypted_malformed hplain⟩
  | some l =>
    simp only [hsuffix] at hplain
    rw [checkSuffix_of_some hsuffix] at hturn
    cases hacc : lengthAccepted l dataLen.toNat with
    | false =>
      rw [hacc, if_neg Bool.false_ne_true] at hplain
      rw [finishDecrypt_of_not_accepted (by simpa [ht.dataLenEq] using hacc)] at hturn
      exact ⟨_, hturn, ht.decrypted_malformed hplain⟩
    | true =>
      rw [hacc, if_pos rfl] at hplain
      obtain ⟨hle, -⟩ := (lengthAccepted_iff _ _).1 hacc
      have hcut : ((Memory.bytes t.outf).take l).length = l := by simp [hout, hle]
      have hacc' : lengthAccepted l (setChain (runXform (trailingBlock t) (afterIo t)).2 (afterIo t)).dataLen.toNat = true := by
        simpa [ht.dataLenEq] using hacc
      by_cases hl : l < dataLen.toNat
      · have hwrite : ioAnswer (setChain (runXform (trailingBlock t) (afterIo t)).2 (afterIo t)) = true :=
          (ioAnswer_congr (afterIo t) _ rfl rfl).trans hio.2.1
        rw [finishDecrypt_of_cut hacc' (by simpa [houtLen] using hl) (by simpa [hout] using hle) hwrite] at hturn
        exact ⟨_, hturn, ht.decrypted_succeed (by simpa using hcut) (by omega) (by simpa using hplain) (by simp)⟩
      · have hwhole : (Memory.bytes t.outf).take l = Memory.bytes t.outf := List.take_of_length_le (by simp [hout]; omega)
        rw [hwhole] at hplain hcut
        rw [finishDecrypt_of_whole hacc' (by simpa [houtLen] using hl)] at hturn
        exact ⟨_, hturn, ht.decrypted_succeed (by simpa using hcut) (by omega) (by simpa using hplain) (by simp)⟩

theorem decryptRun (m : Mode) {s : State} (hs : s.cph ≠ .running) (hbound : s.bound = true) (hkey : s.keyv = 0xFF)
    (hfile : s.inf.length < 2 ^ 63) (hne : s.inf.length ≠ 0) (hmod : s.inf.length % 8 = 0)
    (hio : ioSucceeds (2 * chunkSteps s (s.inf.length - 8) + 3) s) :
    ∃ t, codecRun .dec m (chunkSteps s (s.inf.length - 8) + 1) s = .next t ∧ Decrypted m s.key (Memory.bytes s.inf) t := by
  have hin : (BitVec.ofNat 64 s.inf.length).toNat = s.inf.length := Len.toNat_ofNat (by omega)
  have hdata : (BitVec.ofNat 64 s.inf.length - 8).toNat + 8 = s.inf.length := by
    rw [Len.toNat_sub_eight (by rwa [hin]) (by rwa [hin]), hin]
  have hsub : (BitVec.ofNat 64 s.inf.length - 8).toNat = s.inf.length - 8 := by omega
  have hrunning : Running (startedRun .dec m (BitVec.ofNat 64 s.inf.length - 8) (BitVec.ofNat 64 s.inf.length - 8) s) :=
    running_start hfile hbound hkey nofun (fun _ => ⟨Nat.pos_of_ne_zero hne, hmod, hdata⟩)
      (roundup8_of_mod _ (by omega)).symm
  obtain ⟨t, ht, hioT, hruns⟩ := seqRun_written 2 hrunning hfile (by rwa [hsub])
  obtain ⟨u, hturn, hu⟩ := ht.decrypted hioT
  refine ⟨u, ?_, hu⟩
  rw [hsub] at hruns
  rw [codecRun, exec_cstart_dec_started m hs hbound hfile hio.1 hkey hne hmod, andThen, hruns 1, seqRun, hturn]
  rfl

theorem encrypted_of_run {m : Mode} {s t : State} (hs : s.cph ≠ .running) (hbound : s.bound = true) (hkey : s.keyv = 0xFF)
    (hlen : s.inf.length ≤ 2 ^ 45 - 1) (hio : ioSucceeds (2 * chunkSteps s s.inf.length + 2) s)
    (hrun : codecRun .enc m (chunkSteps s s.inf.length + 1) s = .next t) : Encrypted m s.key (Memory.bytes s.inf) t := by
  obtain ⟨u, hrunU, hu⟩ := encryptRun m hs hbound hkey hlen hio
  rw [hrun] at hrunU
  cases hrunU
  exact hu

theorem decrypted_of_run {m : Mode} {s t : State} (hs : s.cph ≠ .running) (hbound : s.bound = true) (hkey : s.keyv = 0xFF)
    (hfile : s.inf.length < 2 ^ 63) (hne : s.inf.length ≠ 0) (hmod : s.inf.length % 8 = 0)
    (hio : ioSucceeds (2 * chunkSteps s (s.inf.length - 8) + 3) s)
    (hrun : codecRun .dec m (chunkSteps s (s.inf.length - 8) + 1) s = .next t) :
    Decrypted m s.key (Memory.bytes s.inf) t := by
  obtain ⟨u, hrunU, hu⟩ := decryptRun m hs hbound hkey hfile hne hmod hio
  rw [hrun] at hrunU
  cases hrunU
  exact hu

/-- What an encrypt run leaves is determined by the mode, the key and the file. -/
theorem Encrypted.unique {m : Mode} {k : Key} {plain : List Byte} {t t' : State} (h : Encrypted m k plain t)
    (h' : Encrypted m k plain t') :
    t'.cph = t.cph ∧ t'.cres = t.cres ∧ Memory.bytes t'.outf = Memory.bytes t.outf ∧ t'.finalSize = t.finalSize ∧
      t'.chain = t.chain :=
  ⟨h'.cph.trans h.cph.symm, h'.cres.trans h.cres.symm, h'.outf.trans h.outf.symm,
    BitVec.eq_of_toNat_eq (h'.finalSize.trans h.finalSize.symm), h'.chain.trans h.chain.symm⟩

/-- So is what a decrypt run leaves, whichever way it ends. -/
theorem Decrypted.unique {m : Mode} {k : Key} {file : List Byte} {t t' : State} (h : Decrypted m k file t)
    (h' : Decrypted m k file t') :
    t'.cph = t.cph ∧ t'.cres = t.cres ∧ Memory.bytes t'.outf = Memory.bytes t.outf ∧ t'.finalSize = t.finalSize ∧
      t'.chain = t.chain := by
  cases hplain : plaintextOf m k file with
  | some p =>
    obtain ⟨hcph, hcres, hout, hsize⟩ := h.success p hplain
    obtain ⟨hcph', hcres', hout', hsize'⟩ := h'.success p hplain
    exact ⟨hcph'.trans hcph.symm, hcres'.trans hcres.symm, hout'.trans hout.symm,
      BitVec.eq_of_toNat_eq (hsize'.trans hsize.symm), h'.chain.trans h.chain.symm⟩
  | none =>
    obtain ⟨hcph, hcres, hsize, hout⟩ := h.failure hplain
    obtain ⟨hcph', hcres', hsize', hout'⟩ := h'.failure hplain
    exact ⟨hcph'.trans hcph.symm, hcres'.trans hcres.symm, hout'.trans hout.symm, hsize'.trans hsize.symm,
      h'.chain.trans h.chain.symm⟩

/-! ## The statements -/

/-- Settles O57: the run leaves what the decrypted file's last block says. -/
theorem decryptRunRecoversPlaintext : Obligations.DecryptRunRecoversPlaintext := by
  intro m s hs hbound hkey hfile hne hmod hio
  obtain ⟨t, hrun, ht⟩ := decryptRun m hs hbound hkey hfile hne hmod hio
  refine ⟨t, hrun, fun p hp => ?_, fun hp => ?_⟩
  · obtain ⟨hcph, -, hout, hsize⟩ := ht.success p hp
    exact ⟨hcph, hout, hsize⟩
  · obtain ⟨hcph, hcres, -, -⟩ := ht.failure hp
    exact ⟨hcph, hcres⟩

/-- Settles O59: the first run leaves a cryptogram, whose plaintext is the first input file. -/
theorem fileRoundTrip : Obligations.FileRoundTrip := by
  intro m s t u hs hbound hkey hlen hio hrun hsu hboundU hkeyU hsame hinf hioU
  have ht := encrypted_of_run hs hbound hkey hlen hio hrun
  have hfile : Memory.bytes u.inf = cryptogram m s.key (Memory.bytes s.inf) := by rw [hinf, ht.outf]
  have hlength : u.inf.length = roundup8 s.inf.length + 8 := by
    rw [← Memory.bytes_length, hfile, cryptogram_length, Memory.bytes_length]
  have hpad := roundup8_lt_add s.inf.length
  have hblocks := roundup8_mod s.inf.length
  obtain ⟨v, hrunV, hv⟩ := decryptRun m hsu hboundU hkeyU (by omega) (by omega) (by omega) hioU
  have hplain : plaintextOf m u.key (Memory.bytes u.inf) = some (Memory.bytes s.inf) := by
    rw [hsame, hfile]
    exact cryptogramRoundTrip m s.key _ (by rwa [Memory.bytes_length])
  obtain ⟨hcph, -, hout, -⟩ := hv.success _ hplain
  exact ⟨v, hrunV, hcph, hout⟩

/-- Settles O60: the two runs have the same mode, key and file, and these determine what each leaves. -/
theorem chunkSizeDoesNotMatter : Obligations.ChunkSizeDoesNotMatter := by
  intro m s s' hsame hs hbound hkey
  have hs' : s'.cph ≠ .running := by rwa [hsame]
  have hbound' : s'.bound = true := by rwa [hsame]
  have hkey' : s'.keyv = 0xFF := by rwa [hsame]
  have hk : s'.key = s.key := by rw [hsame]
  have hinf : s'.inf = s.inf := by rw [hsame]
  refine ⟨fun t t' hlen hio hio' hrun hrun' => ?_, fun t t' hfile hne hmod hio hio' hrun hrun' => ?_⟩
  · have ht' := encrypted_of_run hs' hbound' hkey' (by rwa [hinf]) hio' hrun'
    rw [hk, hinf] at ht'
    exact (encrypted_of_run hs hbound hkey hlen hio hrun).unique ht'
  · have ht' := decrypted_of_run hs' hbound' hkey' (by rwa [hinf]) (by rwa [hinf]) (by rwa [hinf]) hio' hrun'
    rw [hk, hinf] at ht'
    exact (decrypted_of_run hs hbound hkey hfile hne hmod hio hrun).unique ht'

end Sys2Proof.Machine
end

section
/-! CSTART's decrypt start and its failures (45 R231 to R238, 60 R308). -/

namespace Sys2Proof.Machine

/-- Settles O42: CSTART DEC on whole blocks comes to the lengths; every field is read off the updates. -/
theorem cstartDecryptStartsRun : Obligations.CstartDecryptStartsRun := by
  refine fun m => ⟨encode_cstart .dec m ▸ encodedAs_encode rfl, fun s hs hbound hlimit hio hkey hne hmod =>
    ⟨_, exec_cstart_dec_started m hs hbound hlimit hio hkey hne hmod, ?_⟩⟩
  have hin : (BitVec.ofNat 64 s.inf.length).toNat = s.inf.length := Len.toNat_ofNat (by omega)
  have hdata : (BitVec.ofNat 64 s.inf.length - 8).toNat = s.inf.length - 8 := by
    have hsub := Len.toNat_sub_eight (v := BitVec.ofNat 64 s.inf.length) (by rwa [hin]) (by rwa [hin])
    omega
  have hinverted (h : m = .ecb ∨ m = .cbc) : modeSchedule .dec m s.key = invertSchedule (genSchedule s.key) ∧
      scheduleDir .dec m = .dec :=
    have hdir := scheduleDir_of_inverted ⟨h, rfl⟩
    ⟨modeSchedule_of_dec hdir s.key, hdir⟩
  have hplain (h : m = .cfb ∨ m = .ofb) : modeSchedule .dec m s.key = genSchedule s.key ∧ scheduleDir .dec m = .enc := by
    obtain rfl | rfl := h <;> exact ⟨rfl, rfl⟩
  have hempty (a : Nat) : Memory.read [] a = none := rfl
  have hframe : SameRegs runRegs s (startedRun .dec m (BitVec.ofNat 64 s.inf.length - 8#64)
      (BitVec.ofNat 64 s.inf.length - 8#64) s) := by
    apply sameRegs_runRegs <;> simp
  simpa [-BitVec.toNat_ofNat, -BitVec.toNat_sub, hbound, hin, hempty, hframe] using ⟨hdata, hinverted, hplain⟩

/-- What a CSTART leaves, once it has cleared the run registers, until it fails or starts the run. -/
@[simp] def keptByStart (s : State) :
    (Key × BitVec 8 × Fin 16 × Word × ErrorCode × Block × Memory) × Word × Len × Len × Len × Len × Len × Len × Cflags :=
  (keptByRun s, s.evtseq, s.dataLen, s.outLen, s.doneBytes, s.outPos, s.finalSize, s.elapsed, s.cflags)

/-- Every failure of a CSTART posts the outcome on that (45 R238). -/
theorem cstartFailed_of {code : ErrorCode} {d : Dir} {m : Mode} {s t : State}
    (h : keptByStart t = keptByStart (clearRun d m s)) : CstartFailed code d m s (codecFail code t) := by
  rw [keptByStart, keptByStart, Prod.mk.injEq] at h
  obtain ⟨hkept, h⟩ := h
  have hregs : keptByRun (codecFail code t) = keptByRun s := hkept
  obtain ⟨hframe, hinf⟩ := sameRegs_of_keptByRun hregs
  replace hinf : t.inf = s.inf := hinf
  simp only [Prod.mk.injEq] at h
  obtain ⟨hevtseq, hdata, hout, hdone, hpos, hsize, helapsed, hflags⟩ := h
  refine ⟨rfl, rfl, rfl, ?_, ?_⟩
  · rw [codecFail_evtseq, hevtseq, clearRun_evtseq]
  · simp [hdata, hout, hdone, hpos, hsize, helapsed, hflags, hinf, hframe]

theorem openFiles_of_failure {s : State} (hlimit : s.inf.length < 2 ^ 63) (h : s.bound = false ∨ ioAnswer s = false)
    (k : State → Result) : ∃ t, openFiles s k = .next (codecFail .ioFailure (loseOutput t)) ∧ (t = s ∨ t = afterIo s) := by
  obtain ⟨-, e⟩ | ⟨hbound, -, hio, -⟩ | ⟨-, -, -, e⟩ | ⟨-, hlong, -⟩ := openFiles_cases s k
  · exact ⟨s, e, .inl rfl⟩
  · obtain h | h := h
    · exact absurd (hbound.symm.trans h) nofun
    · exact absurd (hio.symm.trans h) nofun
  · exact ⟨afterIo s, e, .inr rfl⟩
  · exact absurd hlimit (Nat.not_lt.2 hlong)

/-- Settles O43: the open, the key check and the two checks on the length come in this order, each before what it guards. -/
theorem cstartFailuresInOrder : Obligations.CstartFailuresInOrder := by
  intro d m s hs hlimit
  have hin : (BitVec.ofNat 64 s.inf.length).toNat = s.inf.length := Len.toNat_ofNat (by omega)
  rw [exec_cstart_of_ready d m hs]
  refine ⟨fun hfail => ?_, fun hbound hio hkey => ?_, fun hbound hio hkey hdec hbad => ?_⟩
  · obtain ⟨t, e, ht⟩ := openFiles_of_failure (s := clearRun d m s) hlimit hfail (cstartOpened d m)
    refine ⟨_, e, cstartFailed_of ?_, ?_⟩ <;> obtain rfl | rfl := ht <;> simp
  · have hincomplete : ¬ (opened (afterIo (clearRun d m s))).keyComplete = true := mt (keyComplete_iff _).1 hkey
    rw [openFiles_of_success (s := clearRun d m s) hbound hlimit hio, cstartOpened, if_neg hincomplete]
    exact ⟨_, rfl, cstartFailed_of (by simp), by simpa using hin, by simp⟩
  · subst hdec
    have hcomplete : (opened (afterIo (clearRun .dec m s))).keyComplete = true := (keyComplete_iff _).2 hkey
    rw [openFiles_of_success (s := clearRun .dec m s) hbound hlimit hio, cstartOpened, if_pos hcomplete, setLengths]
    have hlen : (loadMode .dec m (opened (afterIo (clearRun .dec m s)))).inLen.toNat = s.inf.length := hin
    by_cases hzero : s.inf.length = 0
    · rw [if_pos hzero, hlen, if_pos hzero]
      refine ⟨_, rfl, cstartFailed_of ?_, hlen, ?_⟩ <;> simp
    · have hmod : s.inf.length % 8 ≠ 0 := hbad.resolve_left hzero
      rw [if_neg hzero, hlen, if_neg hzero, if_pos hmod]
      refine ⟨_, rfl, cstartFailed_of ?_, hlen, ?_⟩ <;> simp

end Sys2Proof.Machine
end

section
/-! A chunk step and the decrypt suffix step, outcome by outcome, with their frames (45 R244 to R251). -/

namespace Sys2Proof.Machine

/-! ## A chunk step -/

/-- A chunk step writes CHAIN, DONE_BYTES, OUT_POS and the event (45 R244, R247). -/
theorem sameRegs_afterChunk (s : State) : SameRegs chunkRegs s (afterChunk s) := by
  intro a ha
  simp only [chunkRegs, chainRegs, Bool.or_eq_false_iff, Bool.and_eq_false_iff, decide_eq_false_iff_not] at ha
  obtain ⟨⟨⟨hchain, hcounts⟩, hevt⟩, hevtseq⟩ := ha
  have hnotChain : 0x14 ≤ a.toNat → ¬ a.toNat < 0x18 := by omega
  have hnotDone : 0x24 ≤ a.toNat → ¬ a.toNat < 0x28 := by omega
  have hnotPos : 0x28 ≤ a.toNat → ¬ a.toNat < 0x2C := by omega
  apply readReg_congr (chain := fun h h' => absurd h' (hnotChain h)) (doneBytes := fun h h' => absurd h' (hnotDone h))
    (outPos := fun h h' => absurd h' (hnotPos h)) (evt := (absurd · (oneReg_false hevt)))
    (evtseq := (absurd · (oneReg_false hevtseq))) <;> intros <;> simp

/-- A chunk that is read and not yet appended has written CHAIN (45 R245). -/
theorem sameRegs_afterChunkRead (s : State) : SameRegs chainRegs s (afterChunkRead s) := by
  intro a ha
  have hnotChain : 0x14 ≤ a.toNat → ¬ a.toNat < 0x18 := by simpa [chainRegs] using ha
  apply readReg_congr (chain := fun h h' => absurd h' (hnotChain h)) <;> intros <;> rfl

/-- The chunk's bytes, padded to whole blocks (45 R244). -/
theorem Running.padBlocks_chunkBytesRead {s : State} (h : Running s) (hlt : s.doneBytes.toNat < s.dataLen.toNat) :
    padBlocks (chunkBytesRead s) = ((Memory.bytes s.inf).drop s.doneBytes.toNat).take (chunkCount s) ++
      List.replicate (roundup8 (chunkCount s) - chunkCount s) 0 := by
  rw [padBlocks, h.chunkBytesRead_length hlt, chunkBytesRead, Memory.slice_eq]

theorem Running.chunkContent_afterChunk {s : State} (h : Running s) (hlt : s.doneBytes.toNat < s.dataLen.toNat) :
    (chunkContent (afterChunk s)).take (roundup8 (chunkCount s)) = chunkBytesWritten s := by
  have hlen := h.chunkBytesWritten_length hlt
  rw [← hlen]
  refine chunkContent_take _ s.chunkBuf _ (afterChunk_chunkBuf s) ?_
  rw [hlen, afterChunk_chunkBytes]
  exact roundup8_le_chunkBytes s _ (chunkCount_le_chunkBytes s)

/-- Settles O45: the chunk fits the file and the registers, so that the step is the transform, the append and the counts. -/
theorem chunkStepTransformsChunk : Obligations.ChunkStepTransformsChunk := by
  intro s n hinv hrun hreq hlt hn hread hwrite
  obtain rfl : n = chunkCount s := hn
  have hr := hinv.running hrun
  have hfile := hinv.inf_length_lt hrun
  refine ⟨afterChunk s, (runSequencer_chunk hrun hreq hlt).trans (hr.chunkStep_eq hlt hread hwrite), ?_,
    hr.doneBytes_afterChunk hfile hlt, hr.outPos_afterChunk hfile hlt, afterChunk_evt s, afterChunk_evtseq s,
    fun a ha => ?_, afterChunk_inf s, sameRegs_afterChunk s⟩
  · have hpad := hr.padBlocks_chunkBytesRead hlt
    rw [roundup8] at hpad
    rw [← hpad]
    refine ⟨?_, afterChunk_chain s, hr.chunkBytesWritten_length hlt, ?_, hr.chunkContent_afterChunk hlt⟩
    · rw [afterChunk_outf, Memory.bytes_append]
      rfl
    · rw [chunkContent_length, afterChunk_chunkBytes]
  · rw [afterChunk_outf, Memory.read_append _ _ hinv.outfWf, if_pos ha]

/-- Settles O46: of the step's outcomes the two answers of the oracle choose one, and the chunk is in the file. -/
theorem chunkStepFailures : Obligations.ChunkStepFailures := by
  intro s hrun hreq hlt hfile
  replace hfile : s.doneBytes.toNat + chunkCount s ≤ s.inf.length := hfile
  rw [runSequencer_chunk hrun hreq hlt]
  obtain ⟨-, hread, hwrite, -⟩ | ⟨-, hread, hwrite, e⟩ | ⟨-, hread, e⟩ | ⟨hout, -⟩ := chunkStep_cases s
  · exact ⟨fun hfail => absurd (hread.symm.trans hfail) nofun, fun _ hfail => absurd (hwrite.symm.trans hfail) nofun⟩
  · refine ⟨fun hfail => absurd (hread.symm.trans hfail) nofun, fun _ _ => ⟨_, e, rfl, rfl, rfl, ?_, ?_, ?_, ?_⟩⟩
    · simp
    · simp
    · simp
    · refine sameRegs_mono (sameRegs_or (sameRegs_afterChunkRead s) (sameRegs_ioFailure _)) fun a ha => ?_
      simpa only [outcomeRegs, Bool.or_assoc] using ha
  · exact ⟨fun _ => ⟨_, e, rfl, rfl, rfl, by simp, by simp, by simp, sameRegs_ioFailure s⟩,
      fun hok => absurd (hread.symm.trans hok) nofun⟩
  · omega

/-! ## The decrypt suffix step -/

/-- The block the statement names is the one the step reads. -/
theorem trailingBlock_of_toList {s : State} {b : Block}
    (h : b.toList = ((Memory.bytes s.inf).drop s.dataLen.toNat).take 8) : trailingBlock s = b := by
  rw [trailingBlock, Memory.slice_eq, ← h, blockOfBytes_toList]

/-- The machine once the trailing block has gone through the mode (45 R249). -/
abbrev afterSuffixRead (b : Block) (s : State) : State :=
  setChain (modeXform s.cfg.mode s.cfg.dir s.sk s.chain b).2 (afterIo s)

theorem sameRegs_afterSuffixRead (b : Block) (s : State) : SameRegs chainRegs s (afterSuffixRead b s) :=
  (onlyRegs_setChain _ (afterIo s)).1

/-- A failure after that has written CHAIN and the outcome, whether or not a primitive failed (60 R304). -/
theorem sameRegs_suffixFailure (b : Block) (c : ErrorCode) (s : State) :
    SameRegs (fun a => chainRegs a || outcomeRegs a) s (codecFail c (afterSuffixRead b s)) :=
  sameRegs_or (sameRegs_afterSuffixRead b s) (onlyRegs_codecFail c _).1

theorem sameRegs_suffixIoFailure (b : Block) (s : State) :
    SameRegs (fun a => chainRegs a || outcomeRegs a) s
      (codecFail .ioFailure (loseOutput (afterIo (afterSuffixRead b s)))) :=
  sameRegs_or (sameRegs_afterSuffixRead b s) (sameRegs_ioFailure _)

/-- FINAL_SIZE stands at four addresses (10 R39). -/
theorem sameRegs_setFinalSize (v : Len) (s : State) :
    SameRegs (fun a => 0x2C ≤ a.toNat && a.toNat < 0x30) s (setFinalSize v s) := by
  intro a ha
  have hnot : 0x2C ≤ a.toNat → ¬ a.toNat < 0x30 := by simpa using ha
  apply readReg_congr (finalSize := fun h h' => absurd h' (hnot h)) <;> intros <;> rfl

/-- The success of a decrypt adds FINAL_SIZE and ELAPSED to that (45 R251, R252). -/
theorem sameRegs_suffixSuccess {v : Len} {s t : State} (h : SameRegs chainRegs s t) :
    SameRegs (fun a => chainRegs a || (0x2C ≤ a.toNat && a.toNat < 0x34) || outcomeRegs a) s
      (succeed (setFinalSize v t)) := by
  refine sameRegs_mono (sameRegs_or h (sameRegs_or (sameRegs_setFinalSize v t) (sameRegs_succeed _))) fun a ha => ?_
  simp only [Bool.or_eq_false_iff, Bool.and_eq_false_iff, decide_eq_false_iff_not] at ha ⊢
  obtain ⟨⟨hnotChain, hnotSizes⟩, hnotOutcome⟩ := ha
  exact ⟨hnotChain, by omega, hnotOutcome, by omega⟩

/-- The outcomes of the step once the read has succeeded (45 R249). -/
theorem Running.suffixStepDec_of_some {s : State} (h : Running s) (hdec : s.cflags.cdir = .dec) (hread : ioAnswer s = true)
    {l : Nat} (hl : unpackLen (modeXform s.cfg.mode s.cfg.dir s.sk s.chain (trailingBlock s)).1 = some l) :
    suffixStepDec s = finishDecrypt l (afterSuffixRead (trailingBlock s) s) := by
  rw [h.suffixStepDec_read hdec hread, checkSuffix_of_some (s := afterIo s) hl]
  rfl

theorem Running.suffixStepDec_of_none {s : State} (h : Running s) (hdec : s.cflags.cdir = .dec) (hread : ioAnswer s = true)
    (hl : unpackLen (modeXform s.cfg.mode s.cfg.dir s.sk s.chain (trailingBlock s)).1 = none) :
    suffixStepDec s = .next (codecFail .malformedCryptogram (afterSuffixRead (trailingBlock s) s)) := by
  rw [h.suffixStepDec_read hdec hread, checkSuffix_of_none (s := afterIo s) hl]
  rfl

theorem Running.suffixStepDec_read_failed {s : State} (h : Running s) (hdec : s.cflags.cdir = .dec)
    (hread : ioAnswer s = false) : suffixStepDec s = .next (codecFail .ioFailure (loseOutput (afterIo s))) := by
  have hfile := h.suffix_in_file hdec
  obtain ⟨-, hok, -⟩ | ⟨-, -, e⟩ | ⟨hout, -⟩ := suffixStepDec_cases s
  · exact absurd (hread.symm.trans hok) nofun
  · exact e
  · omega

/-- Settles O48: the answers of the oracle, the unpacking and the two comparisons choose the outcome. -/
theorem decryptSuffixStep : Obligations.DecryptSuffixStep := by
  intro s b hinv hrun hreq hdone hdec hb
  obtain rfl := trailingBlock_of_toList hb
  have hr := hinv.running hrun
  have hall : s.doneBytes = s.dataLen := BitVec.eq_of_toNat_eq (Nat.le_antisymm hinv.doneLe hdone)
  have hout := hr.outf_length hall
  have houtLen := hr.outLen
  have hfile := hinv.inf_length_lt hrun
  have hdata := hr.dataLen_le
  rw [roundup8_of_mod _ (hr.dataLen_mod hdec)] at hout houtLen
  rw [runSequencer_suffixDec hrun hreq hdone hdec]
  have hwrite : ioAnswer (afterSuffixRead (trailingBlock s) s) = ioAnswer (afterIo s) := ioAnswer_congr _ _ rfl rfl
  refine ⟨fun hread => ⟨_, hr.suffixStepDec_read_failed hdec hread, ⟨rfl, rfl, rfl, rfl⟩, by simp, sameRegs_ioFailure s⟩,
    fun hread l hl hle hge hio => ?_, fun hread l hl hle hge hlt hio => ?_, fun hread hbad => ?_⟩
  · have hacc : lengthAccepted l (afterSuffixRead (trailingBlock s) s).dataLen.toNat = true :=
      (lengthAccepted_iff l s.dataLen.toNat).2 ⟨hle, hge⟩
    have hsize : (BitVec.ofNat 64 l).toNat = l := Len.toNat_ofNat (by omega)
    rw [hr.suffixStepDec_of_some hdec hread hl]
    by_cases hlt : l < s.outLen.toNat
    · rw [finishDecrypt_of_cut hacc hlt (by simpa [hout] using hle) (hwrite.trans (hio hlt))]
      refine ⟨_, rfl, rfl, rfl, rfl, ?_, ?_, ?_, fun a ha => ?_, ?_, ?_, ?_, ?_⟩
      · simp
      · rw [succeed_finalSize, setFinalSize_finalSize, hsize]
      · simp
      · simp [Memory.read_truncate _ _ hinv.outfWf, ha]
      · simpa [hout] using hle
      · simp
      · simp
      · exact sameRegs_suffixSuccess (sameRegs_afterSuffixRead (trailingBlock s) s)
    · have hwhole : l = s.dataLen.toNat := by omega
      rw [finishDecrypt_of_whole hacc (Nat.not_lt.1 hlt)]
      refine ⟨_, rfl, rfl, rfl, rfl, ?_, ?_, ?_, fun _ _ => ?_, ?_, ?_, ?_, ?_⟩
      · simp
      · rw [succeed_finalSize, setFinalSize_finalSize, hsize]
      · simpa using (List.take_of_length_le (by simp [hout, hwhole])).symm
      · simp
      · simp [hout, hwhole]
      · simp
      · simp
      · exact sameRegs_suffixSuccess (sameRegs_afterSuffixRead (trailingBlock s) s)
  · have hacc : lengthAccepted l (afterSuffixRead (trailingBlock s) s).dataLen.toNat = true :=
      (lengthAccepted_iff l s.dataLen.toNat).2 ⟨hle, hge⟩
    rw [hr.suffixStepDec_of_some hdec hread hl,
      finishDecrypt_of_cut_failed hacc hlt (by simpa [hout] using hle) (hwrite.trans hio)]
    exact ⟨_, rfl, ⟨rfl, rfl, rfl, by simp⟩, by simp, by simp, sameRegs_suffixIoFailure _ s⟩
  · have e : suffixStepDec s = .next (codecFail .malformedCryptogram (afterSuffixRead (trailingBlock s) s)) := by
      obtain hnone | ⟨l, hl, hrejected⟩ := hbad
      · exact hr.suffixStepDec_of_none hdec hread hnone
      · rw [hr.suffixStepDec_of_some hdec hread hl]
        exact finishDecrypt_of_not_accepted (Bool.eq_false_iff.2 (mt (lengthAccepted_iff l s.dataLen.toNat).1 hrejected))
    exact ⟨_, e, ⟨rfl, rfl, rfl, by simp⟩, by simp, by simp, by simp, sameRegs_suffixFailure _ _ s⟩

end Sys2Proof.Machine
end

section
/-! The register space (10 R20 to R44): what each address reads. -/

namespace Sys2Proof.Machine

/-! ## The map, register by register (10 R20) -/

theorem readReg_key {a : RegAddr} (h : a.toNat < 0x08) (s : State) : readReg a s = Key.word s.key ⟨a.toNat, h⟩ := by
  rw [readReg, dif_pos h]

theorem readReg_keyv (s : State) : readReg 0x08 s = s.keyv.setWidth 16 := rfl
theorem readReg_kdidx (s : State) : readReg 0x09 s = BitVec.ofNat 16 s.kdidx.val := rfl
theorem readReg_cfg (s : State) : readReg 0x0A s = Cfg.word s.cfg := rfl
theorem readReg_acc (s : State) : readReg 0x0B s = s.acc := rfl
theorem readReg_cmderr (s : State) : readReg 0x0C s = s.cmderr.code.setWidth 16 := rfl
theorem readReg_cph (s : State) : readReg 0x0D s = s.cph.code.setWidth 16 := rfl
theorem readReg_cres (s : State) : readReg 0x0E s = s.cres.code.setWidth 16 := rfl
theorem readReg_cflags (s : State) : readReg 0x0F s = Cflags.word s.cflags := rfl
theorem readReg_evt (s : State) : readReg 0x34 s = s.evt.code.setWidth 16 := rfl
theorem readReg_evtseq (s : State) : readReg 0x35 s = s.evtseq := rfl

theorem readReg_chain {a : RegAddr} (hlow : 0x14 ≤ a.toNat) (hhigh : a.toNat < 0x18) (s : State) :
    readReg a s = Block.word s.chain ⟨a.toNat - 0x14, by omega⟩ := by
  rw [readReg, dif_neg (by omega)]
  iterate 8 rw [if_neg (by omega)]
  rw [dif_neg (by omega), dif_pos hhigh]

theorem readReg_length {a : RegAddr} (hlow : 0x18 ≤ a.toNat) (hhigh : a.toNat < 0x34) (s : State) :
    readReg a s = lengthWord (lengthRegister s ((a.toNat - 0x18) / 4)) ((a.toNat - 0x18) % 4) := by
  rw [readReg, dif_neg (by omega)]
  iterate 8 rw [if_neg (by omega)]
  rw [dif_neg (by omega), dif_neg (by omega), if_pos hhigh]

/-- Above the 64-bit registers and the events there are the subkeys and the addresses that read 0x0000 (10 R33, R43). -/
theorem readReg_of_ge {a : RegAddr} (h : 0x36 ≤ a.toNat) (s : State) :
    readReg a s = if a.toNat < 0x40 then 0 else if h : a.toNat < 0x74 then s.sk[a.toNat - 0x40] else 0 := by
  rw [readReg, dif_neg (by omega)]
  iterate 8 rw [if_neg (by omega)]
  rw [dif_neg (by omega), dif_neg (by omega), if_neg (by omega), if_neg (by omega), if_neg (by omega)]

theorem readReg_sk {a : RegAddr} (hlow : 0x40 ≤ a.toNat) (hhigh : a.toNat < 0x74) (s : State) :
    readReg a s = s.sk[a.toNat - 0x40] := by
  rw [readReg_of_ge (by omega), if_neg (by omega), dif_pos hhigh]

theorem readReg_unmapped {a : RegAddr} (h : (0x36 ≤ a.toNat ∧ a.toNat < 0x40) ∨ 0x74 ≤ a.toNat) (s : State) :
    readReg a s = 0 := by
  rw [readReg_of_ge (by omega)]
  split_ifs
  · rfl
  · omega
  · rfl

/-! ## The fields of a word -/

theorem getLsbD_dirBits (d : Dir) : (dirBits d).getLsbD 0 = (d == .dec) := by cases d <;> rfl

theorem getLsbD_bit (b : Bool) : (bit b).getLsbD 0 = b := by cases b <;> rfl

/-- A word whose upper bits read 0 is small (10 R23 to R30). -/
theorem toNat_zero_append_lt {m n : Nat} (v : BitVec n) : (0#m ++ v).toNat < 2 ^ n := by
  simp [v.isLt]

theorem toNat_setWidth_lt {n : Nat} (v : BitVec n) (m : Nat) : (v.setWidth m).toNat < 2 ^ n := by
  rw [BitVec.toNat_setWidth]
  exact lt_of_le_of_lt (Nat.mod_le _ _) v.isLt

theorem Cfg.word_getLsbD (c : Cfg) (k : Nat) :
    (Cfg.word c).getLsbD k =
      if k < 2 then (modeBits c.mode).getLsbD k else if k < 3 then (dirBits c.dir).getLsbD (k - 2)
        else if k < 4 then (bit c.modev).getLsbD (k - 3) else if k < 5 then (dirBits c.skdir).getLsbD (k - 4)
          else if k < 6 then (bit c.skv).getLsbD (k - 5) else false := by
  have h : (Cfg.word c).getLsbD k =
    (0#10 ++ (bit c.skv ++ (dirBits c.skdir ++ (bit c.modev ++ (dirBits c.dir ++ modeBits c.mode))))).getLsbD k := rfl
  rw [h]
  simp only [BitVec.getLsbD_append]
  split_ifs <;> first | rfl | omega | simp

theorem Cflags.word_getLsbD (c : Cflags) (k : Nat) :
    (Cflags.word c).getLsbD k =
      if k < 1 then (bit c.cancelReq).getLsbD k else if k < 2 then (dirBits c.cdir).getLsbD (k - 1)
        else if k < 4 then (modeBits c.cmode).getLsbD (k - 2) else false := by
  have h : (Cflags.word c).getLsbD k = (0#12 ++ (modeBits c.cmode ++ (dirBits c.cdir ++ bit c.cancelReq))).getLsbD k := rfl
  rw [h]
  simp only [BitVec.getLsbD_append]
  split_ifs <;> first | rfl | omega | simp

theorem Cfg.word_mode (c : Cfg) : (Cfg.word c).extractLsb' 0 2 = modeBits c.mode := by
  apply BitVec.eq_of_getLsbD_eq
  intro k hk
  rw [BitVec.getLsbD_extractLsb', decide_eq_true hk, Bool.true_and, Nat.zero_add, Cfg.word_getLsbD, if_pos hk]

theorem Cflags.word_cmode (c : Cflags) : (Cflags.word c).extractLsb' 2 2 = modeBits c.cmode := by
  apply BitVec.eq_of_getLsbD_eq
  intro k hk
  rw [BitVec.getLsbD_extractLsb', decide_eq_true hk, Bool.true_and, Cflags.word_getLsbD, if_neg (by omega),
    if_neg (by omega), if_pos (by omega), Nat.add_sub_cancel_left]

/-! ## The tables of codes (10 R25, R28, R41, 60 R301) -/

theorem modeBits_of_mem_modeTable : ∀ p ∈ modeTable, modeBits p.1 = p.2 := by decide

theorem code_of_mem_errorCodeTable : ∀ p ∈ errorCodeTable, p.1.code.setWidth 16 = p.2 := by decide

theorem code_of_mem_phaseTable : ∀ p ∈ phaseTable, p.1.code.setWidth 16 = p.2 := by decide

theorem code_of_mem_eventTable : ∀ p ∈ eventTable, p.1.code.setWidth 16 = p.2 := by decide

theorem Phase.code_le (p : Phase) : (p.code.setWidth 16).toNat ≤ 4 := by cases p <;> decide

theorem Event.code_le (e : Event) : (e.code.setWidth 16).toNat ≤ 5 := by cases e <;> decide

/-! ## The 64-bit registers (10 R44) -/

/-- Four words from the most significant on make up the register. -/
theorem lengthWord_sum (v : Len) :
    (lengthWord v 0).toNat * 2 ^ 48 + (lengthWord v 1).toNat * 2 ^ 32 + (lengthWord v 2).toNat * 2 ^ 16 +
      (lengthWord v 3).toNat = v.toNat := by
  have hv := v.isLt
  simp only [lengthWord, BitVec.extractLsb'_toNat, Nat.shiftRight_eq_div_pow]
  omega

theorem RegAddr.toNat_ofNat {n : Nat} (h : n < 256) : (BitVec.ofNat 8 n).toNat = n := by
  rw [BitVec.toNat_ofNat, Nat.mod_eq_of_lt h]

/-- Word `k` of the 64-bit register `j` stands at 0x18 + 4j + k (10 R20). -/
theorem readReg_lengthWord {j k : Nat} (hj : j < 7) (hk : k < 4) (s : State) :
    readReg (BitVec.ofNat 8 (0x18 + 4 * j + k)) s = lengthWord (lengthRegister s j) k := by
  have ha := RegAddr.toNat_ofNat (n := 0x18 + 4 * j + k) (by omega)
  rw [readReg_length (by omega) (by omega), ha]
  congr 2 <;> omega

/-! ## The statements -/

/-- Settles O12: each register's equation of the map, its field's bits and its code's number. -/
theorem registerMap : Obligations.RegisterMap := by
  intro s
  refine ⟨fun i => ?_, ?_, ?_, fun m n hmem => ⟨fun h => ?_, fun h => ?_⟩, ?_, ?_, ?_, ?_, readReg_acc s,
    fun e n hmem => ⟨fun h => ?_, fun h => ?_⟩, fun e n hmem h => ?_, ?_, ?_, fun k => ?_, fun k => ?_,
    fun e n hmem h => ?_, readReg_evtseq s, fun i => ?_⟩
  · have ha := RegAddr.toNat_ofNat (n := i.val) (by omega)
    rw [readReg_key (by omega)]
    simp only [ha, Key.word]
  · rw [readReg_keyv, BitVec.toNat_setWidth, Nat.mod_eq_of_lt (by omega)]
  · rw [readReg_kdidx, BitVec.toNat_ofNat, Nat.mod_eq_of_lt (by omega)]
  · rw [readReg_cfg, Cfg.word_mode, h, modeBits_of_mem_modeTable _ hmem]
  · rw [readReg_cflags, Cflags.word_cmode, h, modeBits_of_mem_modeTable _ hmem]
  · exact (Cfg.word_getLsbD s.cfg 2).trans (getLsbD_dirBits s.cfg.dir)
  · exact (Cfg.word_getLsbD s.cfg 3).trans (getLsbD_bit s.cfg.modev)
  · exact (Cfg.word_getLsbD s.cfg 4).trans (getLsbD_dirBits s.cfg.skdir)
  · exact (Cfg.word_getLsbD s.cfg 5).trans (getLsbD_bit s.cfg.skv)
  · rw [readReg_cmderr, h, code_of_mem_errorCodeTable _ hmem]
  · rw [readReg_cres, h, code_of_mem_errorCodeTable _ hmem]
  · rw [readReg_cph, h, code_of_mem_phaseTable _ hmem]
  · exact (Cflags.word_getLsbD s.cflags 0).trans (getLsbD_bit s.cflags.cancelReq)
  · exact (Cflags.word_getLsbD s.cflags 1).trans (getLsbD_dirBits s.cflags.cdir)
  · have ha := RegAddr.toNat_ofNat (n := 0x10 + k.val) (by omega)
    rw [readReg_blk (by omega) (by omega)]
    simp only [ha, Block.word, Nat.add_sub_cancel_left]
  · have ha := RegAddr.toNat_ofNat (n := 0x14 + k.val) (by omega)
    rw [readReg_chain (by omega) (by omega)]
    simp only [ha, Block.word, Nat.add_sub_cancel_left]
  · rw [readReg_evt, h, code_of_mem_eventTable _ hmem]
  · have ha := RegAddr.toNat_ofNat (n := 0x40 + i.val) (by omega)
    rw [readReg_sk (by omega) (by omega)]
    simp only [ha, Nat.add_sub_cancel_left]

/-- Settles O13: the seven registers stand one after another, and each one's four words make it up. -/
theorem lengthRegistersReadBigEndian : Obligations.LengthRegistersReadBigEndian := by
  intro s p hp
  obtain ⟨j, hj, hbase, hreg⟩ : ∃ j, j < 7 ∧ p.1 = 0x18 + 4 * j ∧ p.2 = lengthRegister s j := by
    simp only [List.mem_cons, List.not_mem_nil, or_false] at hp
    obtain rfl | rfl | rfl | rfl | rfl | rfl | rfl := hp
    · exact ⟨0, by decide, rfl, rfl⟩
    · exact ⟨1, by decide, rfl, rfl⟩
    · exact ⟨2, by decide, rfl, rfl⟩
    · exact ⟨3, by decide, rfl, rfl⟩
    · exact ⟨4, by decide, rfl, rfl⟩
    · exact ⟨5, by decide, rfl, rfl⟩
    · exact ⟨6, by decide, rfl, rfl⟩
  rw [hbase, hreg, ← lengthWord_sum, ← readReg_lengthWord hj (by decide), ← readReg_lengthWord hj (by decide),
    ← readReg_lengthWord hj (by decide), ← readReg_lengthWord hj (by decide)]
  rfl

/-- Settles O14: the upper bits of each such word are laid out as zeroes, and the codes are small. -/
theorem reservedBitsReadZero : Obligations.ReservedBitsReadZero := by
  intro s
  refine ⟨toNat_setWidth_lt s.keyv 16, ?_, toNat_zero_append_lt _, toNat_setWidth_lt s.cmderr.code 16, Phase.code_le s.cph,
    toNat_setWidth_lt s.cres.code 16, toNat_zero_append_lt _, Event.code_le s.evt, fun a ha => readReg_unmapped ha s⟩
  rw [readReg_kdidx, BitVec.toNat_ofNat]
  omega

end Sys2Proof.Machine
end

section
/-! The step and the ports (20 R62, R79, 30 R98, 46 R281, R284, 70 R340). -/

namespace Sys2Proof.Machine

/-- A step takes the next operation off the agenda and runs it. -/
theorem step_of_agenda {s : State} {a : Action} {rest : List Action} (h : s.agenda = a :: rest) :
    step s = runAction a (setAgenda rest s) := by
  rw [step, nextOperation, h]

theorem step_of_idle {s : State} (h : s.agenda = []) : step s = runSequencer s := by
  rw [step, nextOperation, h]

theorem runCommand_of_ok {w : CmdWord} {i : Instr} (h : decode w = .ok i) (s : State) : runCommand w s = exec i s := by
  rw [runCommand, h]

theorem runCommand_of_error {w : CmdWord} {e : DecodeError} (h : decode w = .error e) (s : State) :
    runCommand w s = .next (raiseCmd .illegalCommand s) := by
  rw [runCommand, h]

/-- No word decodes to a BLKLDW of a word BLK does not have (30 R99, log 12). -/
theorem exec_blkldw_of_illegal {i : BitVec 3} (hi : 4 ≤ i.toNat) (v : Word) (s : State) :
    exec (.blkldw i v) s = .next (raiseCmd .illegalCommand s) := by
  show execBlkldw i v s = _
  rw [execBlkldw, dif_neg (Nat.not_lt.2 hi)]

/-- Settles O6: the word is the next operation, and the port runs what it decodes to. -/
theorem stepExecutesDecodedCommand : Obligations.StepExecutesDecodedCommand :=
  fun s _ rest _ hagenda hdecode => (step_of_agenda hagenda).trans (runCommand_of_ok hdecode (setAgenda rest s))

/-- Settles O7: both raise the error ahead of every other check, and a raised error reaches CMDERR alone. -/
theorem illegalWordOnlySetsCmderr : Obligations.IllegalWordOnlySetsCmderr :=
  ⟨fun _ v s hi => failsWith_of_raiseCmd (exec_blkldw_of_illegal hi v s), fun s _ rest _ hagenda hdecode =>
    ⟨_, (step_of_agenda hagenda).trans (runCommand_of_error hdecode _), rfl,
      onlyRegs_raiseCmd .illegalCommand (setAgenda rest s)⟩⟩

theorem runSequencer_of_not_running {s : State} (hs : s.cph ≠ .running) : runSequencer s = .next s :=
  if_neg (mt (busy_iff s).1 hs)

/-- Settles O8: a turn is enabled exactly while RUNNING, and the three conditions are tested in this order. -/
theorem sequencerTurns : Obligations.SequencerTurns :=
  fun _ => ⟨fun _ => step_of_agenda, step_of_idle, runSequencer_of_not_running, runSequencer_cancel, runSequencer_chunk,
    runSequencer_suffixEnc, runSequencer_suffixDec⟩

/-- Settles O15: the answer is a field of its own, outside the register space. -/
theorem readHasNoSideEffect : Obligations.ReadHasNoSideEffect :=
  fun s a rest hagenda => ⟨setReply (readReg a s) (setAgenda rest s), step_of_agenda hagenda, rfl, onlyRegs_refl _ _⟩

/-! ## Reset -/

theorem Key.word_zero (i : Fin 8) : Key.word Key.zero i = 0 := by
  fin_cases i <;> rfl

theorem Block.word_zero (k : Fin 4) : Block.word Block.zero k = 0 := by
  fin_cases k <;> rfl

theorem lengthWord_zero (j : Nat) : lengthWord 0 j = 0 := by
  simp [lengthWord]

theorem lengthRegister_reset (j : Nat) : lengthRegister State.reset j = 0 := by
  unfold lengthRegister
  split <;> rfl

/-- Every register's reset value reads 0x0000 (70 R341). -/
theorem readReg_reset (a : RegAddr) : readReg a State.reset = 0 := by
  have hone {n : Nat} (hn : n < 256) (h : a.toNat = n) : a = BitVec.ofNat 8 n :=
    BitVec.eq_of_toNat_eq (h.trans (RegAddr.toNat_ofNat hn).symm)
  obtain h | h | h | h | h | h | h | h | h | ⟨hlow, hhigh⟩ | ⟨hlow, hhigh⟩ | ⟨hlow, hhigh⟩ | h | h | ⟨hlow, hhigh⟩ | h :
      a.toNat < 0x08 ∨ a.toNat = 0x08 ∨ a.toNat = 0x09 ∨ a.toNat = 0x0A ∨ a.toNat = 0x0B ∨ a.toNat = 0x0C ∨
      a.toNat = 0x0D ∨ a.toNat = 0x0E ∨ a.toNat = 0x0F ∨ (0x10 ≤ a.toNat ∧ a.toNat < 0x14) ∨
      (0x14 ≤ a.toNat ∧ a.toNat < 0x18) ∨ (0x18 ≤ a.toNat ∧ a.toNat < 0x34) ∨ a.toNat = 0x34 ∨ a.toNat = 0x35 ∨
      (0x40 ≤ a.toNat ∧ a.toNat < 0x74) ∨ ((0x36 ≤ a.toNat ∧ a.toNat < 0x40) ∨ 0x74 ≤ a.toNat) := by omega
  · exact (readReg_key h _).trans (Key.word_zero _)
  · exact hone (by decide) h ▸ readReg_keyv _
  · exact hone (by decide) h ▸ readReg_kdidx _
  · exact hone (by decide) h ▸ readReg_cfg _
  · exact hone (by decide) h ▸ readReg_acc _
  · exact hone (by decide) h ▸ readReg_cmderr _
  · exact hone (by decide) h ▸ readReg_cph _
  · exact hone (by decide) h ▸ readReg_cres _
  · exact hone (by decide) h ▸ readReg_cflags _
  · exact (readReg_blk hlow hhigh _).trans (Block.word_zero _)
  · exact (readReg_chain hlow hhigh _).trans (Block.word_zero _)
  · rw [readReg_length hlow hhigh, lengthRegister_reset, lengthWord_zero]
  · exact hone (by decide) h ▸ readReg_evt _
  · exact hone (by decide) h ▸ readReg_evtseq _
  · exact (readReg_sk hlow hhigh _).trans (Vector.getElem_replicate _)
  · exact readReg_unmapped h _

theorem readReg_resetRegisters (a : RegAddr) (s : State) : readReg a (resetRegisters s) = 0 := by
  rw [← readReg_reset a]
  apply readReg_congr <;> intros <;> simp

/-- Settles O11: RESET writes each register's reset value, the reset input is RESET, and nothing is bound at power-on. -/
theorem resetClearsEveryRegister : Obligations.ResetClearsEveryRegister := by
  have hreset (s : State) : (∀ a, readReg a (resetRegisters s) = 0) ∧ SameFiles s (resetRegisters s) :=
    ⟨fun a => readReg_resetRegisters a s, rfl, fun _ => rfl, fun _ => rfl⟩
  refine ⟨encodedAs_encode rfl, fun s => ?_, fun s rest hagenda => ?_, readReg_reset, fun d m => ?_⟩
  · obtain ⟨hregs, hfiles⟩ := hreset s
    exact ⟨_, rfl, hregs, hfiles, rfl, rfl, rfl, rfl⟩
  · obtain ⟨hregs, hfiles⟩ := hreset (setAgenda rest s)
    have e := step_of_agenda hagenda
    exact ⟨e, _, e, hregs, hfiles⟩
  · rw [exec_cstart_of_ready d m (by decide)]
    exact ⟨_, rfl, rfl, rfl, rfl, rfl, rfl⟩

end Sys2Proof.Machine
end
